-- ==== Sys2Proof/Word.lean ====
section
/-! DEFINITION. The machine's word types (R7: a register is a 32-bit word, bit 0 least significant). -/

namespace Sys2Proof

/-- One byte of the register window (R49). -/
abbrev Byte := BitVec 8

/-- One register of the window, and one operand slot of a command record (R6: `REG_W` = 32). -/
abbrev Word := BitVec 32

/-- A 16-bit cycle count (R6, operand type `cyc16` of R64). -/
abbrev Half := BitVec 16

end Sys2Proof
end

