-- ==== Sys2Proof/Config.lean ====
section
/-! DEFINITION. What an implementation fixes (R6) and the free values, which nothing in Lean can evaluate. -/

namespace Sys2Proof

/-- FREE VALUE (log 5). The bits that the `RES` positions of a word show on the load that has this number:
"a `RES` bit any value" (R43), "any value, on every read independently" (93_implementation_defined.md row 1). -/
opaque Config.reservedBits : Nat → Word

/-- `INIT_WINDOW` (R6, R41, D23), byte by byte: what a byte of the window that nothing has written reads as.
DESIGN CHOICE (logs 3 and 4): the all-zero window that the spec's test vectors start from. -/
def Config.initByte (_address : Nat) : Byte := 0

/-- `DISABLE_POLL` (R6, D28) in milliseconds of host time. No rule depends on it (R134). -/
def Config.disablePoll : Nat := 100

/-- `CAPTURE_POLL` (R6, C10) in milliseconds of host time. No rule depends on it (R134). -/
def Config.capturePoll : Nat := 100

end Sys2Proof
end

