-- ==== Sys2Proof/Syntax.lean ====
section
/-! DEFINITION. The commands as the Caller delivers them (records, R62) and as the Core runs them (R63, R65). -/

namespace Sys2Proof

/-- The operand types of R64. -/
inductive OperandType where
  | ch | off | word | bitidx | bool | src | div | presc | cyc16 | pol | pct | dst
  deriving DecidableEq, Repr

/-- A command as it is delivered: "a record {opcode, operands}: an 8-bit opcode ... and the ordered operand list" (R62).
DESIGN CHOICE (log 1): every operand arrives in one 32-bit slot, the widest operand type of R64, so that a value
outside a narrower type can be written down and refused (R68). -/
structure Record where
  opcode   : Byte
  operands : List Word
  deriving DecidableEq, Repr

/-- The 31 commands (R63) with their operand lists (R65). `ch` and `pct` are int32 in two's complement; `off`, `word`, `bitidx`,
`src` and `div` are unsigned 32-bit; `presc` 8 bits; `cyc16` 16 bits; `bool`, `pol` and `dst` one bit (R64). A term of this type has every operand inside
its type: "a value outside the type cannot be written into a command" (R64). -/
inductive Instr where
  /-- R72 -/
  | load32 (off : Word) (dst : Bool)
  /-- R73 -/
  | store32 (off value : Word)
  /-- R74 -/
  | readModifyWriteBit (off bit : Word) (value : Bool)
  /-- R75 -/
  | setClockGate (ch : Word) (pass : Bool)
  /-- R76 -/
  | setClockBypass (ch : Word) (bypass : Bool)
  /-- R77 -/
  | configureClock (ch source divider : Word)
  /-- R78 -/
  | readClockConfig (ch : Word) (dst : Bool)
  /-- R79 -/
  | setPrescaler (ch : Word) (prescaler : Byte)
  /-- R80 -/
  | readPrescaler (ch : Word) (dst : Bool)
  /-- R81 -/
  | isEnabled (ch : Word) (dst : Bool)
  /-- R82 -/
  | setEnabled (ch : Word) (enabled : Bool)
  /-- R83 -/
  | setPeriod (ch : Word) (entire active : Half)
  /-- R84 -/
  | getPeriod (ch : Word) (dst : Bool)
  /-- R85 -/
  | setPolarity (ch : Word) (polarity : Bool)
  /-- R86 -/
  | setCaptureEnable (ch : Word) (rising falling : Bool)
  /-- R87 -/
  | setCaptureInterruptEnable (ch : Word) (rising falling : Bool)
  /-- R88 -/
  | clearCaptureInterrupt (ch : Word) (rising falling : Bool)
  /-- R89 -/
  | readCaptureInterruptStatus (ch : Word) (dst : Bool)
  /-- R90 -/
  | readRiseLockCount (ch : Word) (dst : Bool)
  /-- R91 -/
  | readFallLockCount (ch : Word) (dst : Bool)
  /-- R92 -/
  | readRiseLockFlag (ch : Word) (dst : Bool)
  /-- R93 -/
  | readFallLockFlag (ch : Word) (dst : Bool)
  /-- R95 -/
  | applyPwmConfig (ch source divider : Word) (prescaler : Byte) (entire active : Half) (polarity enabled : Bool)
  /-- R96 -/
  | readPwmConfig (ch : Word) (dst : Bool)
  /-- R97 -/
  | setDutyPercent (ch percent : Word)
  /-- R98 -/
  | applyCaptureConfig (ch source divider : Word) (prescaler : Byte) (rising falling : Bool)
  /-- R99 -/
  | captureBlocking (ch : Word) (dst : Bool)
  /-- R100 -/
  | effectiveClockPeriodNs (source divider : Word) (prescaler : Byte) (dst : Bool)
  /-- R101 -/
  | rawToNanoseconds (ch : Word) (onCycles offCycles : Half) (dst : Bool)
  /-- R102 -/
  | maxCaptureDurationNs (ch : Word) (dst : Bool)
  /-- R103 -/
  | outputFrequencyHz (ch : Word) (dst : Bool)
  deriving DecidableEq, Repr

end Sys2Proof
end

