-- ==== Sys2Proof/WellFormed.lean ====
section
/-! DEFINITION. Which records spell a command: the opcode map of R63 and the operand lists of R65 as one table, the operand
types of R64 as widths. Decode.lean is written without this table; that the two agree is a claim. An `Instr` needs no check of its own: its
operands are typed (R64). -/

namespace Sys2Proof

/-- The width of an operand type in bits (R64). -/
def OperandType.width : OperandType → Nat
  | .ch | .off | .word | .bitidx | .src | .div | .pct => 32
  | .cyc16 => 16
  | .presc => 8
  | .bool | .pol | .dst => 1

/-- An operand slot holds a value of its type: the bits above the type's width are 0 (R64). -/
def OperandType.admits (t : OperandType) (v : Word) : Bool := v.toNat < 2 ^ t.width

/-- The operand list of each opcode (R63, R65); `none` for an opcode that spells no command (R67). -/
def Record.signature (opcode : Byte) : Option (List OperandType) :=
  match opcode.toNat with
  | 0x01 => some [.off, .dst]
  | 0x02 => some [.off, .word]
  | 0x03 => some [.off, .bitidx, .bool]
  | 0x10 => some [.ch, .bool]
  | 0x11 => some [.ch, .bool]
  | 0x12 => some [.ch, .src, .div]
  | 0x13 => some [.ch, .dst]
  | 0x14 => some [.ch, .presc]
  | 0x15 => some [.ch, .dst]
  | 0x20 => some [.ch, .dst]
  | 0x21 => some [.ch, .bool]
  | 0x22 => some [.ch, .cyc16, .cyc16]
  | 0x23 => some [.ch, .dst]
  | 0x24 => some [.ch, .pol]
  | 0x30 => some [.ch, .bool, .bool]
  | 0x31 => some [.ch, .bool, .bool]
  | 0x32 => some [.ch, .bool, .bool]
  | 0x33 => some [.ch, .dst]
  | 0x34 => some [.ch, .dst]
  | 0x35 => some [.ch, .dst]
  | 0x36 => some [.ch, .dst]
  | 0x37 => some [.ch, .dst]
  | 0x40 => some [.ch, .src, .div, .presc, .cyc16, .cyc16, .pol, .bool]
  | 0x41 => some [.ch, .dst]
  | 0x42 => some [.ch, .pct]
  | 0x43 => some [.ch, .src, .div, .presc, .bool, .bool]
  | 0x44 => some [.ch, .dst]
  | 0x45 => some [.src, .div, .presc, .dst]
  | 0x46 => some [.ch, .cyc16, .cyc16, .dst]
  | 0x47 => some [.ch, .dst]
  | 0x48 => some [.ch, .dst]
  | _ => none

/-- The operands are as many as the list asks for, each inside its type (R65, R68). -/
def operandsFit : List OperandType → List Word → Bool
  | [], [] => true
  | t :: ts, v :: vs => t.admits v && operandsFit ts vs
  | _, _ => false

/-- The record spells one of the 31 commands (R63, R67, R68). -/
def Record.wellFormed (r : Record) : Bool :=
  match Record.signature r.opcode with
  | some ts => operandsFit ts r.operands
  | none => false

end Sys2Proof
end

