-- ==== Sys2Proof/Decode.lean ====
section
/-! DEFINITION. The decoder, total on any record, rejecting by name (R67, R68), and the encoder. -/

namespace Sys2Proof

/-- Why a record is refused: R67 (`UnknownOpcode(op)`) or R68 (`BadOperand(op, name)`). -/
inductive DecodeError where
  | unknownOpcode (op : Byte)
  | badOperand (op : Byte) (name : String)
  deriving DecidableEq, Repr

/-! ## Operand readers: each takes one slot, checks it against its type (R64) and returns the slots after it. -/

/-- A 32-bit operand: every value is inside its type. A missing operand is refused by its name (R68; log 16). -/
def takeWord (op : Byte) (name : String) : List Word → Except DecodeError (Word × List Word)
  | v :: rest => .ok (v, rest)
  | [] => .error (.badOperand op name)

/-- A 16-bit operand (`cyc16`). -/
def takeHalf (op : Byte) (name : String) : List Word → Except DecodeError (Half × List Word)
  | v :: rest => if v.toNat < 65536 then .ok (v.setWidth 16, rest) else .error (.badOperand op name)
  | [] => .error (.badOperand op name)

/-- An 8-bit operand (`presc`). -/
def takeByte (op : Byte) (name : String) : List Word → Except DecodeError (Byte × List Word)
  | v :: rest => if v.toNat < 256 then .ok (v.setWidth 8, rest) else .error (.badOperand op name)
  | [] => .error (.badOperand op name)

/-- A one-bit operand (`bool`, `pol`, `dst`): "tested for 1" (R66). -/
def takeBit (op : Byte) (name : String) : List Word → Except DecodeError (Bool × List Word)
  | v :: rest => if v.toNat < 2 then .ok (v.toNat == 1, rest) else .error (.badOperand op name)
  | [] => .error (.badOperand op name)

/-- The record has exactly the operands of its command: "Every one of the 31 commands has exactly one operand list" (R68; log 16). -/
def endOfRecord (op : Byte) (i : Instr) : List Word → Except DecodeError Instr
  | [] => .ok i
  | _ :: _ => .error (.badOperand op "surplus")

/-! ## Operand lists that many commands share (R65) -/

/-- `ch, dst`: the commands that read a channel and return values. -/
def decodeChDst (op : Byte) (mk : Word → Bool → Instr) (vs : List Word) : Except DecodeError Instr := do
  let (ch, vs) ← takeWord op "ch" vs
  let (dst, vs) ← takeBit op "dst" vs
  endOfRecord op (mk ch dst) vs

/-- `ch` and one bit. -/
def decodeChBit (op : Byte) (name : String) (mk : Word → Bool → Instr) (vs : List Word) : Except DecodeError Instr := do
  let (ch, vs) ← takeWord op "ch" vs
  let (b, vs) ← takeBit op name vs
  endOfRecord op (mk ch b) vs

/-- `ch, rising, falling`. -/
def decodeChEdges (op : Byte) (mk : Word → Bool → Bool → Instr) (vs : List Word) : Except DecodeError Instr := do
  let (ch, vs) ← takeWord op "ch" vs
  let (rising, vs) ← takeBit op "rising" vs
  let (falling, vs) ← takeBit op "falling" vs
  endOfRecord op (mk ch rising falling) vs

/-! ## The decoder -/

/-- The command a record spells: the opcode is matched on all 8 bits (R63), then the operands are read in the order of R65. -/
def decode (r : Record) : Except DecodeError Instr :=
  let op := r.opcode
  let vs := r.operands
  match op.toNat with
  | 0x01 => do
    let (off, vs) ← takeWord op "off" vs
    let (dst, vs) ← takeBit op "dst" vs
    endOfRecord op (.load32 off dst) vs
  | 0x02 => do
    let (off, vs) ← takeWord op "off" vs
    let (value, vs) ← takeWord op "value" vs
    endOfRecord op (.store32 off value) vs
  | 0x03 => do
    let (off, vs) ← takeWord op "off" vs
    let (bit, vs) ← takeWord op "bit" vs
    let (value, vs) ← takeBit op "value" vs
    endOfRecord op (.readModifyWriteBit off bit value) vs
  | 0x10 => decodeChBit op "pass" .setClockGate vs
  | 0x11 => decodeChBit op "bypass" .setClockBypass vs
  | 0x12 => do
    let (ch, vs) ← takeWord op "ch" vs
    let (source, vs) ← takeWord op "source" vs
    let (divider, vs) ← takeWord op "divider" vs
    endOfRecord op (.configureClock ch source divider) vs
  | 0x13 => decodeChDst op .readClockConfig vs
  | 0x14 => do
    let (ch, vs) ← takeWord op "ch" vs
    let (prescaler, vs) ← takeByte op "prescaler" vs
    endOfRecord op (.setPrescaler ch prescaler) vs
  | 0x15 => decodeChDst op .readPrescaler vs
  | 0x20 => decodeChDst op .isEnabled vs
  | 0x21 => decodeChBit op "enabled" .setEnabled vs
  | 0x22 => do
    let (ch, vs) ← takeWord op "ch" vs
    let (entire, vs) ← takeHalf op "entire" vs
    let (active, vs) ← takeHalf op "active" vs
    endOfRecord op (.setPeriod ch entire active) vs
  | 0x23 => decodeChDst op .getPeriod vs
  | 0x24 => decodeChBit op "polarity" .setPolarity vs
  | 0x30 => decodeChEdges op .setCaptureEnable vs
  | 0x31 => decodeChEdges op .setCaptureInterruptEnable vs
  | 0x32 => decodeChEdges op .clearCaptureInterrupt vs
  | 0x33 => decodeChDst op .readCaptureInterruptStatus vs
  | 0x34 => decodeChDst op .readRiseLockCount vs
  | 0x35 => decodeChDst op .readFallLockCount vs
  | 0x36 => decodeChDst op .readRiseLockFlag vs
  | 0x37 => decodeChDst op .readFallLockFlag vs
  | 0x40 => do
    let (ch, vs) ← takeWord op "ch" vs
    let (source, vs) ← takeWord op "source" vs
    let (divider, vs) ← takeWord op "divider" vs
    let (prescaler, vs) ← takeByte op "prescaler" vs
    let (entire, vs) ← takeHalf op "entire" vs
    let (active, vs) ← takeHalf op "active" vs
    let (polarity, vs) ← takeBit op "polarity" vs
    let (enabled, vs) ← takeBit op "enabled" vs
    endOfRecord op (.applyPwmConfig ch source divider prescaler entire active polarity enabled) vs
  | 0x41 => decodeChDst op .readPwmConfig vs
  | 0x42 => do
    let (ch, vs) ← takeWord op "ch" vs
    let (percent, vs) ← takeWord op "percent" vs
    endOfRecord op (.setDutyPercent ch percent) vs
  | 0x43 => do
    let (ch, vs) ← takeWord op "ch" vs
    let (source, vs) ← takeWord op "source" vs
    let (divider, vs) ← takeWord op "divider" vs
    let (prescaler, vs) ← takeByte op "prescaler" vs
    let (rising, vs) ← takeBit op "rising" vs
    let (falling, vs) ← takeBit op "falling" vs
    endOfRecord op (.applyCaptureConfig ch source divider prescaler rising falling) vs
  | 0x44 => decodeChDst op .captureBlocking vs
  | 0x45 => do
    let (source, vs) ← takeWord op "source" vs
    let (divider, vs) ← takeWord op "divider" vs
    let (prescaler, vs) ← takeByte op "prescaler" vs
    let (dst, vs) ← takeBit op "dst" vs
    endOfRecord op (.effectiveClockPeriodNs source divider prescaler dst) vs
  | 0x46 => do
    let (ch, vs) ← takeWord op "ch" vs
    let (onCycles, vs) ← takeHalf op "onCycles" vs
    let (offCycles, vs) ← takeHalf op "offCycles" vs
    let (dst, vs) ← takeBit op "dst" vs
    endOfRecord op (.rawToNanoseconds ch onCycles offCycles dst) vs
  | 0x47 => decodeChDst op .maxCaptureDurationNs vs
  | 0x48 => decodeChDst op .outputFrequencyHz vs
  | _ => .error (.unknownOpcode op)

/-! ## The encoder -/

/-- A one-bit operand in its slot. -/
def bitSlot (b : Bool) : Word := if b then 1 else 0

/-- A 16-bit operand in its slot, zero-extended (R66). -/
def halfSlot (v : Half) : Word := v.setWidth 32

/-- An 8-bit operand in its slot, zero-extended (R66). -/
def byteSlot (v : Byte) : Word := v.setWidth 32

/-- The record of a command: opcode of R63, operands in the order of R65. -/
def encode : Instr → Record
  | .load32 off dst => ⟨0x01, [off, bitSlot dst]⟩
  | .store32 off value => ⟨0x02, [off, value]⟩
  | .readModifyWriteBit off bit value => ⟨0x03, [off, bit, bitSlot value]⟩
  | .setClockGate ch pass => ⟨0x10, [ch, bitSlot pass]⟩
  | .setClockBypass ch bypass => ⟨0x11, [ch, bitSlot bypass]⟩
  | .configureClock ch source divider => ⟨0x12, [ch, source, divider]⟩
  | .readClockConfig ch dst => ⟨0x13, [ch, bitSlot dst]⟩
  | .setPrescaler ch prescaler => ⟨0x14, [ch, byteSlot prescaler]⟩
  | .readPrescaler ch dst => ⟨0x15, [ch, bitSlot dst]⟩
  | .isEnabled ch dst => ⟨0x20, [ch, bitSlot dst]⟩
  | .setEnabled ch enabled => ⟨0x21, [ch, bitSlot enabled]⟩
  | .setPeriod ch entire active => ⟨0x22, [ch, halfSlot entire, halfSlot active]⟩
  | .getPeriod ch dst => ⟨0x23, [ch, bitSlot dst]⟩
  | .setPolarity ch polarity => ⟨0x24, [ch, bitSlot polarity]⟩
  | .setCaptureEnable ch rising falling => ⟨0x30, [ch, bitSlot rising, bitSlot falling]⟩
  | .setCaptureInterruptEnable ch rising falling => ⟨0x31, [ch, bitSlot rising, bitSlot falling]⟩
  | .clearCaptureInterrupt ch rising falling => ⟨0x32, [ch, bitSlot rising, bitSlot falling]⟩
  | .readCaptureInterruptStatus ch dst => ⟨0x33, [ch, bitSlot dst]⟩
  | .readRiseLockCount ch dst => ⟨0x34, [ch, bitSlot dst]⟩
  | .readFallLockCount ch dst => ⟨0x35, [ch, bitSlot dst]⟩
  | .readRiseLockFlag ch dst => ⟨0x36, [ch, bitSlot dst]⟩
  | .readFallLockFlag ch dst => ⟨0x37, [ch, bitSlot dst]⟩
  | .applyPwmConfig ch source divider prescaler entire active polarity enabled =>
    ⟨0x40, [ch, source, divider, byteSlot prescaler, halfSlot entire, halfSlot active, bitSlot polarity, bitSlot enabled]⟩
  | .readPwmConfig ch dst => ⟨0x41, [ch, bitSlot dst]⟩
  | .setDutyPercent ch percent => ⟨0x42, [ch, percent]⟩
  | .applyCaptureConfig ch source divider prescaler rising falling =>
    ⟨0x43, [ch, source, divider, byteSlot prescaler, bitSlot rising, bitSlot falling]⟩
  | .captureBlocking ch dst => ⟨0x44, [ch, bitSlot dst]⟩
  | .effectiveClockPeriodNs source divider prescaler dst => ⟨0x45, [source, divider, byteSlot prescaler, bitSlot dst]⟩
  | .rawToNanoseconds ch onCycles offCycles dst => ⟨0x46, [ch, halfSlot onCycles, halfSlot offCycles, bitSlot dst]⟩
  | .maxCaptureDurationNs ch dst => ⟨0x47, [ch, bitSlot dst]⟩
  | .outputFrequencyHz ch dst => ⟨0x48, [ch, bitSlot dst]⟩

/-! ## A record as one number, as spec/opcode_table.json numbers bits -/

/-- How many operand slots follow an opcode (R65); none where it spells no command. -/
def operandCount (opcode : Byte) : Nat :=
  match Record.signature opcode with
  | some ts => ts.length
  | none => 0

/-- The record whose bits are `w` (log 2): bits 7:0 are the opcode (R63), and operand `k` is the 32 bits from bit `8 + 32 k` up; bits
at and above `nbits` are 0. -/
def recordOfBits (nbits w : Nat) : Record :=
  let bits := w % 2 ^ nbits
  let op := BitVec.ofNat 8 bits
  { opcode := op
    operands := (List.range (operandCount op)).map fun k => BitVec.ofNat 32 (bits / 2 ^ (8 + 32 * k)) }

/-- The command the decoder reads from an opcode-table word. -/
def decodeTableWord (nbits w : Nat) : Option Instr :=
  match decode (recordOfBits nbits w) with
  | .ok i => some i
  | .error _ => none

end Sys2Proof
end

