-- ==== Sys2Proof/Machine/State.lean ====
section
/-! DEFINITION. The machine's state as plain data: the register window (R13 to R33), the sequencer (R35, R36), the Caller's commands and the
last response (R62), and the Peripheral's events still to come (R55 to R59). -/

namespace Sys2Proof.Machine

/-- A channel that has passed `CHK_CH`: 0 to 7 (R6, R107). -/
abbrev Channel := Fin 8

/-- A channel pair: (0,1), (2,3), (4,5), (6,7) (R6, R14). -/
abbrev Pair := Fin 4

/-- The register window as bytes: (address, byte) with addresses strictly rising, no entry equal to what an unlisted byte reads as (R13, R49). -/
abbrev Memory := List Host.Cell

/-- The 67 registers of the window (R14, R15). `pccr` is one word for both channels of a pair (R22). -/
inductive Reg where
  | pier | pisr | cier | cisr
  | pccr (p : Pair)
  | pcgr | per | cer
  | pcr (c : Channel) | ppr (c : Channel) | pcntr (c : Channel) | ppcntr (c : Channel)
  | ccr (c : Channel) | crlr (c : Channel) | cflr (c : Channel)
  deriving DecidableEq, Repr

/-- The result codes of R106. -/
inductive Code where
  | ok | invalidChannel | invalidArgument | nullOutput | busy
  deriving DecidableEq, Repr

/-- A result value with its type (R64, R65): `src` and `div` are 32-bit numbers, `u64` a 64-bit unsigned one. -/
inductive Value where
  | word (v : Word)
  | src (v : Word)
  | div (v : Word)
  | presc (v : Byte)
  | bool (v : Bool)
  | cyc16 (v : Half)
  | u64 (v : BitVec 64)
  deriving DecidableEq, Repr

/-- The answer to a command: a code, and the result values when the code is `OK` (R62). -/
structure Response where
  code   : Code
  values : List Value
  deriving DecidableEq, Repr

/-- A loaded word: its defined fields, with 0 in every `RES` position, and what the `RES` positions showed on this load (R43). The two have no bit in common. -/
structure Loaded where
  fields   : Word
  reserved : Word
  deriving DecidableEq, Repr

/-- The locals of a running command (R36), under the names the pseudocode gives them: the loaded word `w`, and the values
the rules decode from loaded words. -/
structure Locals where
  /-- `w` -/
  w       : Loaded := ⟨0, 0⟩
  /-- `s`: `PCCR_SRC` (R78) -/
  source  : Bool := false
  /-- `d`: `PCCR_DIV` (R78) -/
  divider : BitVec 4 := 0
  /-- `p`: `PCR_PRESCAL` (R80) -/
  presc   : Byte := 0
  /-- `E`: `PPR_ENTIRE` (R84) -/
  entire  : Half := 0
  /-- `A`: `PPR_ACT` (R84) -/
  active  : Half := 0
  /-- `e`, `en`: `PER_EN(ch)` (R81, R82, R98) -/
  enabled : Bool := false
  /-- `c`: the word of `PPCNTR(ch)` (R82) -/
  pulse   : Word := 0
  /-- `r`, or `risingPending` (R92, R89) -/
  rise    : Bool := false
  /-- `f`, or `fallingPending` (R93, R89) -/
  fall    : Bool := false
  /-- `on`: the count of `CFLR(ch)` (R91, R99) -/
  on      : Half := 0
  /-- `off`: the count of `CRLR(ch)` (R90, R99) -/
  off     : Half := 0
  deriving DecidableEq, Repr

/-- What a load line reads, and so which local it fills. -/
inductive Read where
  | word (r : Reg)
  | clock (c : Channel)
  | prescaler (c : Channel)
  | period (c : Channel)
  | enabled (c : Channel)
  | pulse (c : Channel)
  | pending (c : Channel)
  | riseFlag (c : Channel)
  | fallFlag (c : Channel)
  | riseCount (c : Channel)
  | fallCount (c : Channel)
  deriving DecidableEq, Repr

/-- The result values a `return (v...)` line sends (R65). -/
inductive Result where
  | word | clock | prescaler | enabled | period | pending | riseFlag | fallFlag | riseCount | fallCount
  | pwmConfig | counts
  | number (v : BitVec 64)
  | nanoseconds (onCycles offCycles : Half)
  | maxDuration
  | frequency
  deriving DecidableEq, Repr

/-- A line of a command's pseudocode (R8). A line makes at most one register access, so a read-modify-write is two lines (R45). -/
inductive Line where
  /-- `MemRead(off, 4)`, and the locals taken from the word -/
  | read (x : Read)
  /-- `MemWrite(off, 4, v)` -/
  | write (r : Reg) (v : Word)
  /-- step 2 of `RMWBitM(off, i, b, m)`: the store of the word that step 1 loaded, changed (R45, R46) -/
  | writeBit (r : Reg) (i : Nat) (b : Bool) (m : Word)
  /-- the store of `setPrescaler` (R79) -/
  | writePrescaler (c : Channel) (p : Byte)
  /-- the store of `setDutyPercent` (R97) -/
  | writeDuty (c : Channel) (percent : Nat)
  /-- `raise <Error>` -/
  | raise (e : Code)
  /-- `if d > 8 then raise InvalidArgument` (R78) -/
  | raiseIfBadDivider
  /-- `if en = 1 then raise Busy` (R98) -/
  | raiseIfEnabled
  /-- the test of the disable loop and its `Sleep(DISABLE_POLL)` (R82) -/
  | waitDisable (c : Channel)
  /-- the test of the capture loop and its `Sleep(CAPTURE_POLL)` (R99) -/
  | waitCapture (c : Channel)
  /-- `return (v...)` -/
  | ret (x : Result)
  deriving DecidableEq, Repr

/-- The sequencer (R36). The position "line" is the list of the lines still to do, the next one first; at the end of the list stands `return ()`. -/
inductive Seq where
  /-- no command running -/
  | idle
  /-- `Run(cmd, line, locals)` -/
  | run (cmd : Instr) (line : List Line) (locals : Locals)
  /-- `Sleeping(cmd, line, locals, t)`, `t` in milliseconds -/
  | sleeping (cmd : Instr) (line : List Line) (locals : Locals) (t : Nat)
  deriving DecidableEq, Repr

/-- What the Core did on the window, for the "Accesses" lines of the rules (log 14). -/
inductive Access where
  | load (r : Reg)
  | store (r : Reg)
  | sleep (t : Nat)
  deriving DecidableEq, Repr

/-- An event of the Peripheral (R56 to R59) with the values it draws. -/
inductive Event where
  /-- counter event (R56): `PCNTR(ch)` and `PPCNTR(ch)` take any values -/
  | counter (c : Channel) (count pulse : Word)
  /-- rising-edge latch (R57) of the count `n` -/
  | riseLatch (c : Channel) (n : Half)
  /-- falling-edge latch (R58) of the count `n` -/
  | fallLatch (c : Channel) (n : Half)
  /-- PWM interrupt status (R59) -/
  | pwmStatus (c : Channel)
  deriving DecidableEq, Repr

/-- The whole machine. -/
@[ext]
structure State where
  /-- the register window (R13), little-endian bytes (R49) -/
  mem      : Memory
  /-- the sequencer (R36) -/
  seq      : Seq
  /-- the Caller's commands not yet accepted, the next one first (R62; log 12) -/
  inbox    : List Record
  /-- the response to the last command; none while one runs (R62) -/
  response : Option Response
  /-- the accesses of the running or the last command, the first one first (log 14) -/
  bus      : List Access
  /-- the Peripheral's events still to come, one list for each interleaving point (R55; log 6) -/
  schedule : List (List Event)
  /-- how many loads there have been: the number of the next load's free `RES` bits (R43; logs 5 and 9) -/
  draws    : Nat
  deriving DecidableEq, Repr

/-- The machine right after reset (R41, R122): `Idle`, no locals, the window at `INIT_WINDOW`, nothing issued, nothing answered. -/
def State.reset : State where
  mem := []
  seq := .idle
  inbox := []
  response := none
  bus := []
  schedule := []
  draws := 0

/-- Why the machine stops. The block itself has no traps (R105) and its hangs are no faults (R121). -/
inductive Fault where
  /-- Raised by `exec` alone, when it is handed a command while the Core is in `Run` or `Sleeping`: such a Core "accepts no other command" (R38). Safe; `step` never
  reaches it, because it takes a command from the inbox in `Idle` only (log 11). -/
  | commandNotAccepted
  deriving DecidableEq, Repr

/-- Why a command gets no meaning: the named refusals of R120, "with no register access and no response". -/
inductive Refusal where
  /-- A command that `exec` gives no meaning yet. Safe. No arm answers it. -/
  | notModelled (mnemonic : String)
  /-- Raised by `step`: `UnknownOpcode(op)` (R67, R120). Safe. -/
  | unknownOpcode (op : Byte)
  /-- Raised by `step`: `BadOperand(op, name)` (R68, R120). Safe. -/
  | badOperand (op : Byte) (name : String)
  /-- Raised by load32, store32 and readModifyWriteBit: `AccessRefused(off)` (R47, R120). Safe. -/
  | accessRefused (off : Word)
  deriving DecidableEq, Repr

end Sys2Proof.Machine
end

