-- ==== Sys2Proof/Machine/Layout.lean ====
section
/-! DEFINITION. Where every register stands (R14, R15) and where every field stands in its register, with its access kind (the record `LAYOUT` of
R16, R17; field by field R18 to R32). The positions are the spec's defaults (log 10). -/

namespace Sys2Proof.Machine

/-! ## Offsets -/

/-- The pair a channel belongs to: `ch >> 1` (R14). -/
def Channel.pair (c : Channel) : Pair := ⟨c.val / 2, by omega⟩

/-- The pair partner: `ch XOR 1` (R11, R14). -/
def Channel.partner (c : Channel) : Channel := if c.val % 2 = 0 then ⟨(c.val + 1) % 8, by omega⟩ else ⟨c.val - 1, by omega⟩

/-- `CH(ch) = 0x100 + 0x20 * ch` (R15). -/
def Channel.base (c : Channel) : Nat := 0x100 + 0x20 * c.val

/-- The byte offset of a register (R14, R15). -/
def Reg.offset : Reg → Nat
  | .pier => 0x00
  | .pisr => 0x04
  | .cier => 0x10
  | .cisr => 0x14
  | .pccr p => 0x20 + 4 * p.val
  | .pcgr => 0x40
  | .per => 0x80
  | .cer => 0xC0
  | .pcr c => c.base + 0x00
  | .ppr c => c.base + 0x04
  | .pcntr c => c.base + 0x08
  | .ppcntr c => c.base + 0x0C
  | .ccr c => c.base + 0x10
  | .crlr c => c.base + 0x14
  | .cflr c => c.base + 0x18

/-- The eight channels. -/
def Channel.all : List Channel := [0, 1, 2, 3, 4, 5, 6, 7]

/-- The registers of one channel's block (R15). -/
def Channel.block (c : Channel) : List Reg := [.pcr c, .ppr c, .pcntr c, .ppcntr c, .ccr c, .crlr c, .cflr c]

/-- Every register of the window: "Only the offsets of rules R14 and R15 hold registers" (R13). -/
def Reg.all : List Reg :=
  [.pier, .pisr, .cier, .cisr, .pccr 0, .pccr 1, .pccr 2, .pccr 3, .pcgr, .per, .cer] ++ Channel.all.flatMap Channel.block

/-- The register at a raw offset; `none` where the offset is not admitted (R47, R61): misaligned, or no register there. -/
def Reg.ofOffset (off : Word) : Option Reg := Reg.all.find? fun r => r.offset == off.toNat

/-! ## Bit positions (R16) -/

/-- `PIER_EN(ch)` (R18) -/
def pierEn (c : Channel) : Nat := c.val
/-- `PISR_ST(ch)` (R19) -/
def pisrSt (c : Channel) : Nat := c.val
/-- `CIER_RISE(ch)` (R20) -/
def cierRise (c : Channel) : Nat := 2 * c.val
/-- `CIER_FALL(ch)` (R20) -/
def cierFall (c : Channel) : Nat := 2 * c.val + 1
/-- `CISR_RISE(ch)` (R21) -/
def cisrRise (c : Channel) : Nat := 2 * c.val
/-- `CISR_FALL(ch)` (R21) -/
def cisrFall (c : Channel) : Nat := 2 * c.val + 1
/-- `PCCR_SRC` (R22) -/
def pccrSrc : Nat := 7
/-- `PCCR_DIV` (R22): the lowest of its four bits -/
def pccrDiv : Nat := 0
/-- `PCGR_GATE(ch)` (R23) -/
def pcgrGate (c : Channel) : Nat := c.val
/-- `PCGR_BYP(ch)` (R23) -/
def pcgrByp (c : Channel) : Nat := 16 + c.val
/-- `PER_EN(ch)` (R24) -/
def perEn (c : Channel) : Nat := c.val
/-- `CER_EN(ch)` (R25) -/
def cerEn (c : Channel) : Nat := c.val
/-- `PCR_PRESCAL` (R26): the lowest of its eight bits -/
def pcrPrescal : Nat := 0
/-- `PCR_ACT_STA` (R26) -/
def pcrActSta : Nat := 8
/-- `PPR_ACT` (R27): the lowest of its sixteen bits -/
def pprAct : Nat := 0
/-- `PPR_ENTIRE` (R27): the lowest of its sixteen bits -/
def pprEntire : Nat := 16
/-- `CCR_FLF` (R30) -/
def ccrFlf : Nat := 1
/-- `CCR_RLF` (R30) -/
def ccrRlf : Nat := 2
/-- `CCR_FALL_ARM` (R30) -/
def ccrFallArm : Nat := 3
/-- `CCR_RISE_ARM` (R30) -/
def ccrRiseArm : Nat := 4
/-- `CRLR_CNT` and `CFLR_CNT` (R31, R32): the lowest of their sixteen bits -/
def lockCnt : Nat := 0

/-! ## Fields and access kinds (R17) -/

/-- The access kinds of the defined fields (R17); a bit of no field is `RES`. -/
inductive Kind where
  | rw | ro | w1c
  deriving DecidableEq, Repr

/-- A field, or a run of neighbouring one-bit fields of one kind. -/
structure Field where
  name  : String
  lo    : Nat
  width : Nat
  kind  : Kind
  deriving DecidableEq, Repr

/-- The bits of a field, as a mask. -/
def Field.mask (f : Field) : Word := (BitVec.ofNat 32 (2 ^ f.width - 1)) <<< f.lo

/-- Every register, field by field (R18 to R32). -/
def Reg.fields : Reg → List Field
  | .pier => [⟨"PIER_EN(0..7)", 0, 8, .rw⟩]
  | .pisr => [⟨"PISR_ST(0..7)", 0, 8, .w1c⟩]
  | .cier => [⟨"CIER_RISE(0..7) and CIER_FALL(0..7)", 0, 16, .rw⟩]
  | .cisr => [⟨"CISR_RISE(0..7) and CISR_FALL(0..7)", 0, 16, .w1c⟩]
  | .pccr _ => [⟨"PCCR_SRC", 7, 1, .rw⟩, ⟨"PCCR_DIV", 0, 4, .rw⟩]
  | .pcgr => [⟨"PCGR_GATE(0..7)", 0, 8, .rw⟩, ⟨"PCGR_BYP(0..7)", 16, 8, .rw⟩]
  | .per => [⟨"PER_EN(0..7)", 0, 8, .rw⟩]
  | .cer => [⟨"CER_EN(0..7)", 0, 8, .rw⟩]
  | .pcr _ => [⟨"PCR_PRESCAL", 0, 8, .rw⟩, ⟨"PCR_ACT_STA", 8, 1, .rw⟩]
  | .ppr _ => [⟨"PPR_ACT", 0, 16, .rw⟩, ⟨"PPR_ENTIRE", 16, 16, .rw⟩]
  | .pcntr _ => [⟨"PCNTR", 0, 32, .ro⟩]
  | .ppcntr _ => [⟨"PPCNTR_CNT", 0, 32, .ro⟩]
  | .ccr _ =>
    [⟨"CCR_FLF", 1, 1, .w1c⟩, ⟨"CCR_RLF", 2, 1, .w1c⟩, ⟨"CCR_FALL_ARM", 3, 1, .rw⟩, ⟨"CCR_RISE_ARM", 4, 1, .rw⟩]
  | .crlr _ => [⟨"CRLR_CNT", 0, 16, .ro⟩]
  | .cflr _ => [⟨"CFLR_CNT", 0, 16, .ro⟩]

/-- The bits of a register that have a given access kind. -/
def Reg.mask (k : Kind) (r : Reg) : Word := (r.fields.filter (·.kind = k)).foldl (fun m f => m ||| f.mask) 0

/-- The bits of a register that belong to a field. -/
def Reg.defined (r : Reg) : Word := r.mask .rw ||| r.mask .ro ||| r.mask .w1c

/-- The `RES` bits: "every bit not named in rule R16 is `RES`" (R17). -/
def Reg.res (r : Reg) : Word := ~~~r.defined

end Sys2Proof.Machine
end

