-- ==== Sys2Proof/Machine/Operands.lean ====
section
/-! DEFINITION. The operand forms: the channel check, the domains of source, divider and percent, and words built from operands. -/

namespace Sys2Proof.Machine

/-- `CHK_CH` (R8, R107): the operand as int32 is a channel iff it lies in 0..7. -/
def channel? (ch : Word) : Option Channel :=
  if h : 0 ≤ ch.toInt ∧ ch.toInt ≤ 7 then some ⟨ch.toInt.toNat, by omega⟩ else none

/-- A clock source is 0 (Crystal) or 1 (Bus) (R64, R77). -/
def sourceValid (source : Word) : Bool := source.toNat ≤ 1

/-- A divider index is 0..8 (R64, R77). -/
def dividerValid (divider : Word) : Bool := divider.toNat ≤ 8

/-- A duty percent, as int32, lies in 0..100 (R97, D47). -/
def percentValid (percent : Word) : Bool := 0 ≤ percent.toInt && percent.toInt ≤ 100

/-- `bit(i)`: "the 32-bit word with only bit i set" (R7). -/
def bit (i : Nat) : Word := 1#32 <<< i

/-- The word an `RMWBitM` stores: `((w & ~m) & ~bit(i)) | (zext_32(b) << i)` (R46); with `m = 0` the word of an `RMWBit` (R45). -/
def setBit (w : Word) (i : Nat) (b : Bool) (m : Word) : Word :=
  ((w &&& ~~~m) &&& ~~~bit i) ||| (if b then bit i else 0)

/-- `CCR_W1C`, the mask of the two lock flags (R16). -/
def ccrW1c : Word := bit ccrFlf ||| bit ccrRlf

/-- The packed word of configureClock: `(source << PCCR_SRC) | divider` (R77). -/
def clockWord (source divider : Word) : Word := (source <<< pccrSrc) ||| (divider <<< pccrDiv)

/-- The period word `{entire, active}` (R83). -/
def periodWord (entire active : Half) : Word := entire ++ active

/-- The control word with a new prescaler byte: `(w & ~0x0000_00FF) | zext_32(p)` (R79). -/
def prescalerWord (w : Word) (p : Byte) : Word := (w &&& ~~~0x000000FF#32) ||| p.setWidth 32

end Sys2Proof.Machine
end

