-- ==== Sys2Proof/Machine/Conversion.lean ====
section
/-! DEFINITION. The arithmetic of the composition unit (R97, R100 to R104): exact natural numbers, one floor at the end of each quantity (C1, D27). -/

namespace Sys2Proof.Machine

/-- `F(s)` in hertz: Crystal 24,000,000, Bus 100,000,000 (R100). -/
def sourceHz (source : Nat) : Nat := if source = 0 then 24000000 else 100000000

/-- `PeriodNs(s, d, p) = floor(10^9 * (1 + p) * 2^d / F(s))` (R100). -/
def periodNs (source divider prescaler : Nat) : Nat :=
  1000000000 * (1 + prescaler) * 2 ^ divider / sourceHz source

/-- `floor(E * percent / 100)` (R97). -/
def dutyActive (entire : Half) (percent : Nat) : Half := BitVec.ofNat 16 (entire.toNat * percent / 100)

/-- `zext_64(count) * P` (R101). -/
def countNs (count : Half) (period : Nat) : BitVec 64 := BitVec.ofNat 64 (count.toNat * period)

/-- `floor(10^9 / (P * (E + 1)))` (R103). -/
def frequencyHz (period : Nat) (entire : Half) : BitVec 64 := BitVec.ofNat 64 (1000000000 / (period * (entire.toNat + 1)))

end Sys2Proof.Machine
end

