-- ==== Sys2Proof/Machine/Memory.lean ====
section
/-! DEFINITION. The bytes behind the register window, in one canonical form, and whole words over them (R48 to R50). -/

namespace Sys2Proof.Machine

/-- The byte at an address; an unlisted address reads as `INIT_WINDOW` says (R41; log 3). -/
def Memory.readByte (m : Memory) (a : Nat) : Byte :=
  match m with
  | [] => Config.initByte a
  | (k, b) :: rest => if k = a then b else Memory.readByte rest a

/-- The memory without its entry for an address. -/
def Memory.erase (m : Memory) (a : Nat) : Memory := m.filter fun cell => cell.1 != a

/-- The entry put in front of the first one with a higher address. -/
def Memory.insert (m : Memory) (a : Nat) (b : Byte) : Memory :=
  match m with
  | [] => [(a, b)]
  | (k, c) :: rest => if a < k then (a, b) :: (k, c) :: rest else (k, c) :: Memory.insert rest a b

/-- One byte written; a byte equal to what an unlisted address reads as is not listed. -/
def Memory.writeByte (m : Memory) (a : Nat) (b : Byte) : Memory :=
  if b = Config.initByte a then m.erase a else (m.erase a).insert a b

/-- The canonical form: addresses strictly rising, no entry that an unlisted address would show as well. -/
def Memory.wf (m : Memory) : Bool :=
  match m with
  | [] => true
  | (k, b) :: rest => (b != Config.initByte k) && rest.all (fun cell => k < cell.1) && Memory.wf rest

/-- The word at an offset: "byte at offset `off` = bits 7:0" (R49). -/
def Memory.readWord (m : Memory) (a : Nat) : Word :=
  m.readByte (a + 3) ++ (m.readByte (a + 2) ++ (m.readByte (a + 1) ++ m.readByte a))

/-- A whole word written: "Access width: every access is 32 bits" (R48). -/
def Memory.writeWord (m : Memory) (a : Nat) (w : Word) : Memory :=
  (((m.writeByte a (w.extractLsb' 0 8)).writeByte (a + 1) (w.extractLsb' 8 8)).writeByte (a + 2)
    (w.extractLsb' 16 8)).writeByte (a + 3) (w.extractLsb' 24 8)

end Sys2Proof.Machine
end

