-- ==== Sys2Proof/Machine/Update.lean ====
section
/-! DEFINITION. The named updates of the state, and the storage of one register. -/

namespace Sys2Proof.Machine

/-- The register window replaced. -/
def State.putMem (s : State) (m : Memory) : State := { s with mem := m }

/-- The sequencer moved (R36). -/
def State.putSeq (s : State) (q : Seq) : State := { s with seq := q }

/-- The Caller's commands not yet accepted replaced (R62). -/
def State.putInbox (s : State) (i : List Record) : State := { s with inbox := i }

/-- The response replaced (R62). -/
def State.putResponse (s : State) (r : Option Response) : State := { s with response := r }

/-- The accesses forgotten: a new command begins. -/
def State.clearBus (s : State) : State := { s with bus := [] }

/-- One more access of the Core. -/
def State.note (s : State) (a : Access) : State := { s with bus := s.bus ++ [a] }

/-- The Peripheral's events still to come replaced (R55). -/
def State.putSchedule (s : State) (l : List (List Event)) : State := { s with schedule := l }

/-- One more load has drawn its `RES` bits (R43). -/
def State.countLoad (s : State) : State := { s with draws := s.draws + 1 }

/-- The word that a register's place in the window holds. Its `RES` positions mean nothing (R33). -/
def State.stored (s : State) (r : Reg) : Word := s.mem.readWord r.offset

/-- A register's place in the window overwritten whole. This is the storage itself; the Core writes through `State.store`. -/
def State.setStored (s : State) (r : Reg) (w : Word) : State := s.putMem (s.mem.writeWord r.offset w)

/-- Bit `i` of a register is 1. -/
def State.flag (s : State) (r : Reg) (i : Nat) : Bool := (s.stored r).getLsbD i

end Sys2Proof.Machine
end

