-- ==== Sys2Proof/Machine/Peripheral.lean ====
section
/-! DEFINITION. The Peripheral agent (R55 to R59): its events on the window, and its turn at an interleaving point. -/

namespace Sys2Proof.Machine

/-- A bit set by the Peripheral. -/
def State.raiseFlag (s : State) (r : Reg) (i : Nat) : State := s.setStored r (s.stored r ||| bit i)

/-- A rising latch needs `CER_EN(ch) = 1` and the rising arm bit (R57). -/
def State.riseArmed (s : State) (c : Channel) : Bool := s.flag .cer (cerEn c) && s.flag (.ccr c) ccrRiseArm

/-- A falling latch needs `CER_EN(ch) = 1` and the falling arm bit (R58). -/
def State.fallArmed (s : State) (c : Channel) : Bool := s.flag .cer (cerEn c) && s.flag (.ccr c) ccrFallArm

/-- One event of the Peripheral, an atomic step (R56 to R59). A latch that is not enabled does not happen. -/
def Event.apply (e : Event) (s : State) : State :=
  match e with
  | .counter c count pulse => (s.setStored (.pcntr c) count).setStored (.ppcntr c) pulse
  | .riseLatch c n =>
    if s.riseArmed c then
      ((s.setStored (.crlr c) (n.setWidth 32)).raiseFlag (.ccr c) ccrRlf).raiseFlag .cisr (cisrRise c)
    else s
  | .fallLatch c n =>
    if s.fallArmed c then
      ((s.setStored (.cflr c) (n.setWidth 32)).raiseFlag (.ccr c) ccrFlf).raiseFlag .cisr (cisrFall c)
    else s
  | .pwmStatus c => s.raiseFlag .pisr (pisrSt c)

/-- The Peripheral's turn at one interleaving point: the next entry of its schedule, "any number of times including none" (R55; log 6). -/
def State.turn (s : State) : State :=
  match s.schedule with
  | [] => s
  | events :: rest => events.foldl (fun s e => e.apply s) (s.putSchedule rest)

end Sys2Proof.Machine
end

