-- ==== Sys2Proof/Machine/Flags.lean ====
section
/-! DEFINITION. What a store makes of a word by the access kinds (R17, R44), and the status that is a function of register fields (R37, R42, R94). -/

namespace Sys2Proof.Machine

/-- The word a register holds after `MemWrite(off, 4, v)`: an `RW` field takes its bits of `v`, an `RO` field is unchanged, a `W1C` field is cleared where
`v` has a 1, a `RES` bit has no storage (R44). -/
def Reg.afterWrite (r : Reg) (old v : Word) : Word :=
  (v &&& r.mask .rw) ||| (old &&& r.mask .ro) ||| (old &&& r.mask .w1c &&& ~~~v)

/-! ## Fields by name -/

/-- `PCCR_SRC` of a pair: Bus or not (R22). -/
def State.source (s : State) (p : Pair) : Bool := s.flag (.pccr p) pccrSrc

/-- `PCCR_DIV` of a pair (R22). -/
def State.divider (s : State) (p : Pair) : BitVec 4 := (s.stored (.pccr p)).extractLsb' pccrDiv 4

/-- `PCR_PRESCAL` of a channel (R26). -/
def State.prescaler (s : State) (c : Channel) : Byte := (s.stored (.pcr c)).extractLsb' pcrPrescal 8

/-- `PPR_ENTIRE` of a channel (R27). -/
def State.entire (s : State) (c : Channel) : Half := (s.stored (.ppr c)).extractLsb' pprEntire 16

/-- `PPR_ACT` of a channel (R27). -/
def State.active (s : State) (c : Channel) : Half := (s.stored (.ppr c)).extractLsb' pprAct 16

/-- `CRLR_CNT` of a channel (R31). -/
def State.riseCount (s : State) (c : Channel) : Half := (s.stored (.crlr c)).extractLsb' lockCnt 16

/-- `CFLR_CNT` of a channel (R32). -/
def State.fallCount (s : State) (c : Channel) : Half := (s.stored (.cflr c)).extractLsb' lockCnt 16

/-! ## Derived status -/

/-- A channel is in PWM mode when `PER_EN(ch) = 1` (R42). -/
def State.pwmMode (s : State) (c : Channel) : Bool := s.flag .per (perEn c)

/-- A channel has capture enabled when `CER_EN(ch) = 1` (R42). -/
def State.captureMode (s : State) (c : Channel) : Bool := s.flag .cer (cerEn c)

/-- The states of the capture protocol (R94). -/
inductive CaptureState where
  | idle | armed | risingLatched | fallingLatched | bothLatched
  deriving DecidableEq, Repr

/-- The condition of each capture state, as R94's table gives it. The conditions of `idle` and of a latched state can hold together. -/
def CaptureState.holds (p : CaptureState) (s : State) (c : Channel) : Bool :=
  let riseArm := s.flag (.ccr c) ccrRiseArm
  let fallArm := s.flag (.ccr c) ccrFallArm
  let rlf := s.flag (.ccr c) ccrRlf
  let flf := s.flag (.ccr c) ccrFlf
  match p with
  | .idle => !s.captureMode c || (!riseArm && !fallArm)
  | .armed => s.captureMode c && (riseArm || fallArm) && !rlf && !flf
  | .risingLatched => rlf && !flf
  | .fallingLatched => !rlf && flf
  | .bothLatched => rlf && flf

end Sys2Proof.Machine
end

