-- ==== Sys2Proof/Machine/Ops.lean ====
section
/-! DEFINITION. The Core's operations: `MemRead`, `MemWrite` (R43, R44), the two read-modify-writes as a whole (R45, R46), the acceptance and the end of a
command (R62, R105). The Peripheral has its turn before each access (R55). -/

namespace Sys2Proof.Machine

/-- What `MemRead` returns for a register, "assembled field by field" (R43): the fields, and a free draw in the `RES` positions. -/
def State.view (s : State) (r : Reg) : Loaded where
  fields := s.stored r &&& r.defined
  reserved := Config.reservedBits s.draws &&& r.res

/-- The word as the Caller sees it. -/
def Loaded.value (w : Loaded) : Word := w.fields ||| w.reserved

/-- `MemRead(off, 4)` (R43), after the Peripheral's turn: one atomic step with no side effect on any field. -/
def State.load (s : State) (r : Reg) : Loaded × State :=
  (s.turn.view r, s.turn.countLoad.note (.load r))

/-- `MemWrite(off, 4, v)` (R44), after the Peripheral's turn: one atomic step. -/
def State.store (s : State) (r : Reg) (v : Word) : State :=
  (s.turn.setStored r (r.afterWrite (s.turn.stored r) v)).note (.store r)

/-- `RMWBitM(off, i, b, m)` (R46) as the two steps it is; with `m = 0` it is `RMWBit` (R45). The `RES` bits are written back as read, which has no effect
(R33), so the word stored is built from the fields. -/
def State.rmwBit (s : State) (r : Reg) (i : Nat) (b : Bool) (m : Word) : State :=
  (s.load r).2.store r (setBit (s.load r).1.fields i b m)

/-- A command accepted: its response is not there yet, and it has made no access. -/
def State.begin (s : State) : State := (s.putResponse none).clearBus

/-- The end of a command, with `OK` or with an error (R36, R62, R105): the response is sent, the sequencer returns to `Idle`, the locals are discarded. Earlier writes stay (R110). -/
def State.finish (s : State) (code : Code) (values : List Value) : State :=
  (s.putSeq .idle).putResponse (some ⟨code, values⟩)

/-- A reset of the Core alone (R122): `Idle`, no locals, nothing answered; the window, the Caller's commands and the Peripheral go on. -/
def State.resetCore (s : State) : State := (s.putSeq .idle).begin

/-- The numbers of the result codes (R106). -/
def Code.number : Code → Byte
  | .ok => 0x00
  | .invalidChannel => 0x01
  | .invalidArgument => 0x02
  | .nullOutput => 0x03
  | .busy => 0x04

end Sys2Proof.Machine
end

