-- ==== Sys2Proof/Machine/Sequencer.lean ====
section
/-! DEFINITION. The sequencer (R36): what each pseudocode line does, one Core step, and a command run until it ends or sleeps. -/

namespace Sys2Proof.Machine

/-! ## Loads -/

/-- The register a load line reads. -/
def Read.reg : Read → Reg
  | .word r => r
  | .clock c => .pccr c.pair
  | .prescaler c => .pcr c
  | .period c => .ppr c
  | .enabled _ => .per
  | .pulse c => .ppcntr c
  | .pending _ => .cisr
  | .riseFlag c => .ccr c
  | .fallFlag c => .ccr c
  | .riseCount c => .crlr c
  | .fallCount c => .cflr c

/-- The locals a load line fills from the word it loaded. Fields alone have a meaning: "the Core never gives meaning to" a `RES` bit (R33). -/
def Read.into (x : Read) (w : Loaded) (loc : Locals) : Locals :=
  match x with
  | .word _ => { loc with w := w }
  | .clock _ => { loc with source := w.fields.getLsbD pccrSrc, divider := w.fields.extractLsb' pccrDiv 4 }
  | .prescaler _ => { loc with presc := w.fields.extractLsb' pcrPrescal 8 }
  | .period _ => { loc with entire := w.fields.extractLsb' pprEntire 16, active := w.fields.extractLsb' pprAct 16 }
  | .enabled c => { loc with enabled := w.fields.getLsbD (perEn c) }
  | .pulse _ => { loc with pulse := w.fields }
  | .pending c => { loc with rise := w.fields.getLsbD (cisrRise c), fall := w.fields.getLsbD (cisrFall c) }
  | .riseFlag _ => { loc with rise := w.fields.getLsbD ccrRlf }
  | .fallFlag _ => { loc with fall := w.fields.getLsbD ccrFlf }
  | .riseCount _ => { loc with off := w.fields.extractLsb' lockCnt 16 }
  | .fallCount _ => { loc with on := w.fields.extractLsb' lockCnt 16 }

/-! ## Results -/

/-- `PeriodNs` of the live configuration that the command has read (R101). -/
def Locals.periodNs (loc : Locals) : Nat := Machine.periodNs loc.source.toNat loc.divider.toNat loc.presc.toNat

/-- The values of a `return (v...)` line (R65). -/
def Result.values (x : Result) (loc : Locals) : List Value :=
  match x with
  | .word => [.word loc.w.value]
  | .clock => [.src (bitSlot loc.source), .div (loc.divider.setWidth 32)]
  | .prescaler => [.presc loc.presc]
  | .enabled => [.bool loc.enabled]
  | .period => [.cyc16 loc.entire, .cyc16 loc.active]
  | .pending => [.bool loc.rise, .bool loc.fall]
  | .riseFlag => [.bool loc.rise]
  | .fallFlag => [.bool loc.fall]
  | .riseCount => [.cyc16 loc.off]
  | .fallCount => [.cyc16 loc.on]
  | .pwmConfig =>
    [.src (bitSlot loc.source), .div (loc.divider.setWidth 32), .presc loc.presc, .cyc16 loc.entire, .cyc16 loc.active,
      .bool loc.enabled]
  | .counts => [.cyc16 loc.on, .cyc16 loc.off]
  | .number v => [.u64 v]
  | .nanoseconds onCycles offCycles => [.u64 (countNs onCycles loc.periodNs), .u64 (countNs offCycles loc.periodNs)]
  | .maxDuration => [.u64 (countNs 65535#16 loc.periodNs)]
  | .frequency => [.u64 (frequencyHz loc.periodNs loc.entire)]

/-! ## Lines -/

/-- The body of the disable loop (R82): the pulse counter first, then the enable bit, then the test. -/
def disableLoop (c : Channel) : List Line := [.read (.pulse c), .read (.enabled c), .waitDisable c]

/-- The body of the capture loop (R99): the fall flag, then the rise flag, then the test. -/
def captureLoop (c : Channel) : List Line := [.read (.fallFlag c), .read (.riseFlag c), .waitCapture c]

/-- What a line does to the command: it goes on, it ends with a response, or it sleeps and then repeats the lines of its loop. -/
inductive After where
  | go (loc : Locals) (s : State)
  | done (code : Code) (values : List Value) (s : State)
  | sleep (loop : List Line) (t : Nat)
  deriving DecidableEq, Repr

/-- One line of pseudocode (R8). -/
def Line.perform (l : Line) (loc : Locals) (s : State) : After :=
  match l with
  | .read x => .go (x.into (s.load x.reg).1 loc) (s.load x.reg).2
  | .write r v => .go loc (s.store r v)
  | .writeBit r i b m => .go loc (s.store r (setBit loc.w.fields i b m))
  | .writePrescaler c p => .go loc (s.store (.pcr c) (prescalerWord loc.w.fields p))
  | .writeDuty c percent => .go loc (s.store (.ppr c) (periodWord loc.entire (dutyActive loc.entire percent)))
  | .raise e => .done e [] s
  | .raiseIfBadDivider => if loc.divider.toNat > 8 then .done .invalidArgument [] s else .go loc s
  | .raiseIfEnabled => if loc.enabled then .done .busy [] s else .go loc s
  | .waitDisable c => if loc.enabled && loc.pulse != 0 then .sleep (disableLoop c) Config.disablePoll else .go loc s
  | .waitCapture c => if loc.fall && loc.rise then .go loc s else .sleep (captureLoop c) Config.capturePoll
  | .ret x => .done .ok (x.values loc) s

/-! ## Running -/

/-- The sequencer put to sleep: a `Sleep(t)` is in progress, and `line` comes after it (R36, R54). -/
def State.sleep (s : State) (cmd : Instr) (line : List Line) (loc : Locals) (t : Nat) : State :=
  (s.putSeq (.sleeping cmd line loc t)).note (.sleep t)

/-- One Core step (R35, R52, R54): in `Run` the next line; in `Sleeping` the end of the sleep, during which the Peripheral has its turn. In `Idle` the Core has nothing to do.
At the end of the lines stands `return ()`. -/
def coreStep (s : State) : State :=
  match s.seq with
  | .idle => s
  | .sleeping cmd line loc _ => s.turn.putSeq (.run cmd line loc)
  | .run _ [] _ => s.finish .ok []
  | .run cmd (l :: rest) loc =>
    match l.perform loc s with
    | .go loc' s' => s'.putSeq (.run cmd rest loc')
    | .done code values s' => s'.finish code values
    | .sleep loop t => s.sleep cmd (loop ++ rest) loc t

/-- The lines of a command run one after another until it ends or has to sleep (log 7): the Core steps from here to the next `Idle` or `Sleeping`, in one. -/
def runLines (cmd : Instr) (lines : List Line) (loc : Locals) (s : State) : State :=
  match lines with
  | [] => s.finish .ok []
  | l :: rest =>
    match l.perform loc s with
    | .go loc' s' => runLines cmd rest loc' s'
    | .done code values s' => s'.finish code values
    | .sleep loop t => s.sleep cmd (loop ++ rest) loc t

/-- A command handed to the Core (R36, R38): `Idle` accepts it and runs it; in `Run` and `Sleeping` it is not accepted. -/
def accept (cmd : Instr) (lines : List Line) (s : State) : Host.Outcome State Fault Refusal :=
  match s.seq with
  | .idle => .next (runLines cmd lines {} s.begin)
  | _ => .fault .commandNotAccepted

/-- A raw command: its offset is admitted first (R47, R72 to R74). -/
def acceptAt (cmd : Instr) (off : Word) (lines : Reg → List Line) (s : State) : Host.Outcome State Fault Refusal :=
  match s.seq, Reg.ofOffset off with
  | .idle, none => .refused (.accessRefused off)
  | .idle, some r => accept cmd (lines r) s
  | _, _ => .fault .commandNotAccepted

/-- `CHK_CH` as the first line: a channel outside 0..7 raises InvalidChannel before any access (R107). -/
def withChannel (ch : Word) (lines : Channel → List Line) : List Line :=
  match channel? ch with
  | some c => lines c
  | none => [.raise .invalidChannel]

/-- `if op.dst = 0 then raise NullOutput` (R71). -/
def withDst (dst : Bool) (lines : List Line) : List Line := if dst then lines else [.raise .nullOutput]

/-- `RMWBitM(off, i, b, m)` as lines (R46); `RMWBit` with `m = 0` (R45). -/
def rmwLines (r : Reg) (i : Nat) (b : Bool) (m : Word) : List Line := [.read (.word r), .writeBit r i b m]

/-! ## What `step` does when no command is to be decoded -/

/-- The refusal of an ill-formed record (R120). -/
def refusalOf : DecodeError → Refusal
  | .unknownOpcode op => .unknownOpcode op
  | .badOperand op name => .badOperand op name

/-- The next thing the Core does: go on with a command, take the next record of the inbox, or nothing. -/
inductive Next where
  | resume (s : State)
  | command (r : Record) (s : State)
  deriving DecidableEq, Repr

/-- A sleeping command wakes after the Peripheral's turn; a running one goes on; an idle Core takes the Caller's next record, or waits (R36, R55, R122). -/
def State.upNext (s : State) : Next :=
  match s.seq with
  | .run cmd line loc => .resume (runLines cmd line loc s)
  | .sleeping cmd line loc _ => .resume (runLines cmd line loc s.turn)
  | .idle =>
    match s.inbox with
    | [] => .resume s.turn
    | r :: more => .command r (s.turn.putInbox more)

end Sys2Proof.Machine
end

