-- ==== Sys2Proof/Machine/Capture.lean ====
section
/-! DEFINITION. Capture unit: arming, interrupt enables, clearing, status, lock counts and flags (R86 to R93). -/

namespace Sys2Proof.Machine

/-- R86: the enable bit (OR of the edges), then the rising arm bit, then the falling one; the `CCR` updates leave the lock flags alone (R46). -/
def linesSetCaptureEnable (c : Channel) (rising falling : Bool) : List Line :=
  rmwLines .cer (cerEn c) (rising || falling) 0 ++ rmwLines (.ccr c) ccrRiseArm rising ccrW1c
    ++ rmwLines (.ccr c) ccrFallArm falling ccrW1c

/-- setCaptureEnable (R86). -/
def execSetCaptureEnable (ch : Word) (rising falling : Bool) (s : State) : Host.Outcome State Fault Refusal :=
  accept (.setCaptureEnable ch rising falling) (withChannel ch fun c => linesSetCaptureEnable c rising falling) s

/-- R87: the two enable bits of `CIER`. -/
def linesSetCaptureInterruptEnable (c : Channel) (rising falling : Bool) : List Line :=
  rmwLines .cier (cierRise c) rising 0 ++ rmwLines .cier (cierFall c) falling 0

/-- setCaptureInterruptEnable (R87). -/
def execSetCaptureInterruptEnable (ch : Word) (rising falling : Bool) (s : State) : Host.Outcome State Fault Refusal :=
  accept (.setCaptureInterruptEnable ch rising falling)
    (withChannel ch fun c => linesSetCaptureInterruptEnable c rising falling) s

/-- The clear of one edge: the single pending bit stored to `CISR`, then the single lock flag written to `CCR(ch)` (R88, D22). -/
def linesClearEdge (c : Channel) (pending flag : Nat) : List Line :=
  .write .cisr (bit pending) :: rmwLines (.ccr c) flag true ccrW1c

/-- R88: each edge only if requested, rising first. -/
def linesClearCaptureInterrupt (c : Channel) (rising falling : Bool) : List Line :=
  (if rising then linesClearEdge c (cisrRise c) ccrRlf else [])
    ++ (if falling then linesClearEdge c (cisrFall c) ccrFlf else [])

/-- clearCaptureInterrupt (R88). -/
def execClearCaptureInterrupt (ch : Word) (rising falling : Bool) (s : State) : Host.Outcome State Fault Refusal :=
  accept (.clearCaptureInterrupt ch rising falling)
    (withChannel ch fun c => linesClearCaptureInterrupt c rising falling) s

/-- readCaptureInterruptStatus (R89): one load of `CISR`, which clears nothing. -/
def execReadCaptureInterruptStatus (ch : Word) (dst : Bool) (s : State) : Host.Outcome State Fault Refusal :=
  accept (.readCaptureInterruptStatus ch dst) (withChannel ch fun c => withDst dst [.read (.pending c), .ret .pending]) s

/-- readRiseLockCount (R90): one load of `CRLR(ch)`. -/
def execReadRiseLockCount (ch : Word) (dst : Bool) (s : State) : Host.Outcome State Fault Refusal :=
  accept (.readRiseLockCount ch dst) (withChannel ch fun c => withDst dst [.read (.riseCount c), .ret .riseCount]) s

/-- readFallLockCount (R91): one load of `CFLR(ch)`. -/
def execReadFallLockCount (ch : Word) (dst : Bool) (s : State) : Host.Outcome State Fault Refusal :=
  accept (.readFallLockCount ch dst) (withChannel ch fun c => withDst dst [.read (.fallCount c), .ret .fallCount]) s

/-- readRiseLockFlag (R92): one load of `CCR(ch)`. -/
def execReadRiseLockFlag (ch : Word) (dst : Bool) (s : State) : Host.Outcome State Fault Refusal :=
  accept (.readRiseLockFlag ch dst) (withChannel ch fun c => withDst dst [.read (.riseFlag c), .ret .riseFlag]) s

/-- readFallLockFlag (R93): one load of `CCR(ch)`. -/
def execReadFallLockFlag (ch : Word) (dst : Bool) (s : State) : Host.Outcome State Fault Refusal :=
  accept (.readFallLockFlag ch dst) (withChannel ch fun c => withDst dst [.read (.fallFlag c), .ret .fallFlag]) s

end Sys2Proof.Machine
end

