-- ==== Sys2Proof/Machine/ClockTree.lean ====
section
/-! DEFINITION. Clock tree unit: gate, bypass, source and divider, prescaler (R75 to R80). A command without result values ends at the end of its lines, which is `return ()`; so a
composite can run its lines inline (`call`, R8). -/

namespace Sys2Proof.Machine

/-- R75: `RMWBit(PCGR, PCGR_GATE(ch), pass)`. -/
def linesSetClockGate (c : Channel) (pass : Bool) : List Line := rmwLines .pcgr (pcgrGate c) pass 0

/-- setClockGate (R75). -/
def execSetClockGate (ch : Word) (pass : Bool) (s : State) : Host.Outcome State Fault Refusal :=
  accept (.setClockGate ch pass) (withChannel ch fun c => linesSetClockGate c pass) s

/-- R76: `RMWBit(PCGR, PCGR_BYP(ch), bypass)`. -/
def linesSetClockBypass (c : Channel) (bypass : Bool) : List Line := rmwLines .pcgr (pcgrByp c) bypass 0

/-- setClockBypass (R76). -/
def execSetClockBypass (ch : Word) (bypass : Bool) (s : State) : Host.Outcome State Fault Refusal :=
  accept (.setClockBypass ch bypass) (withChannel ch fun c => linesSetClockBypass c bypass) s

/-- R77: the operand checks, then one store of the whole pair word (D19). -/
def linesConfigureClock (c : Channel) (source divider : Word) : List Line :=
  if !sourceValid source then [.raise .invalidArgument]
  else if !dividerValid divider then [.raise .invalidArgument]
  else [.write (.pccr c.pair) (clockWord source divider)]

/-- configureClock (R77). -/
def execConfigureClock (ch source divider : Word) (s : State) : Host.Outcome State Fault Refusal :=
  accept (.configureClock ch source divider) (withChannel ch fun c => linesConfigureClock c source divider) s

/-- R78: the load of the pair word and the check of the decoded divider. -/
def linesReadClockConfig (c : Channel) : List Line := [.read (.clock c), .raiseIfBadDivider]

/-- readClockConfig (R78). -/
def execReadClockConfig (ch : Word) (dst : Bool) (s : State) : Host.Outcome State Fault Refusal :=
  accept (.readClockConfig ch dst) (withChannel ch fun c => withDst dst (linesReadClockConfig c ++ [.ret .clock])) s

/-- R79: the read-modify-write of the low byte of `PCR(ch)`. -/
def linesSetPrescaler (c : Channel) (prescaler : Byte) : List Line :=
  [.read (.word (.pcr c)), .writePrescaler c prescaler]

/-- setPrescaler (R79). -/
def execSetPrescaler (ch : Word) (prescaler : Byte) (s : State) : Host.Outcome State Fault Refusal :=
  accept (.setPrescaler ch prescaler) (withChannel ch fun c => linesSetPrescaler c prescaler) s

/-- R80: the load of `PCR(ch)`. -/
def linesReadPrescaler (c : Channel) : List Line := [.read (.prescaler c)]

/-- readPrescaler (R80). -/
def execReadPrescaler (ch : Word) (dst : Bool) (s : State) : Host.Outcome State Fault Refusal :=
  accept (.readPrescaler ch dst) (withChannel ch fun c => withDst dst (linesReadPrescaler c ++ [.ret .prescaler])) s

end Sys2Proof.Machine
end

