-- ==== Sys2Proof/Machine/Pwm.lean ====
section
/-! DEFINITION. PWM generation unit: enable, period and duty, polarity (R81 to R85). -/

namespace Sys2Proof.Machine

/-- R81: the load of `PER`. -/
def linesIsEnabled (c : Channel) : List Line := [.read (.enabled c)]

/-- isEnabled (R81). -/
def execIsEnabled (ch : Word) (dst : Bool) (s : State) : Host.Outcome State Fault Refusal :=
  accept (.isEnabled ch dst) (withChannel ch fun c => withDst dst (linesIsEnabled c ++ [.ret .enabled])) s

/-- R82: "Enabling simply sets the bit"; the disable path waits first, so that it does not "cut the signal mid-cycle". -/
def linesSetEnabled (c : Channel) (enabled : Bool) : List Line :=
  if enabled then rmwLines .per (perEn c) true 0
  else disableLoop c ++ rmwLines .per (perEn c) false 0

/-- setEnabled (R82). -/
def execSetEnabled (ch : Word) (enabled : Bool) (s : State) : Host.Outcome State Fault Refusal :=
  accept (.setEnabled ch enabled) (withChannel ch fun c => linesSetEnabled c enabled) s

/-- R83: the operand check, then one store of the whole period word (D20). -/
def linesSetPeriod (c : Channel) (entire active : Half) : List Line :=
  if active.toNat > entire.toNat then [.raise .invalidArgument] else [.write (.ppr c) (periodWord entire active)]

/-- setPeriod (R83). -/
def execSetPeriod (ch : Word) (entire active : Half) (s : State) : Host.Outcome State Fault Refusal :=
  accept (.setPeriod ch entire active) (withChannel ch fun c => linesSetPeriod c entire active) s

/-- R84: the load of `PPR(ch)`. -/
def linesGetPeriod (c : Channel) : List Line := [.read (.period c)]

/-- getPeriod (R84). -/
def execGetPeriod (ch : Word) (dst : Bool) (s : State) : Host.Outcome State Fault Refusal :=
  accept (.getPeriod ch dst) (withChannel ch fun c => withDst dst (linesGetPeriod c ++ [.ret .period])) s

/-- R85: `RMWBit(PCR(ch), PCR_ACT_STA, polarity)`. -/
def linesSetPolarity (c : Channel) (polarity : Bool) : List Line := rmwLines (.pcr c) pcrActSta polarity 0

/-- setPolarity (R85). -/
def execSetPolarity (ch : Word) (polarity : Bool) (s : State) : Host.Outcome State Fault Refusal :=
  accept (.setPolarity ch polarity) (withChannel ch fun c => linesSetPolarity c polarity) s

end Sys2Proof.Machine
end

