-- ==== Sys2Proof/Machine/Composition.lean ====
section
/-! DEFINITION. Configuration composition and conversion (R95 to R103). A composite runs the lines of the commands it calls inline (R8, R70): a called rule that raises ends it with the
same error, with the earlier writes left in place (R110). -/

namespace Sys2Proof.Machine

/-- R95: gate, clock, period, prescaler, polarity, enable when enabling; the exact reverse when disabling (D30). -/
def linesApplyPwmConfig (c : Channel) (source divider : Word) (prescaler : Byte) (entire active : Half)
    (polarity enabled : Bool) : List Line :=
  if enabled then
    linesSetClockGate c true ++ linesConfigureClock c source divider ++ linesSetPeriod c entire active
      ++ linesSetPrescaler c prescaler ++ linesSetPolarity c polarity ++ linesSetEnabled c true
  else
    linesSetEnabled c false ++ linesSetPolarity c polarity ++ linesSetPrescaler c prescaler
      ++ linesSetPeriod c entire active ++ linesConfigureClock c source divider ++ linesSetClockGate c false

/-- applyPwmConfig (R95). -/
def execApplyPwmConfig (ch source divider : Word) (prescaler : Byte) (entire active : Half) (polarity enabled : Bool)
    (s : State) : Host.Outcome State Fault Refusal :=
  accept (.applyPwmConfig ch source divider prescaler entire active polarity enabled)
    (withChannel ch fun c => linesApplyPwmConfig c source divider prescaler entire active polarity enabled) s

/-- R96: clock, prescaler, period, enable, in that order (D33). -/
def linesReadPwmConfig (c : Channel) : List Line :=
  linesReadClockConfig c ++ linesReadPrescaler c ++ linesGetPeriod c ++ linesIsEnabled c ++ [.ret .pwmConfig]

/-- readPwmConfig (R96). -/
def execReadPwmConfig (ch : Word) (dst : Bool) (s : State) : Host.Outcome State Fault Refusal :=
  accept (.readPwmConfig ch dst) (withChannel ch fun c => withDst dst (linesReadPwmConfig c)) s

/-- R97: the range check before any access, then the load and the store of `PPR(ch)`. -/
def linesSetDutyPercent (c : Channel) (percent : Word) : List Line :=
  if !percentValid percent then [.raise .invalidArgument]
  else [.read (.period c), .writeDuty c percent.toInt.toNat]

/-- setDutyPercent (R97). -/
def execSetDutyPercent (ch percent : Word) (s : State) : Host.Outcome State Fault Refusal :=
  accept (.setDutyPercent ch percent) (withChannel ch fun c => linesSetDutyPercent c percent) s

/-- R98: the Busy check after the one load of `PER`, then gate (both edges), clock, prescaler, arming, and the clear of both edges (D32). -/
def linesApplyCaptureConfig (c : Channel) (source divider : Word) (prescaler : Byte) (rising falling : Bool) : List Line :=
  linesIsEnabled c ++ [.raiseIfEnabled] ++ linesSetClockGate c (rising && falling) ++ linesConfigureClock c source divider
    ++ linesSetPrescaler c prescaler ++ linesSetCaptureEnable c rising falling ++ linesClearCaptureInterrupt c true true

/-- applyCaptureConfig (R98). -/
def execApplyCaptureConfig (ch source divider : Word) (prescaler : Byte) (rising falling : Bool) (s : State) :
    Host.Outcome State Fault Refusal :=
  accept (.applyCaptureConfig ch source divider prescaler rising falling)
    (withChannel ch fun c => linesApplyCaptureConfig c source divider prescaler rising falling) s

/-- R99: wait for both flags, read both counts, clear both edges. -/
def linesCaptureBlocking (c : Channel) : List Line :=
  captureLoop c ++ [.read (.fallCount c), .read (.riseCount c)] ++ linesClearCaptureInterrupt c true true ++ [.ret .counts]

/-- captureBlocking (R99). -/
def execCaptureBlocking (ch : Word) (dst : Bool) (s : State) : Host.Outcome State Fault Refusal :=
  accept (.captureBlocking ch dst) (withChannel ch fun c => withDst dst (linesCaptureBlocking c)) s

/-- R100: the operand checks and `PeriodNs`, with no access. -/
def linesEffectiveClockPeriodNs (source divider : Word) (prescaler : Byte) : List Line :=
  if !sourceValid source || !dividerValid divider then [.raise .invalidArgument]
  else [.ret (.number (BitVec.ofNat 64 (periodNs source.toNat divider.toNat prescaler.toNat)))]

/-- effectiveClockPeriodNs (R100): no channel operand. -/
def execEffectiveClockPeriodNs (source divider : Word) (prescaler : Byte) (dst : Bool) (s : State) :
    Host.Outcome State Fault Refusal :=
  accept (.effectiveClockPeriodNs source divider prescaler dst)
    (withDst dst (linesEffectiveClockPeriodNs source divider prescaler)) s

/-- The two loads that rawToNanoseconds, maxCaptureDurationNs and outputFrequencyHz begin with (R101, D34). -/
def linesLiveClock (c : Channel) : List Line := linesReadClockConfig c ++ linesReadPrescaler c

/-- rawToNanoseconds (R101). -/
def execRawToNanoseconds (ch : Word) (onCycles offCycles : Half) (dst : Bool) (s : State) :
    Host.Outcome State Fault Refusal :=
  accept (.rawToNanoseconds ch onCycles offCycles dst)
    (withChannel ch fun c => withDst dst (linesLiveClock c ++ [.ret (.nanoseconds onCycles offCycles)])) s

/-- maxCaptureDurationNs (R102): the on value of rawToNanoseconds(65535, 0). -/
def execMaxCaptureDurationNs (ch : Word) (dst : Bool) (s : State) : Host.Outcome State Fault Refusal :=
  accept (.maxCaptureDurationNs ch dst)
    (withChannel ch fun c => withDst dst (linesLiveClock c ++ [.ret .maxDuration])) s

/-- outputFrequencyHz (R103). -/
def execOutputFrequencyHz (ch : Word) (dst : Bool) (s : State) : Host.Outcome State Fault Refusal :=
  accept (.outputFrequencyHz ch dst)
    (withChannel ch fun c => withDst dst (linesLiveClock c ++ linesGetPeriod c ++ [.ret .frequency])) s

end Sys2Proof.Machine
end

