-- ==== Sys2Proof/Machine/RegisterAccess.lean ====
section
/-! DEFINITION. Register access primitive: load32, store32, readModifyWriteBit (R72 to R74). -/

namespace Sys2Proof.Machine

/-- load32 (R72): `w <- MemRead(off, 4); return (w)`. -/
def execLoad32 (off : Word) (dst : Bool) (s : State) : Host.Outcome State Fault Refusal :=
  acceptAt (.load32 off dst) off (fun r => withDst dst [.read (.word r), .ret .word]) s

/-- store32 (R73): `MemWrite(off, 4, value)`. -/
def execStore32 (off value : Word) (s : State) : Host.Outcome State Fault Refusal :=
  acceptAt (.store32 off value) off (fun r => [.write r value]) s

/-- The lines of readModifyWriteBit (R74): a bit index above 31 is "a no-op, silently ignored", with no access (D40). -/
def linesReadModifyWriteBit (r : Reg) (index : Word) (value : Bool) : List Line :=
  if index.toNat > 31 then [] else rmwLines r index.toNat value 0

/-- readModifyWriteBit (R74). -/
def execReadModifyWriteBit (off index : Word) (value : Bool) (s : State) : Host.Outcome State Fault Refusal :=
  acceptAt (.readModifyWriteBit off index value) off (fun r => linesReadModifyWriteBit r index value) s

end Sys2Proof.Machine
end

