-- ==== Sys2Proof/Machine/Dispatch.lean ====
section
/-! DEFINITION. One arm per command (R63). -/

namespace Sys2Proof.Machine

/-- The meaning of a command handed to the Core (R63). -/
def exec (i : Instr) (s : State) : Host.Outcome State Fault Refusal :=
  match i with
  | .load32 off dst => Sys2Proof.Machine.execLoad32 off dst s
  | .store32 off value => Sys2Proof.Machine.execStore32 off value s
  | .readModifyWriteBit off bit value => Sys2Proof.Machine.execReadModifyWriteBit off bit value s
  | .setClockGate ch pass => Sys2Proof.Machine.execSetClockGate ch pass s
  | .setClockBypass ch bypass => Sys2Proof.Machine.execSetClockBypass ch bypass s
  | .configureClock ch source divider => Sys2Proof.Machine.execConfigureClock ch source divider s
  | .readClockConfig ch dst => Sys2Proof.Machine.execReadClockConfig ch dst s
  | .setPrescaler ch prescaler => Sys2Proof.Machine.execSetPrescaler ch prescaler s
  | .readPrescaler ch dst => Sys2Proof.Machine.execReadPrescaler ch dst s
  | .isEnabled ch dst => Sys2Proof.Machine.execIsEnabled ch dst s
  | .setEnabled ch enabled => Sys2Proof.Machine.execSetEnabled ch enabled s
  | .setPeriod ch entire active => Sys2Proof.Machine.execSetPeriod ch entire active s
  | .getPeriod ch dst => Sys2Proof.Machine.execGetPeriod ch dst s
  | .setPolarity ch polarity => Sys2Proof.Machine.execSetPolarity ch polarity s
  | .setCaptureEnable ch rising falling => Sys2Proof.Machine.execSetCaptureEnable ch rising falling s
  | .setCaptureInterruptEnable ch rising falling => Sys2Proof.Machine.execSetCaptureInterruptEnable ch rising falling s
  | .clearCaptureInterrupt ch rising falling => Sys2Proof.Machine.execClearCaptureInterrupt ch rising falling s
  | .readCaptureInterruptStatus ch dst => Sys2Proof.Machine.execReadCaptureInterruptStatus ch dst s
  | .readRiseLockCount ch dst => Sys2Proof.Machine.execReadRiseLockCount ch dst s
  | .readFallLockCount ch dst => Sys2Proof.Machine.execReadFallLockCount ch dst s
  | .readRiseLockFlag ch dst => Sys2Proof.Machine.execReadRiseLockFlag ch dst s
  | .readFallLockFlag ch dst => Sys2Proof.Machine.execReadFallLockFlag ch dst s
  | .applyPwmConfig ch source divider prescaler entire active polarity enabled => Sys2Proof.Machine.execApplyPwmConfig ch source divider prescaler entire active polarity enabled s
  | .readPwmConfig ch dst => Sys2Proof.Machine.execReadPwmConfig ch dst s
  | .setDutyPercent ch percent => Sys2Proof.Machine.execSetDutyPercent ch percent s
  | .applyCaptureConfig ch source divider prescaler rising falling => Sys2Proof.Machine.execApplyCaptureConfig ch source divider prescaler rising falling s
  | .captureBlocking ch dst => Sys2Proof.Machine.execCaptureBlocking ch dst s
  | .effectiveClockPeriodNs source divider prescaler dst => Sys2Proof.Machine.execEffectiveClockPeriodNs source divider prescaler dst s
  | .rawToNanoseconds ch onCycles offCycles dst => Sys2Proof.Machine.execRawToNanoseconds ch onCycles offCycles dst s
  | .maxCaptureDurationNs ch dst => Sys2Proof.Machine.execMaxCaptureDurationNs ch dst s
  | .outputFrequencyHz ch dst => Sys2Proof.Machine.execOutputFrequencyHz ch dst s

end Sys2Proof.Machine
end

