-- ==== Sys2Proof/Machine/Step.lean ====
section
/-! DEFINITION. One step of the whole machine (log 7), and the Caller's hand-over of one command as a table word (log 2). -/

namespace Sys2Proof.Machine

/-- One step: a running or sleeping command goes on until it ends or sleeps again; in `Idle` the Peripheral has its turn, and then the Caller's next record, if
there is one, is decoded and run (R3, R36, R55, R122). An ill-formed record is refused with no access and no response (R120). -/
def step (s : State) : Host.Outcome State Fault Refusal :=
  match s.upNext with
  | .resume s' => .next s'
  | .command r s' =>
    match decode r with
    | .ok i => exec i s'
    | .error e => .refused (refusalOf e)

/-- The Caller has just issued the command with these bits, and the Core is `Idle` to take it: the next step runs it (log 12). -/
def State.withFetchWord (s : State) (nbits w : Nat) : State :=
  (s.putSeq .idle).putInbox (recordOfBits nbits w :: s.inbox)

end Sys2Proof.Machine
end

