-- ==== Sys2Proof/Safety.lean ====
section
/-! DEFINITION. The terms claims are stated in: invariants of the state, the Peripheral's turns, and what a command may do by its rule (operands, errors,
results, the fields it writes, the flags it clears, whether it waits). -/

namespace Sys2Proof.Machine

/-! ## The state -/

/-- The window is in its canonical form. -/
def State.canonical (s : State) : Prop := s.mem.wf = true

/-- No byte is listed outside a register: "Only the offsets of rules R14 and R15 hold registers" (R13). -/
def State.inWindow (s : State) : Prop := ∀ cell ∈ s.mem, ∃ r : Reg, r.offset ≤ cell.1 ∧ cell.1 < r.offset + 4

/-- `RES` bits have no storage (R33). -/
def State.reservedClear (s : State) : Prop := ∀ r : Reg, s.stored r &&& r.res = 0

/-- The invariant of the window. -/
structure State.Inv (s : State) : Prop where
  canonical : s.canonical
  inWindow : s.inWindow
  reservedClear : s.reservedClear

/-- The command can sleep on channel `c`, and these are its lines (R82, R95, R99, R121). -/
def waiterLines (cmd : Instr) (c : Channel) : Option (List Line) :=
  match cmd with
  | .setEnabled ch false => if channel? ch = some c then some (linesSetEnabled c false) else none
  | .applyPwmConfig ch source divider prescaler entire active polarity false =>
    if channel? ch = some c then some (linesApplyPwmConfig c source divider prescaler entire active polarity false) else none
  | .captureBlocking ch true => if channel? ch = some c then some (linesCaptureBlocking c) else none
  | _ => none

/-- Between two steps of the machine no command stands in `Run`, and a sleeping one is a waiting command at the head of its loop that has not answered (R36, R121). -/
def State.waitsOnly (s : State) : Prop :=
  match s.seq with
  | .idle => True
  | .run _ _ _ => False
  | .sleeping cmd line _ _ => s.response = none ∧ ∃ c, waiterLines cmd c = some line

/-- Every period register has active ≤ entire, and every pair register a divider index of at most 8 (R22, R27). -/
def State.legalConfig (s : State) : Prop :=
  (∀ c : Channel, (s.active c).toNat ≤ (s.entire c).toNat) ∧ ∀ p : Pair, (s.divider p).toNat ≤ 8

/-! ## The Peripheral -/

/-- `n` turns of the Peripheral and nothing else. -/
def State.turns (s : State) : Nat → State
  | 0 => s
  | n + 1 => (s.turns n).turn

/-- The Peripheral does nothing any more: "it may never step" (R55). -/
def State.quiet (s : State) : Prop := ∀ events ∈ s.schedule, events = []

/-! ## Core steps -/

/-- `n` Core steps (R52). -/
def coreSteps : Nat → State → State
  | 0, s => s
  | n + 1, s => coreSteps n (coreStep s)

/-- A command just accepted, before its first line. -/
def State.started (s : State) (cmd : Instr) (line : List Line) : State := s.begin.putSeq (.run cmd line {})

/-! ## What a finished command has done -/

/-- How many loads a list of accesses holds. -/
def loadCount : List Access → Nat
  | [] => 0
  | .load _ :: rest => loadCount rest + 1
  | .store _ :: rest => loadCount rest
  | .sleep _ :: rest => loadCount rest

/-- How many loads and stores a list of accesses holds: before each of them the Peripheral has a turn. -/
def accessCount : List Access → Nat
  | [] => 0
  | .load _ :: rest => accessCount rest + 1
  | .store _ :: rest => accessCount rest + 1
  | .sleep _ :: rest => accessCount rest

/-- From `s` to `t` a command has run to its end: it answered `code` and `values`, and made exactly these accesses in this order. Everything but the window is fixed by this. -/
structure Answered (s t : State) (code : Code) (values : List Value) (accesses : List Access) : Prop where
  seq : t.seq = .idle
  response : t.response = some ⟨code, values⟩
  bus : t.bus = accesses
  inbox : t.inbox = s.inbox
  schedule : t.schedule = s.schedule.drop (accessCount accesses)
  draws : t.draws = s.draws + loadCount accesses

/-- From `s` to `t` a command has made these accesses and gone to sleep, unanswered, with `line` still to do. Everything but the window and the locals is fixed by this. -/
structure Waiting (s t : State) (cmd : Instr) (line : List Line) (time : Nat) (accesses : List Access) : Prop where
  seq : ∃ loc, t.seq = .sleeping cmd line loc time
  response : t.response = none
  bus : t.bus = accesses ++ [.sleep time]
  inbox : t.inbox = s.inbox
  schedule : t.schedule = s.schedule.drop (accessCount accesses)
  draws : t.draws = s.draws + loadCount accesses

/-- From `s` to `t` every byte of the window outside the registers `written` is as `n` turns of the Peripheral have left it. -/
def Untouched (s t : State) (n : Nat) (written : List Reg) : Prop :=
  ∀ a, (∀ r ∈ written, a < r.offset ∨ r.offset + 4 ≤ a) → t.mem.readByte a = (s.turns n).mem.readByte a

/-- From `s` to `t` every `RW` field of every register outside `written` is as before. -/
def KeepsRw (s t : State) (written : List Reg) : Prop :=
  ∀ r : Reg, r ∉ written → t.stored r &&& r.mask .rw = s.stored r &&& r.mask .rw

/-- How a command with a `ch` operand begins: its opcode (R63), and `CHK_CH`, which turns a channel outside 0..7 away before any access (R107). -/
structure ChecksChannel (opcode : Byte) (mk : Word → Instr) : Prop where
  opcode : ∀ ch : Word, (encode (mk ch)).opcode = opcode
  channel : ∀ (s : State) (ch : Word), s.seq = .idle → ¬(0 ≤ ch.toInt ∧ ch.toInt ≤ 7) →
    exec (mk ch) s = .next (s.begin.finish .invalidChannel [])

/-- How a command with `ch` and `dst` begins: as above, and then `dst = 0` turns it away before any access (R71). -/
structure ChecksOutput (opcode : Byte) (mk : Word → Bool → Instr) : Prop where
  channel : ∀ dst : Bool, ChecksChannel opcode fun ch => mk ch dst
  output : ∀ (s : State) (ch : Word), s.seq = .idle → 0 ≤ ch.toInt → ch.toInt ≤ 7 →
    exec (mk ch false) s = .next (s.begin.finish .nullOutput [])

end Sys2Proof.Machine

namespace Sys2Proof

open Machine

/-! ## What a command may do, by its rule -/

/-- The `ch` operand, for the 27 commands that have one (R65, R107). -/
def Instr.chOperand : Instr → Option Word
  | .load32 _ _ | .store32 _ _ | .readModifyWriteBit _ _ _ | .effectiveClockPeriodNs _ _ _ _ => none
  | .setClockGate ch _ | .setClockBypass ch _ | .configureClock ch _ _ | .readClockConfig ch _ | .setPrescaler ch _
  | .readPrescaler ch _ | .isEnabled ch _ | .setEnabled ch _ | .setPeriod ch _ _ | .getPeriod ch _ | .setPolarity ch _
  | .setCaptureEnable ch _ _ | .setCaptureInterruptEnable ch _ _ | .clearCaptureInterrupt ch _ _
  | .readCaptureInterruptStatus ch _ | .readRiseLockCount ch _ | .readFallLockCount ch _ | .readRiseLockFlag ch _
  | .readFallLockFlag ch _ | .applyPwmConfig ch _ _ _ _ _ _ _ | .readPwmConfig ch _ | .setDutyPercent ch _
  | .applyCaptureConfig ch _ _ _ _ _ | .captureBlocking ch _ | .rawToNanoseconds ch _ _ _ | .maxCaptureDurationNs ch _
  | .outputFrequencyHz ch _ => some ch

/-- The `dst` operand, for the commands that have result values (R65, R71). -/
def Instr.dstOperand : Instr → Option Bool
  | .load32 _ dst | .readClockConfig _ dst | .readPrescaler _ dst | .isEnabled _ dst | .getPeriod _ dst
  | .readCaptureInterruptStatus _ dst | .readRiseLockCount _ dst | .readFallLockCount _ dst | .readRiseLockFlag _ dst
  | .readFallLockFlag _ dst | .readPwmConfig _ dst | .captureBlocking _ dst | .effectiveClockPeriodNs _ _ _ dst
  | .rawToNanoseconds _ _ _ dst | .maxCaptureDurationNs _ dst | .outputFrequencyHz _ dst => some dst
  | .store32 _ _ | .readModifyWriteBit _ _ _ | .setClockGate _ _ | .setClockBypass _ _ | .configureClock _ _ _
  | .setPrescaler _ _ | .setEnabled _ _ | .setPeriod _ _ _ | .setPolarity _ _ | .setCaptureEnable _ _ _
  | .setCaptureInterruptEnable _ _ _ | .clearCaptureInterrupt _ _ _ | .applyPwmConfig _ _ _ _ _ _ _ _
  | .setDutyPercent _ _ | .applyCaptureConfig _ _ _ _ _ _ => none

/-- The raw offset operand (R47, R72 to R74). -/
def Instr.offOperand : Instr → Option Word
  | .load32 off _ | .store32 off _ | .readModifyWriteBit off _ _ => some off
  | _ => none

/-- A command whose store may put any word into a register: the two raw writers (R73, R74). -/
def Instr.rawWriter : Instr → Bool
  | .store32 _ _ | .readModifyWriteBit _ _ _ => true
  | _ => false

/-- The commands that clear flags: the raw writers, clearCaptureInterrupt, and the two composites that call it (R37, R98, R99). -/
def Instr.clearsFlags : Instr → Bool
  | .store32 _ _ | .readModifyWriteBit _ _ _ | .clearCaptureInterrupt _ _ _ | .applyCaptureConfig _ _ _ _ _ _
  | .captureBlocking _ _ => true
  | _ => false

/-- The errors a command can raise (R106, R109). -/
def Instr.mayRaise : Instr → List Code
  | .load32 _ _ => [.nullOutput]
  | .store32 _ _ | .readModifyWriteBit _ _ _ => []
  | .setClockGate _ _ | .setClockBypass _ _ | .setPrescaler _ _ | .setPolarity _ _ | .setEnabled _ _
  | .setCaptureEnable _ _ _ | .setCaptureInterruptEnable _ _ _ | .clearCaptureInterrupt _ _ _ => [.invalidChannel]
  | .configureClock _ _ _ | .setPeriod _ _ _ | .applyPwmConfig _ _ _ _ _ _ _ _ | .setDutyPercent _ _ =>
    [.invalidChannel, .invalidArgument]
  | .readPrescaler _ _ | .isEnabled _ _ | .getPeriod _ _ | .readCaptureInterruptStatus _ _ | .readRiseLockCount _ _
  | .readFallLockCount _ _ | .readRiseLockFlag _ _ | .readFallLockFlag _ _ | .captureBlocking _ _ =>
    [.invalidChannel, .nullOutput]
  | .readClockConfig _ _ | .readPwmConfig _ _ | .rawToNanoseconds _ _ _ _ | .maxCaptureDurationNs _ _
  | .outputFrequencyHz _ _ => [.invalidChannel, .nullOutput, .invalidArgument]
  | .applyCaptureConfig _ _ _ _ _ _ => [.invalidChannel, .busy, .invalidArgument]
  | .effectiveClockPeriodNs _ _ _ _ => [.nullOutput, .invalidArgument]

/-- The types of result values (R64, R65). -/
inductive ValueType where
  | word | src | div | presc | bool | cyc16 | u64
  deriving DecidableEq, Repr

/-- The type of a result value. -/
def Machine.Value.type : Value → ValueType
  | .word _ => .word
  | .src _ => .src
  | .div _ => .div
  | .presc _ => .presc
  | .bool _ => .bool
  | .cyc16 _ => .cyc16
  | .u64 _ => .u64

/-- The result values of a command on `OK` (R65). -/
def Instr.resultTypes : Instr → List ValueType
  | .load32 _ _ => [.word]
  | .readClockConfig _ _ => [.src, .div]
  | .readPrescaler _ _ => [.presc]
  | .isEnabled _ _ => [.bool]
  | .getPeriod _ _ => [.cyc16, .cyc16]
  | .readCaptureInterruptStatus _ _ => [.bool, .bool]
  | .readRiseLockCount _ _ | .readFallLockCount _ _ => [.cyc16]
  | .readRiseLockFlag _ _ | .readFallLockFlag _ _ => [.bool]
  | .readPwmConfig _ _ => [.src, .div, .presc, .cyc16, .cyc16, .bool]
  | .captureBlocking _ _ => [.cyc16, .cyc16]
  | .effectiveClockPeriodNs _ _ _ _ => [.u64]
  | .rawToNanoseconds _ _ _ _ => [.u64, .u64]
  | .maxCaptureDurationNs _ _ => [.u64]
  | .outputFrequencyHz _ _ => [.u64]
  | .store32 _ _ | .readModifyWriteBit _ _ _ | .setClockGate _ _ | .setClockBypass _ _ | .configureClock _ _ _
  | .setPrescaler _ _ | .setEnabled _ _ | .setPeriod _ _ _ | .setPolarity _ _ | .setCaptureEnable _ _ _
  | .setCaptureInterruptEnable _ _ _ | .clearCaptureInterrupt _ _ _ | .applyPwmConfig _ _ _ _ _ _ _ _
  | .setDutyPercent _ _ | .applyCaptureConfig _ _ _ _ _ _ => []

/-- A mask if the registers are the same one, else no bit. -/
def onReg (r q : Reg) (m : Word) : Word := if r = q then m else 0

/-- The `RW` bits of register `r` that a command on channel `c` may change (R72 to R103). -/
def Instr.writesOn (i : Instr) (c : Channel) (r : Reg) : Word :=
  match i with
  | .setClockGate _ _ => onReg r .pcgr (bit (pcgrGate c))
  | .setClockBypass _ _ => onReg r .pcgr (bit (pcgrByp c))
  | .configureClock _ _ _ => onReg r (.pccr c.pair) 0x8F
  | .setPrescaler _ _ => onReg r (.pcr c) 0xFF
  | .setEnabled _ _ => onReg r .per (bit (perEn c))
  | .setPeriod _ _ _ => onReg r (.ppr c) 0xFFFFFFFF
  | .setPolarity _ _ => onReg r (.pcr c) 0x100
  | .setCaptureEnable _ _ _ => onReg r .cer (bit (cerEn c)) ||| onReg r (.ccr c) 0x18
  | .setCaptureInterruptEnable _ _ _ => onReg r .cier (bit (cierRise c) ||| bit (cierFall c))
  | .applyPwmConfig _ _ _ _ _ _ _ _ =>
    onReg r .pcgr (bit (pcgrGate c)) ||| onReg r (.pccr c.pair) 0x8F ||| onReg r (.ppr c) 0xFFFFFFFF
      ||| onReg r (.pcr c) 0x1FF ||| onReg r .per (bit (perEn c))
  | .setDutyPercent _ _ => onReg r (.ppr c) 0xFFFF
  | .applyCaptureConfig _ _ _ _ _ _ =>
    onReg r .pcgr (bit (pcgrGate c)) ||| onReg r (.pccr c.pair) 0x8F ||| onReg r (.pcr c) 0xFF
      ||| onReg r .cer (bit (cerEn c)) ||| onReg r (.ccr c) 0x18
  | .load32 _ _ | .store32 _ _ | .readModifyWriteBit _ _ _ | .readClockConfig _ _ | .readPrescaler _ _ | .isEnabled _ _
  | .getPeriod _ _ | .clearCaptureInterrupt _ _ _ | .readCaptureInterruptStatus _ _ | .readRiseLockCount _ _
  | .readFallLockCount _ _ | .readRiseLockFlag _ _ | .readFallLockFlag _ _ | .readPwmConfig _ _ | .captureBlocking _ _
  | .effectiveClockPeriodNs _ _ _ _ | .rawToNanoseconds _ _ _ _ | .maxCaptureDurationNs _ _ | .outputFrequencyHz _ _ => 0

/-- The `RW` bits of register `r` that a command may change. -/
def Instr.mayWrite (i : Instr) (r : Reg) : Word :=
  match i with
  | .store32 off _ => if Reg.ofOffset off = some r then 0xFFFFFFFF else 0
  | .readModifyWriteBit off index _ => if Reg.ofOffset off = some r then bit index.toNat else 0
  | _ =>
    match i.chOperand.bind channel? with
    | some c => i.writesOn c r
    | none => 0

end Sys2Proof
end

