-- ==== Sys2Proof/Certificates/Slice0/Obligations.lean ====
section
/-! DEFINITION. The statements for the provers. The hypothesis `ch.toInt = c.val` says that the `ch` operand, as int32, is the channel `c` (0..7); `s.turn` is the window after the
Peripheral's turn before the first access, `s.turns n` after the turns before the first `n` accesses. Every statement holds for every schedule of the Peripheral, every `INIT_WINDOW` and
every draw of the `RES` bits unless it says otherwise. Where the Peripheral's turns stand (before every access, at the end of a sleep, at the start of an idle step) is the model's choice (log 6), and so is the
list of accesses kept in the state (log 14). -/

open Sys2Proof Sys2Proof.Machine

/-! ## Records and steps -/

/-- One record of every family, written out from the spec's own examples (95_test_vectors.md section 3, R63, R65), decodes to its command. -/
def Obligations.SampleRecordsDecode : Prop :=
  decode ⟨0x01, [0x160, 1]⟩ = .ok (.load32 0x160 true) ∧
  decode ⟨0x02, [0x184, 0x00640032]⟩ = .ok (.store32 0x184 0x00640032) ∧
  decode ⟨0x12, [9, 1, 0]⟩ = .ok (.configureClock 9 1 0) ∧
  decode ⟨0x21, [4, 1]⟩ = .ok (.setEnabled 4 true) ∧
  decode ⟨0x33, [2, 1]⟩ = .ok (.readCaptureInterruptStatus 2 true) ∧
  decode ⟨0x40, [3, 0, 3, 2, 999, 600, 1, 1]⟩ = .ok (.applyPwmConfig 3 0 3 2 999 600 true true) ∧
  decode ⟨0x46, [2, 100, 50, 1]⟩ = .ok (.rawToNanoseconds 2 100 50 true) ∧
  decode ⟨0x48, [3, 1]⟩ = .ok (.outputFrequencyHz 3 true)

/-- Decoding what the encoder writes gives the command back, for every command and every operand value (R62 to R66). -/
def Obligations.DecodeOfEncodeIsTheCommand : Prop := ∀ i : Instr, decode (encode i) = .ok i

/-- A record that decodes is the encoding of its command: every command has exactly one record (R62, R68). -/
def Obligations.DecodedRecordIsTheEncoding : Prop := ∀ (r : Record) (i : Instr), decode r = .ok i → encode i = r

/-- The decoder accepts exactly the records that the opcode map and the operand types allow (R63, R64, R65, R68). -/
def Obligations.DecodeAcceptsExactlyWellFormed : Prop := ∀ r : Record, (∃ i, decode r = .ok i) ↔ r.wellFormed = true

/-- R67: an opcode outside the map is refused by name, whatever the operands, and the step makes no access. -/
def Obligations.UnlistedOpcodeIsRefused : Prop :=
  ∀ (r : Record),
    r.opcode.toNat ∉ [0x01, 0x02, 0x03, 0x10, 0x11, 0x12, 0x13, 0x14, 0x15, 0x20, 0x21, 0x22, 0x23, 0x24,
      0x30, 0x31, 0x32, 0x33, 0x34, 0x35, 0x36, 0x37, 0x40, 0x41, 0x42, 0x43, 0x44, 0x45, 0x46, 0x47, 0x48] →
    decode r = .error (.unknownOpcode r.opcode) ∧
    ∀ (s : State) (more : List Record), s.seq = .idle → s.inbox = r :: more →
      step s = .refused (.unknownOpcode r.opcode)

/-- R68: a record with a listed opcode whose operands do not fit is refused as `BadOperand(op, name)`. -/
def Obligations.UnfitOperandsAreRefused : Prop :=
  ∀ (r : Record), (Record.signature r.opcode).isSome = true → r.wellFormed = false →
    ∃ name, decode r = .error (.badOperand r.opcode name) ∧
      ∀ (s : State) (more : List Record), s.seq = .idle → s.inbox = r :: more →
        step s = .refused (.badOperand r.opcode name)

/-- A step of an idle machine runs exactly the command that the Caller's next record decodes to (R36, R62). The frame of the step is the model's choice: the record leaves the inbox as it is accepted (log 12), the Peripheral has a turn
at the start of an idle step (log 6), and one step runs the command until it ends or sleeps (log 7). -/
def Obligations.StepRunsTheDecodedCommand : Prop :=
  ∀ (s : State) (r : Record) (more : List Record) (i : Instr), s.seq = .idle → s.inbox = r :: more → decode r = .ok i →
    step s = exec i (s.turn.putInbox more)

/-- A sleeping command that can wait goes on as the same command newly issued would, from the state the Peripheral leaves at the end of the sleep (R36, R82, R99): it answers, or sleeps again. That this is one step, with one turn at the end of the sleep, is the model's choice (logs 6 and 7). -/
def Obligations.WakingContinuesTheWait : Prop :=
  ∀ (s u : State) (cmd : Instr) (line : List Line) (loc : Locals) (t : Nat) (c : Channel),
    s.seq = .sleeping cmd line loc t → s.response = none → waiterLines cmd c = some line →
    exec cmd (s.turn.putSeq .idle) = .next u →
    ∃ v, step s = .next v ∧ v.mem = u.mem ∧ v.response = u.response ∧ v.inbox = u.inbox ∧ v.schedule = u.schedule ∧
      v.draws = u.draws ∧ v.bus = s.bus ++ u.bus ∧ (v.seq = .idle ↔ u.seq = .idle)

/-- The model's choice of log 11, from R38 ("accepts no other command"): a Core in `Run` or `Sleeping` takes no command. -/
def Obligations.BusyCoreTakesNoCommand : Prop :=
  ∀ (i : Instr) (s : State), s.seq ≠ .idle → exec i s = .fault .commandNotAccepted

/-! ## The window (R13 to R17, R43 to R51) -/

/-- R43: a load gives every field as it stands after the Peripheral's turn and any value in the `RES` bits, is one access, and changes no byte of the window. -/
def Obligations.LoadReadsFieldsAndChangesNothing : Prop :=
  ∀ (s : State) (r : Reg),
    (s.load r).1.value &&& r.defined = s.turn.stored r &&& r.defined ∧
    (s.load r).1.value &&& r.res = Config.reservedBits s.draws &&& r.res ∧
    (∀ a, (s.load r).2.mem.readByte a = s.turn.mem.readByte a) ∧
    (s.load r).2.bus = s.bus ++ [.load r] ∧ (s.load r).2.seq = s.seq

/-- R44: bit by bit, a store gives an `RW` bit the bit of `v`, leaves an `RO` bit, and clears a `W1C` bit exactly where `v` has a 1, and every other byte of the window stays as the Peripheral's turn left it.
That the bits of `v` in `RES` positions have no effect is the model's choice (log 5): R44 gives them "no defined effect". -/
def Obligations.StoreFollowsTheAccessKinds : Prop :=
  ∀ (s : State) (r : Reg) (v : Word),
    (∀ k : Nat,
      ((r.mask .rw).getLsbD k = true → (s.store r v).flag r k = v.getLsbD k) ∧
      ((r.mask .ro).getLsbD k = true → (s.store r v).flag r k = s.turn.flag r k) ∧
      ((r.mask .w1c).getLsbD k = true → (s.store r v).flag r k = (s.turn.flag r k && !v.getLsbD k))) ∧
    (∀ x : Word, s.store r (v ||| (x &&& r.res)) = s.store r v) ∧
    (∀ a, (a < r.offset ∨ r.offset + 4 ≤ a) → (s.store r v).mem.readByte a = s.turn.mem.readByte a)

/-- R46: on `CCR(ch)` with the mask `CCR_W1C`, a read-modify-write of an arm bit changes that bit, keeps the other arm bit, and neither clears a lock flag nor loses one that the Peripheral sets between its two steps. -/
def Obligations.MaskedRmwKeepsTheLockFlags : Prop :=
  ∀ (s : State) (c : Channel) (b : Bool) (i : Nat), i = ccrRiseArm ∨ i = ccrFallArm →
    (∀ k, k = ccrRiseArm ∨ k = ccrFallArm →
      (s.rmwBit (.ccr c) i b ccrW1c).flag (.ccr c) k = if k = i then b else s.flag (.ccr c) k) ∧
    (∀ k, k = ccrRlf ∨ k = ccrFlf → (s.rmwBit (.ccr c) i b ccrW1c).flag (.ccr c) k = (s.turns 2).flag (.ccr c) k) ∧
    (∀ a, (a < (Reg.ccr c).offset ∨ (Reg.ccr c).offset + 4 ≤ a) →
      (s.rmwBit (.ccr c) i b ccrW1c).mem.readByte a = (s.turns 2).mem.readByte a)

/-- R14, R15, R47, R61: a raw offset names a register exactly when it is one of the offsets the spec lists; at any other offset the three raw commands are refused by that offset. -/
def Obligations.RawCommandsAreAdmittedAtListedOffsets : Prop :=
  ∀ off : Word,
    ((∃ r, Reg.ofOffset off = some r) ↔
      off.toNat ∈ [0x00, 0x04, 0x10, 0x14, 0x20, 0x24, 0x28, 0x2C, 0x40, 0x80, 0xC0] ∨
      (0x100 ≤ off.toNat ∧ off.toNat < 0x200 ∧ off.toNat % 4 = 0 ∧ off.toNat % 0x20 ≠ 0x1C)) ∧
    (Reg.ofOffset off = none → ∀ (s : State) (v : Word) (b : Bool), s.seq = .idle →
      exec (.load32 off b) s = .refused (.accessRefused off) ∧
      exec (.store32 off v) s = .refused (.accessRefused off) ∧
      exec (.readModifyWriteBit off v b) s = .refused (.accessRefused off))

/-! ## The Peripheral (R55 to R59) -/

/-- R55, R37: whatever events a turn holds, no `RW` field changes and no `W1C` flag is cleared. -/
def Obligations.PeripheralKeepsRwFieldsAndOnlySetsFlags : Prop :=
  ∀ (s : State) (r : Reg) (k : Nat),
    ((r.mask .rw).getLsbD k = true → s.turn.flag r k = s.flag r k) ∧
    ((r.mask .w1c).getLsbD k = true → s.flag r k = true → s.turn.flag r k = true)

/-- R56: a counter event gives `PCNTR(ch)` and `PPCNTR(ch)` its values. R59: a PWM interrupt-status event sets `PISR_ST(ch)`. Neither changes any other register, nor another bit of `PISR`. -/
def Obligations.CounterAndStatusEventsSetTheirFields : Prop :=
  ∀ (s : State) (c : Channel) (n p : Word),
    (((Event.counter c n p).apply s).stored (.pcntr c) = n ∧
      ((Event.counter c n p).apply s).stored (.ppcntr c) = p ∧
      ∀ r : Reg, r ≠ .pcntr c → r ≠ .ppcntr c → ((Event.counter c n p).apply s).stored r = s.stored r) ∧
    ((∀ k, ((Event.pwmStatus c).apply s).flag .pisr k = (decide (k = pisrSt c) || s.flag .pisr k)) ∧
      ∀ r : Reg, r ≠ .pisr → ((Event.pwmStatus c).apply s).stored r = s.stored r)

/-- R57: a rising latch with `CER_EN(ch) = 1` and the rising arm bit 1 latches the count and sets `CCR_RLF` and `CISR_RISE(ch)`, whatever `CIER` holds, and nothing else; otherwise it does not happen. -/
def Obligations.RisingLatchSetsCountAndFlags : Prop :=
  ∀ (s : State) (c : Channel) (n : Half),
    (s.flag .cer (cerEn c) = true → s.flag (.ccr c) ccrRiseArm = true →
      ((Event.riseLatch c n).apply s).riseCount c = n ∧
      (∀ k, ((Event.riseLatch c n).apply s).flag (.ccr c) k = (decide (k = ccrRlf) || s.flag (.ccr c) k)) ∧
      (∀ k, ((Event.riseLatch c n).apply s).flag .cisr k = (decide (k = cisrRise c) || s.flag .cisr k)) ∧
      (∀ r : Reg, r ∉ [.crlr c, .ccr c, .cisr] → ((Event.riseLatch c n).apply s).stored r = s.stored r)) ∧
    (s.flag .cer (cerEn c) = false ∨ s.flag (.ccr c) ccrRiseArm = false → (Event.riseLatch c n).apply s = s)

/-- R58: a falling latch, as R57 with the falling edge's register, flag and pending bit. -/
def Obligations.FallingLatchSetsCountAndFlags : Prop :=
  ∀ (s : State) (c : Channel) (n : Half),
    (s.flag .cer (cerEn c) = true → s.flag (.ccr c) ccrFallArm = true →
      ((Event.fallLatch c n).apply s).fallCount c = n ∧
      (∀ k, ((Event.fallLatch c n).apply s).flag (.ccr c) k = (decide (k = ccrFlf) || s.flag (.ccr c) k)) ∧
      (∀ k, ((Event.fallLatch c n).apply s).flag .cisr k = (decide (k = cisrFall c) || s.flag .cisr k)) ∧
      (∀ r : Reg, r ∉ [.cflr c, .ccr c, .cisr] → ((Event.fallLatch c n).apply s).stored r = s.stored r)) ∧
    (s.flag .cer (cerEn c) = false ∨ s.flag (.ccr c) ccrFallArm = false → (Event.fallLatch c n).apply s = s)

/-! ## Register access (R72 to R74) -/

/-- R72: load32 returns the word, its `RES` bits free; with `dst = 0` it raises NullOutput with no access. -/
def Obligations.LoadCommandReturnsTheWord : Prop :=
  ∀ (s : State) (off : Word) (r : Reg), s.seq = .idle → off.toNat = r.offset →
    exec (.load32 off false) s = .next (s.begin.finish .nullOutput []) ∧
    ∃ t v, exec (.load32 off true) s = .next t ∧ Answered s t .ok [.word v] [.load r] ∧ Untouched s t 1 [] ∧
      v &&& r.defined = s.turn.stored r &&& r.defined

/-- R73: store32 stores the word with the field semantics of R44, and touches no other register. -/
def Obligations.StoreCommandWritesTheWord : Prop :=
  ∀ (s : State) (off v : Word) (r : Reg), s.seq = .idle → off.toNat = r.offset →
    ∃ t, exec (.store32 off v) s = .next t ∧ Answered s t .ok [] [.store r] ∧ Untouched s t 1 [r] ∧
      ∀ k, ((r.mask .rw).getLsbD k = true → t.flag r k = v.getLsbD k) ∧
        ((r.mask .ro).getLsbD k = true → t.flag r k = s.turn.flag r k) ∧
        ((r.mask .w1c).getLsbD k = true → t.flag r k = (s.turn.flag r k && !v.getLsbD k))

/-- R74, R133: readModifyWriteBit changes one `RW` bit and keeps the others; a `W1C` flag that its load saw set is written back as 1 and so cleared; a bit index above 31 makes no access. -/
def Obligations.RawReadModifyWriteChangesOneBit : Prop :=
  ∀ (s : State) (off index : Word) (b : Bool) (r : Reg), s.seq = .idle → off.toNat = r.offset →
    (index.toNat ≤ 31 →
      ∃ t, exec (.readModifyWriteBit off index b) s = .next t ∧ Answered s t .ok [] [.load r, .store r] ∧
        Untouched s t 2 [r] ∧
        ∀ k, ((r.mask .rw).getLsbD k = true → t.flag r k = if k = index.toNat then b else s.flag r k) ∧
          ((r.mask .ro).getLsbD k = true → t.flag r k = (s.turns 2).flag r k) ∧
          ((r.mask .w1c).getLsbD k = true →
            t.flag r k = ((s.turns 2).flag r k && !(if k = index.toNat then b else (s.turns 1).flag r k)))) ∧
    (index.toNat > 31 → exec (.readModifyWriteBit off index b) s = .next (s.begin.finish .ok []))

/-! ## Clock tree (R75 to R80) -/

/-- R75, R76: setClockGate and setClockBypass change the one bit of their channel in `PCGR`; every other gate and bypass bit is written back as read. -/
def Obligations.GateAndBypassChangeTheirBit : Prop :=
  (∀ b, ChecksChannel 0x10 fun ch => .setClockGate ch b) ∧ (∀ b, ChecksChannel 0x11 fun ch => .setClockBypass ch b) ∧
  ∀ (s : State) (ch : Word) (c : Channel) (b : Bool), s.seq = .idle → ch.toInt = c.val →
    (∃ t, exec (.setClockGate ch b) s = .next t ∧ Answered s t .ok [] [.load .pcgr, .store .pcgr] ∧
      Untouched s t 2 [.pcgr] ∧
      ∀ d : Channel, t.flag .pcgr (pcgrGate d) = (if d = c then b else s.flag .pcgr (pcgrGate d)) ∧
        t.flag .pcgr (pcgrByp d) = s.flag .pcgr (pcgrByp d)) ∧
    (∃ t, exec (.setClockBypass ch b) s = .next t ∧ Answered s t .ok [] [.load .pcgr, .store .pcgr] ∧
      Untouched s t 2 [.pcgr] ∧
      ∀ d : Channel, t.flag .pcgr (pcgrByp d) = (if d = c then b else s.flag .pcgr (pcgrByp d)) ∧
        t.flag .pcgr (pcgrGate d) = s.flag .pcgr (pcgrGate d))

/-- R77: configureClock stores source and divider index into the word of the channel's pair (its `RES` bits have no storage: log 5); a source above 1 or a divider index above 8 raises InvalidArgument with no access. -/
def Obligations.ConfigureClockWritesThePairWord : Prop :=
  (∀ source divider, ChecksChannel 0x12 fun ch => .configureClock ch source divider) ∧
  ∀ (s : State) (ch source divider : Word) (c : Channel), s.seq = .idle → ch.toInt = c.val →
    (source.toNat ≤ 1 → divider.toNat ≤ 8 →
      ∃ t, exec (.configureClock ch source divider) s = .next t ∧ Answered s t .ok [] [.store (.pccr c.pair)] ∧
        Untouched s t 1 [.pccr c.pair] ∧
        t.source c.pair = decide (source.toNat = 1) ∧ (t.divider c.pair).toNat = divider.toNat) ∧
    (source.toNat > 1 ∨ divider.toNat > 8 →
      exec (.configureClock ch source divider) s = .next (s.begin.finish .invalidArgument []))

/-- R78: readClockConfig returns the pair's source and divider index, or raises InvalidArgument after the load when the nibble is 9..15. -/
def Obligations.ReadClockConfigDecodesThePairWord : Prop :=
  (ChecksOutput 0x13 fun ch dst => .readClockConfig ch dst) ∧
  ∀ (s : State) (ch : Word) (c : Channel), s.seq = .idle → ch.toInt = c.val →
    ((s.divider c.pair).toNat ≤ 8 →
      ∃ t, exec (.readClockConfig ch true) s = .next t ∧ Untouched s t 1 [] ∧
        Answered s t .ok [.src (if s.source c.pair then 1 else 0), .div ((s.divider c.pair).setWidth 32)]
          [.load (.pccr c.pair)]) ∧
    ((s.divider c.pair).toNat > 8 →
      ∃ t, exec (.readClockConfig ch true) s = .next t ∧ Untouched s t 1 [] ∧
        Answered s t .invalidArgument [] [.load (.pccr c.pair)])

/-- R78 (round trip), R125: after a configureClock on one channel, readClockConfig on that channel and on its pair partner returns exactly what was configured. -/
def Obligations.ClockRoundTripReachesThePartner : Prop :=
  ∀ (s t : State) (ch ch' source divider : Word) (c : Channel), s.seq = .idle → ch.toInt = c.val →
    (ch'.toInt = c.val ∨ ch'.toInt = c.partner.val) → source.toNat ≤ 1 → divider.toNat ≤ 8 →
    exec (.configureClock ch source divider) s = .next t →
    ∃ u, exec (.readClockConfig ch' true) t = .next u ∧ u.response = some ⟨.ok, [.src source, .div divider]⟩

/-- R79, R80, R85: setPrescaler writes the prescaler byte and keeps the active-state bit, readPrescaler returns the byte, setPolarity changes the active-state bit and keeps the byte. Nothing is said of the `RES` bits, which have no storage in the model (log 5). -/
def Obligations.PrescalerAndPolarityShareTheControlWord : Prop :=
  (∀ p, ChecksChannel 0x14 fun ch => .setPrescaler ch p) ∧ (ChecksOutput 0x15 fun ch dst => .readPrescaler ch dst) ∧
  (∀ b, ChecksChannel 0x24 fun ch => .setPolarity ch b) ∧
  ∀ (s : State) (ch : Word) (c : Channel), s.seq = .idle → ch.toInt = c.val →
    (∀ p : Byte, ∃ t, exec (.setPrescaler ch p) s = .next t ∧ Answered s t .ok [] [.load (.pcr c), .store (.pcr c)] ∧
      Untouched s t 2 [.pcr c] ∧ t.prescaler c = p ∧ t.flag (.pcr c) pcrActSta = s.flag (.pcr c) pcrActSta) ∧
    (∃ t, exec (.readPrescaler ch true) s = .next t ∧ Answered s t .ok [.presc (s.prescaler c)] [.load (.pcr c)] ∧
      Untouched s t 1 []) ∧
    (∀ b : Bool, ∃ t, exec (.setPolarity ch b) s = .next t ∧
      Answered s t .ok [] [.load (.pcr c), .store (.pcr c)] ∧ Untouched s t 2 [.pcr c] ∧
      t.flag (.pcr c) pcrActSta = b ∧ t.prescaler c = s.prescaler c)

/-! ## PWM (R81 to R85) -/

/-- R81, R84: isEnabled returns the channel's enable bit, getPeriod both halves of the period word as stored, without checking them; what a setPeriod has stored, getPeriod reproduces. -/
def Obligations.EnableAndPeriodAreReadBack : Prop :=
  (ChecksOutput 0x20 fun ch dst => .isEnabled ch dst) ∧ (ChecksOutput 0x23 fun ch dst => .getPeriod ch dst) ∧
  ∀ (s : State) (ch : Word) (c : Channel), s.seq = .idle → ch.toInt = c.val →
    (∃ t, exec (.isEnabled ch true) s = .next t ∧ Answered s t .ok [.bool (s.flag .per (perEn c))] [.load .per] ∧
      Untouched s t 1 []) ∧
    (∃ t, exec (.getPeriod ch true) s = .next t ∧
      Answered s t .ok [.cyc16 (s.entire c), .cyc16 (s.active c)] [.load (.ppr c)] ∧ Untouched s t 1 []) ∧
    (∀ (entire active : Half) (t : State), active.toNat ≤ entire.toNat → exec (.setPeriod ch entire active) s = .next t →
      ∃ u, exec (.getPeriod ch true) t = .next u ∧ u.response = some ⟨.ok, [.cyc16 entire, .cyc16 active]⟩)

/-- R82, the opcode, the channel check, and enabling: "Enabling simply sets the bit", with no check of the capture mode. -/
def Obligations.EnablingSetsTheBit : Prop :=
  (∀ b, ChecksChannel 0x21 fun ch => .setEnabled ch b) ∧
  ∀ (s : State) (ch : Word) (c : Channel), s.seq = .idle → ch.toInt = c.val →
    ∃ t, exec (.setEnabled ch true) s = .next t ∧ Answered s t .ok [] [.load .per, .store .per] ∧ Untouched s t 2 [.per] ∧
      ∀ d : Channel, t.flag .per (perEn d) = (decide (d = c) || s.flag .per (perEn d))

/-- R82, disabling: if the counter word reads 0 or the channel is not enabled, the bit is cleared at once, with no sleep; otherwise nothing is stored and the command sleeps at the head of its loop. -/
def Obligations.DisablingWaitsForThePulseCounter : Prop :=
  ∀ (s : State) (ch : Word) (c : Channel), s.seq = .idle → ch.toInt = c.val →
    (s.flag .per (perEn c) = false ∨ s.turn.stored (.ppcntr c) = 0 →
      ∃ t, exec (.setEnabled ch false) s = .next t ∧
        Answered s t .ok [] [.load (.ppcntr c), .load .per, .load .per, .store .per] ∧ Untouched s t 4 [.per] ∧
        ∀ d : Channel, t.flag .per (perEn d) = (!decide (d = c) && s.flag .per (perEn d))) ∧
    (s.flag .per (perEn c) = true → s.turn.stored (.ppcntr c) ≠ 0 →
      ∃ t, exec (.setEnabled ch false) s = .next t ∧ Untouched s t 2 [] ∧
        Waiting s t (.setEnabled ch false) (linesSetEnabled c false) Config.disablePoll [.load (.ppcntr c), .load .per])

/-- R121, R82: while the Peripheral stays quiet with a non-zero counter, an enabled channel's disable never answers, however many steps are run, and its enable bit stays 1. -/
def Obligations.DisableOfARunningChannelHangs : Prop :=
  ∀ (s t : State) (ch : Word) (c : Channel) (n : Nat), s.seq = .idle → ch.toInt = c.val → s.quiet →
    s.flag .per (perEn c) = true → s.stored (.ppcntr c) ≠ 0 → exec (.setEnabled ch false) s = .next t →
    ∃ u, Host.Core.run Sys2Proof.core n t = .next u ∧ u.response = none ∧ u.flag .per (perEn c) = true

/-- R83: setPeriod stores both cycle counts in one word, and raises InvalidArgument with no access when active exceeds entire. -/
def Obligations.SetPeriodEncodesBothHalves : Prop :=
  (∀ entire active, ChecksChannel 0x22 fun ch => .setPeriod ch entire active) ∧
  ∀ (s : State) (ch : Word) (c : Channel) (entire active : Half), s.seq = .idle → ch.toInt = c.val →
    (active.toNat ≤ entire.toNat →
      ∃ t, exec (.setPeriod ch entire active) s = .next t ∧ Answered s t .ok [] [.store (.ppr c)] ∧
        Untouched s t 1 [.ppr c] ∧ t.entire c = entire ∧ t.active c = active) ∧
    (active.toNat > entire.toNat →
      exec (.setPeriod ch entire active) s = .next (s.begin.finish .invalidArgument []))

/-! ## Capture (R86 to R94) -/

/-- R86: setCaptureEnable sets the enable bit to the OR of the edges and each arm bit to its edge, and clears no flag; what else the window shows is what the Peripheral leaves, with the
channel's own counts, flags and pending bits depending on the arming; while the Peripheral is quiet nothing else changes. -/
def Obligations.SetCaptureEnableArmsTheEdges : Prop :=
  (∀ rising falling, ChecksChannel 0x30 fun ch => .setCaptureEnable ch rising falling) ∧
  ∀ (s : State) (ch : Word) (c : Channel) (rising falling : Bool), s.seq = .idle → ch.toInt = c.val →
    ∃ t, exec (.setCaptureEnable ch rising falling) s = .next t ∧
      Answered s t .ok [] [.load .cer, .store .cer, .load (.ccr c), .store (.ccr c), .load (.ccr c), .store (.ccr c)] ∧
      (∀ d : Channel, t.flag .cer (cerEn d) = if d = c then rising || falling else s.flag .cer (cerEn d)) ∧
      t.flag (.ccr c) ccrRiseArm = rising ∧ t.flag (.ccr c) ccrFallArm = falling ∧
      KeepsRw s t [.cer, .ccr c] ∧ Untouched s t 6 [.cer, .ccr c, .cisr, .crlr c, .cflr c] ∧
      (∀ (r : Reg) (k : Nat), (r.mask .w1c).getLsbD k = true → s.flag r k = true → t.flag r k = true) ∧
      (s.quiet → Untouched s t 0 [.cer, .ccr c] ∧
        t.flag (.ccr c) ccrRlf = s.flag (.ccr c) ccrRlf ∧ t.flag (.ccr c) ccrFlf = s.flag (.ccr c) ccrFlf)

/-- R87: setCaptureInterruptEnable changes the two enable bits of its channel in `CIER`, and neither `CER` nor `CCR`. -/
def Obligations.SetCaptureInterruptEnableChangesCier : Prop :=
  (∀ rising falling, ChecksChannel 0x31 fun ch => .setCaptureInterruptEnable ch rising falling) ∧
  ∀ (s : State) (ch : Word) (c : Channel) (rising falling : Bool), s.seq = .idle → ch.toInt = c.val →
    ∃ t, exec (.setCaptureInterruptEnable ch rising falling) s = .next t ∧
      Answered s t .ok [] [.load .cier, .store .cier, .load .cier, .store .cier] ∧ Untouched s t 4 [.cier] ∧
      ∀ d : Channel, t.flag .cier (cierRise d) = (if d = c then rising else s.flag .cier (cierRise d)) ∧
        t.flag .cier (cierFall d) = (if d = c then falling else s.flag .cier (cierFall d))

/-- R88: clearCaptureInterrupt makes the accesses of the requested edges, rising first, keeps every `RW` field, keeps every flag that was not requested, and leaves every other
register as the Peripheral's turns alone leave it; while the Peripheral is quiet it clears exactly the requested flags. -/
def Obligations.ClearCaptureInterruptClearsOnlyWhatIsRequested : Prop :=
  (∀ rising falling, ChecksChannel 0x32 fun ch => .clearCaptureInterrupt ch rising falling) ∧
  ∀ (s : State) (ch : Word) (c : Channel) (rising falling : Bool), s.seq = .idle → ch.toInt = c.val →
    ∃ t, exec (.clearCaptureInterrupt ch rising falling) s = .next t ∧
      Answered s t .ok []
        ((if rising then [.store .cisr, .load (.ccr c), .store (.ccr c)] else [])
          ++ (if falling then [.store .cisr, .load (.ccr c), .store (.ccr c)] else [])) ∧
      KeepsRw s t [] ∧ Untouched s t ((if rising then 3 else 0) + if falling then 3 else 0) [.cisr, .ccr c] ∧
      (∀ k, k < 16 → ¬(rising = true ∧ k = cisrRise c) → ¬(falling = true ∧ k = cisrFall c) →
        s.flag .cisr k = true → t.flag .cisr k = true) ∧
      (rising = false → s.flag (.ccr c) ccrRlf = true → t.flag (.ccr c) ccrRlf = true) ∧
      (falling = false → s.flag (.ccr c) ccrFlf = true → t.flag (.ccr c) ccrFlf = true) ∧
      (s.quiet →
        (∀ d : Channel, t.flag .cisr (cisrRise d) = (!(rising && decide (d = c)) && s.flag .cisr (cisrRise d)) ∧
          t.flag .cisr (cisrFall d) = (!(falling && decide (d = c)) && s.flag .cisr (cisrFall d))) ∧
        t.flag (.ccr c) ccrRlf = (!rising && s.flag (.ccr c) ccrRlf) ∧
        t.flag (.ccr c) ccrFlf = (!falling && s.flag (.ccr c) ccrFlf))

/-- R89 to R93: the five capture reads return the pending bits, counts and lock flags as they stand at their one load, and clear nothing. -/
def Obligations.CaptureReadsReturnWhatTheLoadFinds : Prop :=
  (ChecksOutput 0x33 fun ch dst => .readCaptureInterruptStatus ch dst) ∧
  (ChecksOutput 0x34 fun ch dst => .readRiseLockCount ch dst) ∧
  (ChecksOutput 0x35 fun ch dst => .readFallLockCount ch dst) ∧
  (ChecksOutput 0x36 fun ch dst => .readRiseLockFlag ch dst) ∧
  (ChecksOutput 0x37 fun ch dst => .readFallLockFlag ch dst) ∧
  ∀ (s : State) (ch : Word) (c : Channel), s.seq = .idle → ch.toInt = c.val →
    (∃ t, exec (.readCaptureInterruptStatus ch true) s = .next t ∧ Untouched s t 1 [] ∧
      Answered s t .ok [.bool (s.turn.flag .cisr (cisrRise c)), .bool (s.turn.flag .cisr (cisrFall c))] [.load .cisr]) ∧
    (∃ t, exec (.readRiseLockCount ch true) s = .next t ∧ Untouched s t 1 [] ∧
      Answered s t .ok [.cyc16 (s.turn.riseCount c)] [.load (.crlr c)]) ∧
    (∃ t, exec (.readFallLockCount ch true) s = .next t ∧ Untouched s t 1 [] ∧
      Answered s t .ok [.cyc16 (s.turn.fallCount c)] [.load (.cflr c)]) ∧
    (∃ t, exec (.readRiseLockFlag ch true) s = .next t ∧ Untouched s t 1 [] ∧
      Answered s t .ok [.bool (s.turn.flag (.ccr c) ccrRlf)] [.load (.ccr c)]) ∧
    (∃ t, exec (.readFallLockFlag ch true) s = .next t ∧ Untouched s t 1 [] ∧
      Answered s t .ok [.bool (s.turn.flag (.ccr c) ccrFlf)] [.load (.ccr c)])

/-! ## Composition (R95 to R104) -/

/-- R95, enabling with legal operands: gate, clock, period, prescaler, polarity and enable are written, by accesses in exactly that order, and no other field changes. -/
def Obligations.ApplyPwmConfigEnablesInOrder : Prop :=
  ∀ (s : State) (ch source divider : Word) (c : Channel) (p : Byte) (entire active : Half) (polarity : Bool),
    s.seq = .idle → ch.toInt = c.val → source.toNat ≤ 1 → divider.toNat ≤ 8 → active.toNat ≤ entire.toNat →
    ∃ t, exec (.applyPwmConfig ch source divider p entire active polarity true) s = .next t ∧
      Answered s t .ok []
        [.load .pcgr, .store .pcgr, .store (.pccr c.pair), .store (.ppr c), .load (.pcr c), .store (.pcr c),
          .load (.pcr c), .store (.pcr c), .load .per, .store .per] ∧
      Untouched s t 10 [.pcgr, .pccr c.pair, .ppr c, .pcr c, .per] ∧
      (∀ d : Channel, t.flag .pcgr (pcgrGate d) = (decide (d = c) || s.flag .pcgr (pcgrGate d)) ∧
        t.flag .pcgr (pcgrByp d) = s.flag .pcgr (pcgrByp d) ∧
        t.flag .per (perEn d) = (decide (d = c) || s.flag .per (perEn d))) ∧
      t.source c.pair = decide (source.toNat = 1) ∧ (t.divider c.pair).toNat = divider.toNat ∧
      t.entire c = entire ∧ t.active c = active ∧ t.prescaler c = p ∧ t.flag (.pcr c) pcrActSta = polarity

/-- R95, disabling with legal operands: when the disable need not wait, the reverse order (D30), the enable bit cleared first and the gate last; otherwise, whatever the operands, the command sleeps at the head of the disable loop with nothing stored. -/
def Obligations.ApplyPwmConfigDisablesInReverseOrder : Prop :=
  ∀ (s : State) (ch source divider : Word) (c : Channel) (p : Byte) (entire active : Half) (polarity : Bool),
    s.seq = .idle → ch.toInt = c.val →
    (source.toNat ≤ 1 → divider.toNat ≤ 8 → active.toNat ≤ entire.toNat →
      (s.flag .per (perEn c) = false ∨ s.turn.stored (.ppcntr c) = 0) →
      ∃ t, exec (.applyPwmConfig ch source divider p entire active polarity false) s = .next t ∧
        Answered s t .ok []
          [.load (.ppcntr c), .load .per, .load .per, .store .per, .load (.pcr c), .store (.pcr c), .load (.pcr c),
            .store (.pcr c), .store (.ppr c), .store (.pccr c.pair), .load .pcgr, .store .pcgr] ∧
        Untouched s t 12 [.per, .pcr c, .ppr c, .pccr c.pair, .pcgr] ∧
        (∀ d : Channel, t.flag .pcgr (pcgrGate d) = (!decide (d = c) && s.flag .pcgr (pcgrGate d)) ∧
          t.flag .pcgr (pcgrByp d) = s.flag .pcgr (pcgrByp d) ∧
          t.flag .per (perEn d) = (!decide (d = c) && s.flag .per (perEn d))) ∧
        t.source c.pair = decide (source.toNat = 1) ∧ (t.divider c.pair).toNat = divider.toNat ∧
        t.entire c = entire ∧ t.active c = active ∧ t.prescaler c = p ∧ t.flag (.pcr c) pcrActSta = polarity) ∧
    (s.flag .per (perEn c) = true → s.turn.stored (.ppcntr c) ≠ 0 →
      ∃ t, exec (.applyPwmConfig ch source divider p entire active polarity false) s = .next t ∧ Untouched s t 2 [] ∧
        Waiting s t (.applyPwmConfig ch source divider p entire active polarity false)
          (linesApplyPwmConfig c source divider p entire active polarity false) Config.disablePoll
          [.load (.ppcntr c), .load .per])

/-- R109, R110, R132: an applyPwmConfig that fails midway keeps exactly the writes of the steps before the failing one: on the enabling path the gate, or gate and clock; on the disabling path
enable, polarity and prescaler, or those and the period. -/
def Obligations.FailedApplyPwmConfigLeavesAMixedState : Prop :=
  ∀ (s : State) (ch source divider : Word) (c : Channel) (p : Byte) (entire active : Half) (polarity : Bool),
    s.seq = .idle → ch.toInt = c.val →
    (source.toNat > 1 ∨ divider.toNat > 8 →
      ∃ t, exec (.applyPwmConfig ch source divider p entire active polarity true) s = .next t ∧
        Answered s t .invalidArgument [] [.load .pcgr, .store .pcgr] ∧ Untouched s t 2 [.pcgr] ∧
        ∀ d : Channel, t.flag .pcgr (pcgrGate d) = (decide (d = c) || s.flag .pcgr (pcgrGate d)) ∧
          t.flag .pcgr (pcgrByp d) = s.flag .pcgr (pcgrByp d)) ∧
    (source.toNat ≤ 1 → divider.toNat ≤ 8 → active.toNat > entire.toNat →
      ∃ t, exec (.applyPwmConfig ch source divider p entire active polarity true) s = .next t ∧
        Answered s t .invalidArgument [] [.load .pcgr, .store .pcgr, .store (.pccr c.pair)] ∧
        Untouched s t 3 [.pcgr, .pccr c.pair] ∧
        (∀ d : Channel, t.flag .pcgr (pcgrGate d) = (decide (d = c) || s.flag .pcgr (pcgrGate d)) ∧
          t.flag .pcgr (pcgrByp d) = s.flag .pcgr (pcgrByp d)) ∧
        t.source c.pair = decide (source.toNat = 1) ∧ (t.divider c.pair).toNat = divider.toNat) ∧
    (s.flag .per (perEn c) = false ∨ s.turn.stored (.ppcntr c) = 0 → active.toNat > entire.toNat →
      ∃ t, exec (.applyPwmConfig ch source divider p entire active polarity false) s = .next t ∧
        Answered s t .invalidArgument []
          [.load (.ppcntr c), .load .per, .load .per, .store .per, .load (.pcr c), .store (.pcr c), .load (.pcr c),
            .store (.pcr c)] ∧
        Untouched s t 8 [.per, .pcr c] ∧
        (∀ d : Channel, t.flag .per (perEn d) = (!decide (d = c) && s.flag .per (perEn d))) ∧
        t.prescaler c = p ∧ t.flag (.pcr c) pcrActSta = polarity) ∧
    (s.flag .per (perEn c) = false ∨ s.turn.stored (.ppcntr c) = 0 → active.toNat ≤ entire.toNat →
      (source.toNat > 1 ∨ divider.toNat > 8) →
      ∃ t, exec (.applyPwmConfig ch source divider p entire active polarity false) s = .next t ∧
        Answered s t .invalidArgument []
          [.load (.ppcntr c), .load .per, .load .per, .store .per, .load (.pcr c), .store (.pcr c), .load (.pcr c),
            .store (.pcr c), .store (.ppr c)] ∧
        Untouched s t 9 [.per, .pcr c, .ppr c] ∧
        (∀ d : Channel, t.flag .per (perEn d) = (!decide (d = c) && s.flag .per (perEn d))) ∧
        t.prescaler c = p ∧ t.flag (.pcr c) pcrActSta = polarity ∧ t.entire c = entire ∧ t.active c = active)

/-- R96: readPwmConfig returns source, divider index, prescaler, entire, active and enable (no polarity) from four loads in that order, and raises InvalidArgument after the first load when the divider index is above 8. -/
def Obligations.ReadPwmConfigReturnsTheSixFields : Prop :=
  (ChecksOutput 0x41 fun ch dst => .readPwmConfig ch dst) ∧
  ∀ (s : State) (ch : Word) (c : Channel), s.seq = .idle → ch.toInt = c.val →
    ((s.divider c.pair).toNat ≤ 8 →
      ∃ t, exec (.readPwmConfig ch true) s = .next t ∧ Untouched s t 4 [] ∧
        Answered s t .ok
          [.src (if s.source c.pair then 1 else 0), .div ((s.divider c.pair).setWidth 32), .presc (s.prescaler c),
            .cyc16 (s.entire c), .cyc16 (s.active c), .bool (s.flag .per (perEn c))]
          [.load (.pccr c.pair), .load (.pcr c), .load (.ppr c), .load .per]) ∧
    ((s.divider c.pair).toNat > 8 →
      ∃ t, exec (.readPwmConfig ch true) s = .next t ∧ Untouched s t 1 [] ∧
        Answered s t .invalidArgument [] [.load (.pccr c.pair)])

/-- R97: setDutyPercent replaces the active cycles by floor(entire * percent / 100) and keeps the entire cycles; a percent outside 0..100, as int32, raises InvalidArgument with no access. -/
def Obligations.SetDutyPercentScalesTheEntireCycles : Prop :=
  (∀ percent, ChecksChannel 0x42 fun ch => .setDutyPercent ch percent) ∧
  ∀ (s : State) (ch percent : Word) (c : Channel), s.seq = .idle → ch.toInt = c.val →
    (∀ p : Nat, percent.toInt = p → p ≤ 100 →
      ∃ t, exec (.setDutyPercent ch percent) s = .next t ∧ Answered s t .ok [] [.load (.ppr c), .store (.ppr c)] ∧
        Untouched s t 2 [.ppr c] ∧ t.entire c = s.entire c ∧ (t.active c).toNat = (s.entire c).toNat * p / 100) ∧
    (percent.toInt < 0 ∨ percent.toInt > 100 →
      exec (.setDutyPercent ch percent) s = .next (s.begin.finish .invalidArgument []))

/-- R98 on a channel whose PWM mode is off, with legal operands: gate only if both edges are requested (R131), clock, prescaler, arming, and both edges cleared; the other channels' pending bits are kept, and while the Peripheral is quiet both edges' flags are 0 at the end. -/
def Obligations.ApplyCaptureConfigArmsAndClears : Prop :=
  ∀ (s : State) (ch source divider : Word) (c : Channel) (p : Byte) (rising falling : Bool),
    s.seq = .idle → ch.toInt = c.val → source.toNat ≤ 1 → divider.toNat ≤ 8 → s.flag .per (perEn c) = false →
    ∃ t, exec (.applyCaptureConfig ch source divider p rising falling) s = .next t ∧
      Answered s t .ok []
        [.load .per, .load .pcgr, .store .pcgr, .store (.pccr c.pair), .load (.pcr c), .store (.pcr c), .load .cer,
          .store .cer, .load (.ccr c), .store (.ccr c), .load (.ccr c), .store (.ccr c), .store .cisr, .load (.ccr c),
          .store (.ccr c), .store .cisr, .load (.ccr c), .store (.ccr c)] ∧
      KeepsRw s t [.pcgr, .pccr c.pair, .pcr c, .cer, .ccr c] ∧
      Untouched s t 18 [.pcgr, .pccr c.pair, .pcr c, .cer, .ccr c, .cisr, .crlr c, .cflr c] ∧
      (∀ k, k < 16 → k ≠ cisrRise c → k ≠ cisrFall c → s.flag .cisr k = true → t.flag .cisr k = true) ∧
      (∀ d : Channel,
        t.flag .pcgr (pcgrGate d) = (if d = c then rising && falling else s.flag .pcgr (pcgrGate d)) ∧
        t.flag .pcgr (pcgrByp d) = s.flag .pcgr (pcgrByp d) ∧
        t.flag .cer (cerEn d) = (if d = c then rising || falling else s.flag .cer (cerEn d))) ∧
      t.source c.pair = decide (source.toNat = 1) ∧ (t.divider c.pair).toNat = divider.toNat ∧ t.prescaler c = p ∧
      t.flag (.pcr c) pcrActSta = s.flag (.pcr c) pcrActSta ∧
      t.flag (.ccr c) ccrRiseArm = rising ∧ t.flag (.ccr c) ccrFallArm = falling ∧
      (s.quiet → t.flag (.ccr c) ccrRlf = false ∧ t.flag (.ccr c) ccrFlf = false ∧
        (∀ d : Channel, t.flag .cisr (cisrRise d) = (!decide (d = c) && s.flag .cisr (cisrRise d)) ∧
          t.flag .cisr (cisrFall d) = (!decide (d = c) && s.flag .cisr (cisrFall d))) ∧
        Untouched s t 0 [.pcgr, .pccr c.pair, .pcr c, .cer, .ccr c, .cisr])

/-- R98 turned away: with PWM mode on it answers Busy after one load, whatever the other operands are, and writes nothing; with a source or divider out of range it answers InvalidArgument with the gate written. -/
def Obligations.ApplyCaptureConfigBusyWritesNothing : Prop :=
  ∀ (s : State) (ch source divider : Word) (c : Channel) (p : Byte) (rising falling : Bool),
    s.seq = .idle → ch.toInt = c.val →
    (s.flag .per (perEn c) = true →
      ∃ t, exec (.applyCaptureConfig ch source divider p rising falling) s = .next t ∧
        Answered s t .busy [] [.load .per] ∧ Untouched s t 1 []) ∧
    (s.flag .per (perEn c) = false → (source.toNat > 1 ∨ divider.toNat > 8) →
      ∃ t, exec (.applyCaptureConfig ch source divider p rising falling) s = .next t ∧
        Answered s t .invalidArgument [] [.load .per, .load .pcgr, .store .pcgr] ∧ Untouched s t 3 [.pcgr] ∧
        t.flag .pcgr (pcgrGate c) = (rising && falling))

/-- R99: captureBlocking answers with the fall count as "on" and the rise count as "off", read after both flags were seen set and before the clear, which keeps the other channels' pending bits; otherwise it sleeps at the head of its loop with nothing stored. -/
def Obligations.CaptureBlockingReadsBothCounts : Prop :=
  ∀ (s : State) (ch : Word) (c : Channel), s.seq = .idle → ch.toInt = c.val →
    (s.turn.flag (.ccr c) ccrFlf = true → (s.turns 2).flag (.ccr c) ccrRlf = true →
      ∃ t, exec (.captureBlocking ch true) s = .next t ∧
        Answered s t .ok [.cyc16 ((s.turns 3).fallCount c), .cyc16 ((s.turns 4).riseCount c)]
          [.load (.ccr c), .load (.ccr c), .load (.cflr c), .load (.crlr c), .store .cisr, .load (.ccr c),
            .store (.ccr c), .store .cisr, .load (.ccr c), .store (.ccr c)] ∧
        KeepsRw s t [] ∧ Untouched s t 10 [.cisr, .ccr c] ∧
        (∀ k, k < 16 → k ≠ cisrRise c → k ≠ cisrFall c → s.flag .cisr k = true → t.flag .cisr k = true) ∧
        (s.quiet → t.flag (.ccr c) ccrRlf = false ∧ t.flag (.ccr c) ccrFlf = false ∧
          ∀ d : Channel, t.flag .cisr (cisrRise d) = (!decide (d = c) && s.flag .cisr (cisrRise d)) ∧
            t.flag .cisr (cisrFall d) = (!decide (d = c) && s.flag .cisr (cisrFall d)))) ∧
    (s.turn.flag (.ccr c) ccrFlf = false ∨ (s.turns 2).flag (.ccr c) ccrRlf = false →
      ∃ t, exec (.captureBlocking ch true) s = .next t ∧ Untouched s t 2 [] ∧
        Waiting s t (.captureBlocking ch true) (linesCaptureBlocking c) Config.capturePoll
          [.load (.ccr c), .load (.ccr c)])

/-- R94, C3: on a channel that is enabled and armed, a captureBlocking that finds both flags set takes the protocol from `BothLatched` back to `Armed`, while the Peripheral is quiet. -/
def Obligations.CaptureBlockingRearms : Prop :=
  ∀ (s t : State) (ch : Word) (c : Channel), s.seq = .idle → ch.toInt = c.val → s.quiet →
    s.captureMode c = true → (s.flag (.ccr c) ccrRiseArm = true ∨ s.flag (.ccr c) ccrFallArm = true) →
    CaptureState.bothLatched.holds s c = true → exec (.captureBlocking ch true) s = .next t →
    CaptureState.armed.holds t c = true

/-- R100: effectiveClockPeriodNs returns floor(10^9 * (1 + p) * 2^d / F(s)), between 10 and 2,730,666, with no access; a source or divider out of range raises InvalidArgument, `dst = 0` NullOutput before that. -/
def Obligations.EffectivePeriodIsTheExactFloor : Prop :=
  ∀ (s : State) (source divider : Word) (p : Byte), s.seq = .idle →
    (encode (.effectiveClockPeriodNs source divider p true)).opcode = 0x45 ∧
    exec (.effectiveClockPeriodNs source divider p false) s = .next (s.begin.finish .nullOutput []) ∧
    (source.toNat ≤ 1 → divider.toNat ≤ 8 →
      ∃ v : BitVec 64, exec (.effectiveClockPeriodNs source divider p true) s = .next (s.begin.finish .ok [.u64 v]) ∧
        v.toNat = 1000000000 * (1 + p.toNat) * 2 ^ divider.toNat / (if source.toNat = 0 then 24000000 else 100000000) ∧
        v.toNat = (if source.toNat = 0 then 125 * (1 + p.toNat) * 2 ^ divider.toNat / 3
          else 10 * (1 + p.toNat) * 2 ^ divider.toNat) ∧
        10 ≤ v.toNat ∧ v.toNat ≤ 2730666) ∧
    (source.toNat > 1 ∨ divider.toNat > 8 →
      exec (.effectiveClockPeriodNs source divider p true) s = .next (s.begin.finish .invalidArgument []))

/-- R101, R102: rawToNanoseconds multiplies both counts by the channel's live period, and maxCaptureDurationNs the count 65535, exactly (no product wraps), after loading `PCCR` and `PCR`; a divider index above 8
raises InvalidArgument after the load of `PCCR`. -/
def Obligations.RawCountsAreScaledExactly : Prop :=
  (∀ on off, ChecksOutput 0x46 fun ch dst => .rawToNanoseconds ch on off dst) ∧
  (ChecksOutput 0x47 fun ch dst => .maxCaptureDurationNs ch dst) ∧
  ∀ (s : State) (ch : Word) (c : Channel) (on off : Half), s.seq = .idle → ch.toInt = c.val →
    ((s.divider c.pair).toNat ≤ 8 →
      (∃ t x y, exec (.rawToNanoseconds ch on off true) s = .next t ∧ Untouched s t 2 [] ∧
        Answered s t .ok [.u64 x, .u64 y] [.load (.pccr c.pair), .load (.pcr c)] ∧
        x.toNat = on.toNat * periodNs (s.source c.pair).toNat (s.divider c.pair).toNat (s.prescaler c).toNat ∧
        y.toNat = off.toNat * periodNs (s.source c.pair).toNat (s.divider c.pair).toNat (s.prescaler c).toNat) ∧
      (∃ t x, exec (.maxCaptureDurationNs ch true) s = .next t ∧ Untouched s t 2 [] ∧
        Answered s t .ok [.u64 x] [.load (.pccr c.pair), .load (.pcr c)] ∧
        x.toNat = 65535 * periodNs (s.source c.pair).toNat (s.divider c.pair).toNat (s.prescaler c).toNat ∧
        x.toNat ≤ 178954196310)) ∧
    ((s.divider c.pair).toNat > 8 →
      ∀ i ∈ [Instr.rawToNanoseconds ch on off true, .maxCaptureDurationNs ch true],
        ∃ t, exec i s = .next t ∧ Answered s t .invalidArgument [] [.load (.pccr c.pair)] ∧ Untouched s t 1 [])

/-- R103: outputFrequencyHz returns floor(10^9 / (P * (E + 1))), at most 100,000,000, after loading `PCCR`, `PCR` and `PPR`; a divider index above 8 raises InvalidArgument after the load of `PCCR`. -/
def Obligations.OutputFrequencyIsTheExactFloor : Prop :=
  (ChecksOutput 0x48 fun ch dst => .outputFrequencyHz ch dst) ∧
  ∀ (s : State) (ch : Word) (c : Channel), s.seq = .idle → ch.toInt = c.val →
    ((s.divider c.pair).toNat ≤ 8 →
      ∃ t x, exec (.outputFrequencyHz ch true) s = .next t ∧ Untouched s t 3 [] ∧
        Answered s t .ok [.u64 x] [.load (.pccr c.pair), .load (.pcr c), .load (.ppr c)] ∧
        x.toNat = 1000000000 /
          (periodNs (s.source c.pair).toNat (s.divider c.pair).toNat (s.prescaler c).toNat * ((s.entire c).toNat + 1)) ∧
        x.toNat ≤ 100000000) ∧
    ((s.divider c.pair).toNat > 8 →
      ∃ t, exec (.outputFrequencyHz ch true) s = .next t ∧
        Answered s t .invalidArgument [] [.load (.pccr c.pair)] ∧ Untouched s t 1 [])

/-! ## Rules about every command -/

/-- R107: every command with a `ch` operand outside 0..7, as int32, answers InvalidChannel with no access at all; the four commands without a `ch` operand never answer it. -/
def Obligations.InvalidChannelIsCheckedFirst : Prop :=
  ∀ (s : State) (i : Instr),
    (∀ ch : Word, s.seq = .idle → i.chOperand = some ch → ¬(0 ≤ ch.toInt ∧ ch.toInt ≤ 7) →
      exec i s = .next (s.begin.finish .invalidChannel [])) ∧
    (i.chOperand = none → ∀ (t : State) (a : Response), exec i s = .next t → t.response = some a →
      a.code ≠ .invalidChannel)

/-- R71: a command has `dst` exactly when it has result values; with `dst = 0`, a valid channel (if it has one) and an admitted offset (if it has one) it answers NullOutput with no access at all;
a command without `dst` never answers it. -/
def Obligations.NullOutputComesBeforeAnyAccess : Prop :=
  ∀ (s : State) (i : Instr),
    (i.dstOperand = none ↔ i.resultTypes = []) ∧
    (s.seq = .idle → i.dstOperand = some false → (∀ ch, i.chOperand = some ch → 0 ≤ ch.toInt ∧ ch.toInt ≤ 7) →
      (∀ off, i.offOperand = some off → ∃ r : Reg, off.toNat = r.offset) →
      exec i s = .next (s.begin.finish .nullOutput [])) ∧
    (i.dstOperand = none → ∀ (t : State) (a : Response), exec i s = .next t → t.response = some a →
      a.code ≠ .nullOutput)

/-- R62, R120: an idle Core gives every command a next state, but for a raw command at an offset that is not admitted. -/
def Obligations.EveryIdleCommandGoesOn : Prop :=
  ∀ (s : State) (i : Instr), s.seq = .idle → (∀ off, i.offOperand = some off → ∃ r : Reg, off.toNat = r.offset) →
    ∃ t, exec i s = .next t ∧ t.inbox = s.inbox

/-- R62, R65, R106, R109: a response is OK with values of the command's result types, or an error that the command can raise, with no values. -/
def Obligations.ResponsesFollowTheTables : Prop :=
  ∀ (s t : State) (i : Instr) (a : Response), exec i s = .next t → t.response = some a →
    (a.code = .ok ∧ a.values.map Value.type = i.resultTypes) ∨ (a.code ∈ i.mayRaise ∧ a.values = [])

/-- R17, R45, R72 to R103, for every command, state and schedule: the only `RW` bits a command changes are those its rule writes. -/
def Obligations.CommandsChangeOnlyTheirOwnBits : Prop :=
  ∀ (s t : State) (i : Instr), exec i s = .next t → ∀ (r : Reg) (k : Nat),
    (r.mask .rw).getLsbD k = true → (i.mayWrite r).getLsbD k = false → t.flag r k = s.flag r k

/-- R37: no command but a raw writer, clearCaptureInterrupt, applyCaptureConfig and captureBlocking clears a status or lock flag, whatever the Peripheral does. -/
def Obligations.OnlyClearingCommandsClearFlags : Prop :=
  ∀ (s t : State) (i : Instr), exec i s = .next t → i.clearsFlags = false → ∀ (r : Reg) (k : Nat),
    (r.mask .w1c).getLsbD k = true → s.flag r k = true → t.flag r k = true

/-- R22, R27: no command but a raw writer makes a period register with active above entire or a pair register with a divider index above 8. -/
def Obligations.OnlyRawWritersMakeIllegalConfigurations : Prop :=
  ∀ (s t : State) (i : Instr), exec i s = .next t → i.rawWriter = false → s.legalConfig → t.legalConfig

/-! ## Invariants of the machine -/

/-- Every step keeps the window inside the registers (R13), canonical, and without storage for `RES` bits. The canonical form is the model's choice (log 8), and so is that a `RES` bit has no storage (log 5). -/
def Obligations.StepKeepsTheWindowInvariant : Prop := ∀ s t : State, s.Inv → step s = .next t → t.Inv

/-- R36, R121: only setEnabled 0, applyPwmConfig with enabled = 0 and captureBlocking ever sleep, at the head of their loop and unanswered, and every step keeps this. That between steps no command stands in `Run` is
the model's choice (log 7): R36 has `Run` between Core steps. -/
def Obligations.StepKeepsOnlyWaitersAsleep : Prop := ∀ s t : State, s.waitsOnly → step s = .next t → t.waitsOnly

/-- R36, R122: after reset the Core is `Idle` with nothing answered, and both invariants hold; the all-zero window is the model's choice for `INIT_WINDOW` (log 3). A reset of the Core alone changes nothing that the next command can observe. -/
def Obligations.ResetIsIdleAndMeetsTheInvariants : Prop :=
  State.reset.seq = .idle ∧ State.reset.response = none ∧ State.reset.Inv ∧ State.reset.waitsOnly ∧
    (∀ r : Reg, State.reset.stored r = 0) ∧
    ∀ (s : State) (i : Instr), s.seq = .idle → exec i s.resetCore = exec i s

/-! ## Access by access -/

/-- R8, R50, R52: one Core step of a running command makes at most one register access, changes no byte outside the accessed register beyond the Peripheral's turn before that access, and leaves the inbox alone. -/
def Obligations.CoreStepMakesAtMostOneAccess : Prop :=
  ∀ (s : State) (cmd : Instr) (line : List Line) (loc : Locals), s.seq = .run cmd line loc →
    (coreStep s).inbox = s.inbox ∧
    (((coreStep s).mem = s.mem ∧ accessCount (coreStep s).bus = accessCount s.bus) ∨
      (∃ r, (coreStep s).bus = s.bus ++ [.load r] ∧ (coreStep s).mem = s.turn.mem) ∨
      (∃ r, (coreStep s).bus = s.bus ++ [.store r] ∧
        ∀ a, (a < r.offset ∨ r.offset + 4 ≤ a) → (coreStep s).mem.readByte a = s.turn.mem.readByte a))

/-- The step of a running command is its Core steps one after another, one line each (R52), until the Core is `Idle` or `Sleeping`. That a step is Core steps in a row is the model's choice (log 7). -/
def Obligations.StepIsTheCoreStepsInARow : Prop :=
  ∀ (s : State) (cmd : Instr) (line : List Line) (loc : Locals), s.seq = .run cmd line loc →
    ∃ n, n ≤ line.length + 1 ∧ step s = .next (coreSteps n s) ∧
      ∀ cmd' line' loc', (coreSteps n s).seq ≠ .run cmd' line' loc'

/-- R128: in every state along an applyPwmConfig with enabled = 0, access by access and sleep by sleep, a channel that is still enabled still has its clock, if it had it at the start. -/
def Obligations.DisableNeverStopsTheClockOfAnEnabledChannel : Prop :=
  ∀ (s : State) (ch source divider : Word) (c : Channel) (p : Byte) (entire active : Half) (polarity : Bool) (n : Nat),
    s.flag .pcgr (pcgrGate c) = true →
    (coreSteps n (s.started (.applyPwmConfig ch source divider p entire active polarity false)
      (linesApplyPwmConfig c source divider p entire active polarity false))).flag .per (perEn c) = true →
    (coreSteps n (s.started (.applyPwmConfig ch source divider p entire active polarity false)
      (linesApplyPwmConfig c source divider p entire active polarity false))).flag .pcgr (pcgrGate c) = true

/-- R127: in every state along an applyPwmConfig with enabled = 1 on a disabled channel, access by access, an enable bit that is 1 comes after every other write: gate, source and divider, period, prescaler and polarity. -/
def Obligations.EnableBitIsSetLast : Prop :=
  ∀ (s u : State) (ch source divider : Word) (c : Channel) (p : Byte) (entire active : Half) (polarity : Bool) (n : Nat),
    s.flag .per (perEn c) = false →
    u = coreSteps n (s.started (.applyPwmConfig ch source divider p entire active polarity true)
      (linesApplyPwmConfig c source divider p entire active polarity true)) →
    u.flag .per (perEn c) = true →
    u.flag .pcgr (pcgrGate c) = true ∧ u.source c.pair = decide (source.toNat = 1) ∧ (u.divider c.pair).toNat = divider.toNat ∧ u.entire c = entire ∧
      u.active c = active ∧ u.prescaler c = p ∧ u.flag (.pcr c) pcrActSta = polarity
end

