-- ==== Sys2Proof/Laws/Decode.lean ====
section
/-! SUPPORT. The operand readers: what they make of an encoded slot, and what each accepts. -/

namespace Sys2Proof

/-! ## Reading what the encoder writes -/

@[simp] theorem takeWord_cons (op : Byte) (name : String) (v : Word) (rest : List Word) :
    takeWord op name (v :: rest) = .ok (v, rest) := rfl

@[simp] theorem takeBit_bitSlot (op : Byte) (name : String) (b : Bool) (rest : List Word) :
    takeBit op name (bitSlot b :: rest) = .ok (b, rest) := by cases b <;> rfl

@[simp] theorem takeHalf_halfSlot (op : Byte) (name : String) (h : Half) (rest : List Word) :
    takeHalf op name (halfSlot h :: rest) = .ok (h, rest) := by
  have : h.toNat % 4294967296 < 65536 := by omega
  simp [takeHalf, halfSlot, this]

@[simp] theorem takeByte_byteSlot (op : Byte) (name : String) (p : Byte) (rest : List Word) :
    takeByte op name (byteSlot p :: rest) = .ok (p, rest) := by
  have : p.toNat % 4294967296 < 256 := by omega
  simp [takeByte, byteSlot, this]

@[simp] theorem endOfRecord_nil (op : Byte) (i : Instr) : endOfRecord op i [] = .ok i := rfl

/-! ## An encoded slot lies inside its type -/

theorem admits_of_width_32 (t : OperandType) (v : Word) (h : t.width = 32) : t.admits v = true := by
  have := v.isLt
  simp only [OperandType.admits, h, decide_eq_true_eq]
  exact this

theorem admits_bitSlot (t : OperandType) (b : Bool) (h : t.width = 1) : t.admits (bitSlot b) = true := by
  cases b <;> simp [OperandType.admits, h, bitSlot]

@[simp] theorem admits_ch (v : Word) : OperandType.ch.admits v = true := admits_of_width_32 _ v rfl
@[simp] theorem admits_off (v : Word) : OperandType.off.admits v = true := admits_of_width_32 _ v rfl
@[simp] theorem admits_word (v : Word) : OperandType.word.admits v = true := admits_of_width_32 _ v rfl
@[simp] theorem admits_bitidx (v : Word) : OperandType.bitidx.admits v = true := admits_of_width_32 _ v rfl
@[simp] theorem admits_src (v : Word) : OperandType.src.admits v = true := admits_of_width_32 _ v rfl
@[simp] theorem admits_div (v : Word) : OperandType.div.admits v = true := admits_of_width_32 _ v rfl
@[simp] theorem admits_pct (v : Word) : OperandType.pct.admits v = true := admits_of_width_32 _ v rfl
@[simp] theorem admits_bool_bitSlot (b : Bool) : OperandType.bool.admits (bitSlot b) = true := admits_bitSlot _ b rfl
@[simp] theorem admits_pol_bitSlot (b : Bool) : OperandType.pol.admits (bitSlot b) = true := admits_bitSlot _ b rfl
@[simp] theorem admits_dst_bitSlot (b : Bool) : OperandType.dst.admits (bitSlot b) = true := admits_bitSlot _ b rfl

@[simp] theorem admits_halfSlot (h : Half) : OperandType.cyc16.admits (halfSlot h) = true := by
  have := h.isLt
  simp [OperandType.admits, OperandType.width, halfSlot]
  omega

@[simp] theorem admits_byteSlot (p : Byte) : OperandType.presc.admits (byteSlot p) = true := by
  have := p.isLt
  simp [OperandType.admits, OperandType.width, byteSlot]
  omega

/-! ## What a reader accepts, it accepts as an encoded slot -/

theorem takeWord_ok (op : Byte) (name : String) (vs rest : List Word) (v : Word) :
    takeWord op name vs = .ok (v, rest) ↔ vs = v :: rest := by
  cases vs <;> simp [takeWord]

theorem takeBit_ok (op : Byte) (name : String) (vs rest : List Word) (b : Bool) :
    takeBit op name vs = .ok (b, rest) ↔ vs = bitSlot b :: rest := by
  constructor
  · cases vs with
    | nil => simp [takeBit]
    | cons v more =>
      intro h
      simp only [takeBit] at h
      split at h
      · next hv =>
        simp only [Except.ok.injEq, Prod.mk.injEq] at h
        obtain ⟨rfl, rfl⟩ := h
        have : v = 0 ∨ v = 1 := by
          rcases Nat.lt_succ_iff_lt_or_eq.1 hv with h0 | h1
          · left; apply BitVec.eq_of_toNat_eq; simp; omega
          · right; apply BitVec.eq_of_toNat_eq; simpa using h1
        rcases this with rfl | rfl <;> rfl
      · simp at h
  · rintro rfl; simp

theorem takeHalf_ok (op : Byte) (name : String) (vs rest : List Word) (h : Half) :
    takeHalf op name vs = .ok (h, rest) ↔ vs = halfSlot h :: rest := by
  constructor
  · cases vs with
    | nil => simp [takeHalf]
    | cons v more =>
      intro e
      simp only [takeHalf] at e
      split at e
      · next hv =>
        simp only [Except.ok.injEq, Prod.mk.injEq] at e
        obtain ⟨rfl, rfl⟩ := e
        congr 1
        apply BitVec.eq_of_toNat_eq
        simp [halfSlot]; omega
      · simp at e
  · rintro rfl; simp

theorem takeByte_ok (op : Byte) (name : String) (vs rest : List Word) (p : Byte) :
    takeByte op name vs = .ok (p, rest) ↔ vs = byteSlot p :: rest := by
  constructor
  · cases vs with
    | nil => simp [takeByte]
    | cons v more =>
      intro e
      simp only [takeByte] at e
      split at e
      · next hv =>
        simp only [Except.ok.injEq, Prod.mk.injEq] at e
        obtain ⟨rfl, rfl⟩ := e
        congr 1
        apply BitVec.eq_of_toNat_eq
        simp [byteSlot]; omega
      · simp at e
  · rintro rfl; simp

theorem endOfRecord_ok (op : Byte) (i j : Instr) (vs : List Word) :
    endOfRecord op i vs = .ok j ↔ vs = [] ∧ i = j := by
  cases vs <;> simp [endOfRecord]

end Sys2Proof
end

