-- ==== Sys2Proof/Laws/Layout.lean ====
section
/-! SUPPORT. The registers' offsets do not overlap; the masks of every register; the channel check. -/

namespace Sys2Proof.Machine

/-! ## Offsets -/

theorem Reg.mem_all (r : Reg) : r ∈ Reg.all := by
  cases r with
  | pccr p => revert p; decide
  | pcr c => revert c; decide
  | ppr c => revert c; decide
  | pcntr c => revert c; decide
  | ppcntr c => revert c; decide
  | ccr c => revert c; decide
  | crlr c => revert c; decide
  | cflr c => revert c; decide
  | _ => decide

theorem Reg.offset_lt (r : Reg) : r.offset < 0x1FC := by
  cases r <;> simp only [Reg.offset, Channel.base] <;> omega

/-- Two registers share no byte of the window. -/
theorem Reg.offset_apart (r q : Reg) (h : r ≠ q) : r.offset + 4 ≤ q.offset ∨ q.offset + 4 ≤ r.offset := by
  cases r <;> cases q <;> simp only [ne_eq, Reg.pccr.injEq, Reg.pcr.injEq, Reg.ppr.injEq, Reg.pcntr.injEq,
    Reg.ppcntr.injEq, Reg.ccr.injEq, Reg.crlr.injEq, Reg.cflr.injEq, not_true_eq_false, reduceCtorEq, not_false_eq_true,
    Fin.ext_iff] at h <;> simp only [Reg.offset, Channel.base] <;> omega

theorem Reg.offset_inj (r q : Reg) (h : r.offset = q.offset) : r = q := by
  by_contra hne
  have := Reg.offset_apart r q hne
  omega

/-- A raw offset names a register exactly when it is that register's offset (R47). -/
theorem Reg.ofOffset_eq_some (off : Word) (r : Reg) : Reg.ofOffset off = some r ↔ off.toNat = r.offset := by
  unfold Reg.ofOffset
  constructor
  · intro h
    have h' := List.find?_some (p := fun r : Reg => r.offset == off.toNat) h
    exact (beq_iff_eq.1 h').symm
  · intro h
    cases hf : Reg.all.find? fun q => q.offset == off.toNat with
    | none =>
      have := List.find?_eq_none.1 hf r (Reg.mem_all r)
      simp [h] at this
    | some q =>
      have hq := List.find?_some (p := fun q : Reg => q.offset == off.toNat) hf
      exact congrArg some (Reg.offset_inj q r ((beq_iff_eq.1 hq).trans h))

/-- A raw offset is refused exactly when no register has it (R47). -/
theorem Reg.ofOffset_eq_none (off : Word) : Reg.ofOffset off = none ↔ ∀ r : Reg, r.offset ≠ off.toNat := by
  constructor
  · intro h r hr
    rw [(Reg.ofOffset_eq_some off r).2 hr.symm] at h
    exact absurd h (by simp)
  · intro h
    cases hf : Reg.ofOffset off with
    | none => rfl
    | some r => exact absurd ((Reg.ofOffset_eq_some off r).1 hf).symm (h r)

/-! ## Masks (R17 to R32) -/

@[simp] theorem Reg.rw_pier : Reg.mask .rw .pier = 0xFF#32 := by decide
@[simp] theorem Reg.rw_pisr : Reg.mask .rw .pisr = 0#32 := by decide
@[simp] theorem Reg.rw_cier : Reg.mask .rw .cier = 0xFFFF#32 := by decide
@[simp] theorem Reg.rw_cisr : Reg.mask .rw .cisr = 0#32 := by decide
@[simp] theorem Reg.rw_pccr (p : Pair) : Reg.mask .rw (.pccr p) = 0x8F#32 := by simp only [Reg.mask, Reg.fields]; decide
@[simp] theorem Reg.rw_pcgr : Reg.mask .rw .pcgr = 0xFF00FF#32 := by decide
@[simp] theorem Reg.rw_per : Reg.mask .rw .per = 0xFF#32 := by decide
@[simp] theorem Reg.rw_cer : Reg.mask .rw .cer = 0xFF#32 := by decide
@[simp] theorem Reg.rw_pcr (c : Channel) : Reg.mask .rw (.pcr c) = 0x1FF#32 := by simp only [Reg.mask, Reg.fields]; decide
@[simp] theorem Reg.rw_ppr (c : Channel) : Reg.mask .rw (.ppr c) = 0xFFFFFFFF#32 := by simp only [Reg.mask, Reg.fields]; decide
@[simp] theorem Reg.rw_pcntr (c : Channel) : Reg.mask .rw (.pcntr c) = 0#32 := by simp only [Reg.mask, Reg.fields]; decide
@[simp] theorem Reg.rw_ppcntr (c : Channel) : Reg.mask .rw (.ppcntr c) = 0#32 := by simp only [Reg.mask, Reg.fields]; decide
@[simp] theorem Reg.rw_ccr (c : Channel) : Reg.mask .rw (.ccr c) = 0x18#32 := by simp only [Reg.mask, Reg.fields]; decide
@[simp] theorem Reg.rw_crlr (c : Channel) : Reg.mask .rw (.crlr c) = 0#32 := by simp only [Reg.mask, Reg.fields]; decide
@[simp] theorem Reg.rw_cflr (c : Channel) : Reg.mask .rw (.cflr c) = 0#32 := by simp only [Reg.mask, Reg.fields]; decide

@[simp] theorem Reg.w1c_pier : Reg.mask .w1c .pier = 0#32 := by decide
@[simp] theorem Reg.w1c_pisr : Reg.mask .w1c .pisr = 0xFF#32 := by decide
@[simp] theorem Reg.w1c_cier : Reg.mask .w1c .cier = 0#32 := by decide
@[simp] theorem Reg.w1c_cisr : Reg.mask .w1c .cisr = 0xFFFF#32 := by decide
@[simp] theorem Reg.w1c_pccr (p : Pair) : Reg.mask .w1c (.pccr p) = 0#32 := by simp only [Reg.mask, Reg.fields]; decide
@[simp] theorem Reg.w1c_pcgr : Reg.mask .w1c .pcgr = 0#32 := by decide
@[simp] theorem Reg.w1c_per : Reg.mask .w1c .per = 0#32 := by decide
@[simp] theorem Reg.w1c_cer : Reg.mask .w1c .cer = 0#32 := by decide
@[simp] theorem Reg.w1c_pcr (c : Channel) : Reg.mask .w1c (.pcr c) = 0#32 := by simp only [Reg.mask, Reg.fields]; decide
@[simp] theorem Reg.w1c_ppr (c : Channel) : Reg.mask .w1c (.ppr c) = 0#32 := by simp only [Reg.mask, Reg.fields]; decide
@[simp] theorem Reg.w1c_pcntr (c : Channel) : Reg.mask .w1c (.pcntr c) = 0#32 := by simp only [Reg.mask, Reg.fields]; decide
@[simp] theorem Reg.w1c_ppcntr (c : Channel) : Reg.mask .w1c (.ppcntr c) = 0#32 := by simp only [Reg.mask, Reg.fields]; decide
@[simp] theorem Reg.w1c_ccr (c : Channel) : Reg.mask .w1c (.ccr c) = 0x6#32 := by simp only [Reg.mask, Reg.fields]; decide
@[simp] theorem Reg.w1c_crlr (c : Channel) : Reg.mask .w1c (.crlr c) = 0#32 := by simp only [Reg.mask, Reg.fields]; decide
@[simp] theorem Reg.w1c_cflr (c : Channel) : Reg.mask .w1c (.cflr c) = 0#32 := by simp only [Reg.mask, Reg.fields]; decide

@[simp] theorem Reg.ro_pier : Reg.mask .ro .pier = 0#32 := by decide
@[simp] theorem Reg.ro_pisr : Reg.mask .ro .pisr = 0#32 := by decide
@[simp] theorem Reg.ro_cier : Reg.mask .ro .cier = 0#32 := by decide
@[simp] theorem Reg.ro_cisr : Reg.mask .ro .cisr = 0#32 := by decide
@[simp] theorem Reg.ro_pccr (p : Pair) : Reg.mask .ro (.pccr p) = 0#32 := by simp only [Reg.mask, Reg.fields]; decide
@[simp] theorem Reg.ro_pcgr : Reg.mask .ro .pcgr = 0#32 := by decide
@[simp] theorem Reg.ro_per : Reg.mask .ro .per = 0#32 := by decide
@[simp] theorem Reg.ro_cer : Reg.mask .ro .cer = 0#32 := by decide
@[simp] theorem Reg.ro_pcr (c : Channel) : Reg.mask .ro (.pcr c) = 0#32 := by simp only [Reg.mask, Reg.fields]; decide
@[simp] theorem Reg.ro_ppr (c : Channel) : Reg.mask .ro (.ppr c) = 0#32 := by simp only [Reg.mask, Reg.fields]; decide
@[simp] theorem Reg.ro_pcntr (c : Channel) : Reg.mask .ro (.pcntr c) = 0xFFFFFFFF#32 := by simp only [Reg.mask, Reg.fields]; decide
@[simp] theorem Reg.ro_ppcntr (c : Channel) : Reg.mask .ro (.ppcntr c) = 0xFFFFFFFF#32 := by simp only [Reg.mask, Reg.fields]; decide
@[simp] theorem Reg.ro_ccr (c : Channel) : Reg.mask .ro (.ccr c) = 0#32 := by simp only [Reg.mask, Reg.fields]; decide
@[simp] theorem Reg.ro_crlr (c : Channel) : Reg.mask .ro (.crlr c) = 0xFFFF#32 := by simp only [Reg.mask, Reg.fields]; decide
@[simp] theorem Reg.ro_cflr (c : Channel) : Reg.mask .ro (.cflr c) = 0xFFFF#32 := by simp only [Reg.mask, Reg.fields]; decide

/-- No bit has two access kinds. -/
theorem Reg.kinds_apart (r : Reg) : r.mask .rw &&& r.mask .ro = 0 ∧ r.mask .rw &&& r.mask .w1c = 0 ∧ r.mask .ro &&& r.mask .w1c = 0 := by
  cases r <;> simp

/-- The fields and the `RES` bits of a word have no bit in common. -/
theorem Reg.res_and_defined (r : Reg) : r.res &&& r.defined = 0 := by
  ext i hi
  simp [Reg.res]

/-! ## The channel check (R107) -/

theorem channel?_eq_some (ch : Word) (c : Channel) : channel? ch = some c ↔ ch.toInt = c.val := by
  unfold channel?
  split
  · next h =>
    simp only [Option.some.injEq, Fin.ext_iff]
    omega
  · next h =>
    constructor
    · intro h'; exact absurd h' (by simp)
    · intro h'; exact absurd ⟨by omega, by omega⟩ h

theorem channel?_eq_none (ch : Word) : channel? ch = none ↔ ¬(0 ≤ ch.toInt ∧ ch.toInt ≤ 7) := by
  unfold channel?
  split <;> simp_all

end Sys2Proof.Machine
end

