-- ==== Sys2Proof/Laws/Memory.lean ====
section
/-! SUPPORT. The byte memory: read after write, and that every write keeps the canonical form. -/

namespace Sys2Proof.Machine

theorem Memory.readByte_erase (m : Memory) (a x : Nat) :
    (m.erase a).readByte x = if x = a then Config.initByte a else m.readByte x := by
  induction m with
  | nil => simp [Memory.erase, Memory.readByte]; intro h; rw [h]
  | cons cell rest ih =>
    obtain ⟨k, b⟩ := cell
    simp only [Memory.erase] at ih
    by_cases hk : k = a
    · subst hk
      by_cases hx : x = k
      · subst hx; simpa [Memory.erase] using ih
      · simpa [Memory.erase, Memory.readByte, hx, Ne.symm hx] using ih
    · by_cases hx : k = x
      · subst hx; simp [Memory.erase, Memory.readByte, hk]
      · simpa [Memory.erase, Memory.readByte, hk, hx] using ih

/-- No entry of the memory has this address. -/
theorem Memory.erase_free (m : Memory) (a : Nat) : ∀ cell ∈ m.erase a, cell.1 ≠ a := by
  simp [Memory.erase]

theorem Memory.readByte_insert (m : Memory) (a : Nat) (b : Byte) (x : Nat) (free : ∀ cell ∈ m, cell.1 ≠ a) :
    (m.insert a b).readByte x = if x = a then b else m.readByte x := by
  induction m with
  | nil => simp [Memory.insert, Memory.readByte, eq_comm]
  | cons cell rest ih =>
    obtain ⟨k, c⟩ := cell
    have hk : k ≠ a := free (k, c) (by simp)
    have ih := ih fun cell h => free cell (by simp [h])
    by_cases hlt : a < k
    · simp [Memory.insert, Memory.readByte, hlt, eq_comm (a := a)]
    · by_cases hkx : k = x
      · subst hkx; simp [Memory.insert, Memory.readByte, hlt, hk]
      · simp [Memory.insert, Memory.readByte, hlt, hkx, ih]

/-- A byte reads as written, and every other byte as before. -/
theorem Memory.readByte_writeByte (m : Memory) (a : Nat) (b : Byte) (x : Nat) :
    (m.writeByte a b).readByte x = if x = a then b else m.readByte x := by
  unfold Memory.writeByte
  split
  · next h => rw [Memory.readByte_erase, h]
  · rw [Memory.readByte_insert _ _ _ _ (Memory.erase_free m a), Memory.readByte_erase]
    split <;> rfl

/-! ## The canonical form -/

/-- Every address of the memory lies above `a`. -/
theorem Memory.wf_cons (k : Nat) (b : Byte) (m : Memory) :
    Memory.wf ((k, b) :: m) = true ↔ b ≠ Config.initByte k ∧ (∀ cell ∈ m, k < cell.1) ∧ m.wf = true := by
  simp [Memory.wf, and_assoc]

theorem Memory.wf_erase (m : Memory) (a : Nat) (h : m.wf = true) : (m.erase a).wf = true := by
  induction m with
  | nil => rfl
  | cons cell rest ih =>
    obtain ⟨k, b⟩ := cell
    obtain ⟨hb, hk, hr⟩ := (Memory.wf_cons k b rest).1 h
    have ih := ih hr
    by_cases e : k = a
    · simpa [Memory.erase, e] using ih
    · have : Memory.erase ((k, b) :: rest) a = (k, b) :: Memory.erase rest a := by simp [Memory.erase, e]
      rw [this, Memory.wf_cons]
      exact ⟨hb, fun cell hc => hk cell (List.mem_filter.1 hc).1, ih⟩

theorem Memory.mem_insert (m : Memory) (a : Nat) (b : Byte) (cell : Host.Cell) :
    cell ∈ m.insert a b ↔ cell = (a, b) ∨ cell ∈ m := by
  induction m with
  | nil => simp [Memory.insert]
  | cons hd rest ih =>
    obtain ⟨k, c⟩ := hd
    unfold Memory.insert
    split
    · simp
    · simp [ih]; tauto

theorem Memory.wf_insert (m : Memory) (a : Nat) (b : Byte) (h : m.wf = true) (free : ∀ cell ∈ m, cell.1 ≠ a)
    (hb : b ≠ Config.initByte a) : (m.insert a b).wf = true := by
  induction m with
  | nil => simp [Memory.insert, Memory.wf, hb]
  | cons hd rest ih =>
    obtain ⟨k, c⟩ := hd
    obtain ⟨hc, hk, hr⟩ := (Memory.wf_cons k c rest).1 h
    have hne : k ≠ a := free (k, c) (by simp)
    unfold Memory.insert
    split
    · next lt =>
      rw [Memory.wf_cons]
      refine ⟨hb, ?_, h⟩
      intro cell hcell
      rcases List.mem_cons.1 hcell with rfl | hin
      · exact lt
      · exact Nat.lt_trans lt (hk cell hin)
    · next nlt =>
      rw [Memory.wf_cons]
      refine ⟨hc, ?_, ih hr fun cell hin => free cell (by simp [hin])⟩
      intro cell hcell
      rcases (Memory.mem_insert rest a b cell).1 hcell with rfl | hin
      · show k < a
        omega
      · exact hk cell hin

/-- Writing a byte keeps the canonical form. -/
theorem Memory.wf_writeByte (m : Memory) (a : Nat) (b : Byte) (h : m.wf = true) : (m.writeByte a b).wf = true := by
  unfold Memory.writeByte
  split
  · exact Memory.wf_erase m a h
  · next hb => exact Memory.wf_insert _ a b (Memory.wf_erase m a h) (Memory.erase_free m a) hb

/-- Which addresses a memory lists after a byte is written. -/
theorem Memory.mem_writeByte (m : Memory) (a : Nat) (b : Byte) (cell : Host.Cell) (h : cell ∈ m.writeByte a b) :
    cell.1 = a ∨ cell ∈ m := by
  unfold Memory.writeByte at h
  split at h
  · exact .inr (List.mem_filter.1 h).1
  · rcases (Memory.mem_insert _ a b cell).1 h with rfl | hin
    · exact .inl rfl
    · exact .inr (List.mem_filter.1 hin).1

/-! ## Words -/

/-- The four bytes of a word put together again. -/
theorem word_of_bytes (w : Word) :
    w.extractLsb' 24 8 ++ (w.extractLsb' 16 8 ++ (w.extractLsb' 8 8 ++ w.extractLsb' 0 8)) = w := by
  ext i hi
  simp only [BitVec.getElem_append, BitVec.getElem_extractLsb']
  simp only [← BitVec.getLsbD_eq_getElem]
  split_ifs <;> congr 1 <;> omega

/-- A byte outside the four of a written word reads as before. -/
theorem Memory.readByte_writeWord_other (m : Memory) (a : Nat) (w : Word) (x : Nat) (h : x < a ∨ a + 4 ≤ x) :
    (m.writeWord a w).readByte x = m.readByte x := by
  simp only [Memory.writeWord, Memory.readByte_writeByte]
  rw [if_neg (by omega), if_neg (by omega), if_neg (by omega), if_neg (by omega)]

/-- A word reads as written. -/
theorem Memory.readWord_writeWord (m : Memory) (a : Nat) (w : Word) : (m.writeWord a w).readWord a = w := by
  simp only [Memory.readWord, Memory.writeWord, Memory.readByte_writeByte]
  simpa using word_of_bytes w

/-- A word that shares no byte with the written one reads as before. -/
theorem Memory.readWord_writeWord_other (m : Memory) (a b : Nat) (w : Word) (h : b + 4 ≤ a ∨ a + 4 ≤ b) :
    (m.writeWord a w).readWord b = m.readWord b := by
  simp only [Memory.readWord]
  rw [m.readByte_writeWord_other a w _ (by omega), m.readByte_writeWord_other a w _ (by omega),
    m.readByte_writeWord_other a w _ (by omega), m.readByte_writeWord_other a w _ (by omega)]

/-- Writing a word keeps the canonical form. -/
theorem Memory.wf_writeWord (m : Memory) (a : Nat) (w : Word) (h : m.wf = true) : (m.writeWord a w).wf = true :=
  Memory.wf_writeByte _ _ _ (Memory.wf_writeByte _ _ _ (Memory.wf_writeByte _ _ _ (Memory.wf_writeByte _ _ _ h)))

/-- Which addresses a memory lists after a word is written. -/
theorem Memory.mem_writeWord (m : Memory) (a : Nat) (w : Word) (cell : Host.Cell) (h : cell ∈ m.writeWord a w) :
    (a ≤ cell.1 ∧ cell.1 < a + 4) ∨ cell ∈ m := by
  rcases Memory.mem_writeByte _ _ _ _ h with h | h
  · exact .inl (by omega)
  rcases Memory.mem_writeByte _ _ _ _ h with h | h
  · exact .inl (by omega)
  rcases Memory.mem_writeByte _ _ _ _ h with h | h
  · exact .inl (by omega)
  rcases Memory.mem_writeByte _ _ _ _ h with h | h
  · exact .inl (by omega)
  · exact .inr h

end Sys2Proof.Machine
end

