-- ==== Sys2Proof/Laws/State.lean ====
section
/-! SUPPORT. One lemma per field per update, and the storage of one register under every update. -/

namespace Sys2Proof.Machine

/-! ## The updates, field by field -/

@[simp] theorem State.putMem_mem (s : State) (m : Memory) : (s.putMem m).mem = m := rfl
@[simp] theorem State.putMem_seq (s : State) (m : Memory) : (s.putMem m).seq = s.seq := rfl
@[simp] theorem State.putMem_inbox (s : State) (m : Memory) : (s.putMem m).inbox = s.inbox := rfl
@[simp] theorem State.putMem_response (s : State) (m : Memory) : (s.putMem m).response = s.response := rfl
@[simp] theorem State.putMem_bus (s : State) (m : Memory) : (s.putMem m).bus = s.bus := rfl
@[simp] theorem State.putMem_schedule (s : State) (m : Memory) : (s.putMem m).schedule = s.schedule := rfl
@[simp] theorem State.putMem_draws (s : State) (m : Memory) : (s.putMem m).draws = s.draws := rfl

@[simp] theorem State.putSeq_mem (s : State) (q : Seq) : (s.putSeq q).mem = s.mem := rfl
@[simp] theorem State.putSeq_seq (s : State) (q : Seq) : (s.putSeq q).seq = q := rfl
@[simp] theorem State.putSeq_inbox (s : State) (q : Seq) : (s.putSeq q).inbox = s.inbox := rfl
@[simp] theorem State.putSeq_response (s : State) (q : Seq) : (s.putSeq q).response = s.response := rfl
@[simp] theorem State.putSeq_bus (s : State) (q : Seq) : (s.putSeq q).bus = s.bus := rfl
@[simp] theorem State.putSeq_schedule (s : State) (q : Seq) : (s.putSeq q).schedule = s.schedule := rfl
@[simp] theorem State.putSeq_draws (s : State) (q : Seq) : (s.putSeq q).draws = s.draws := rfl

@[simp] theorem State.putInbox_mem (s : State) (i : List Record) : (s.putInbox i).mem = s.mem := rfl
@[simp] theorem State.putInbox_seq (s : State) (i : List Record) : (s.putInbox i).seq = s.seq := rfl
@[simp] theorem State.putInbox_inbox (s : State) (i : List Record) : (s.putInbox i).inbox = i := rfl
@[simp] theorem State.putInbox_response (s : State) (i : List Record) : (s.putInbox i).response = s.response := rfl
@[simp] theorem State.putInbox_bus (s : State) (i : List Record) : (s.putInbox i).bus = s.bus := rfl
@[simp] theorem State.putInbox_schedule (s : State) (i : List Record) : (s.putInbox i).schedule = s.schedule := rfl
@[simp] theorem State.putInbox_draws (s : State) (i : List Record) : (s.putInbox i).draws = s.draws := rfl

@[simp] theorem State.putResponse_mem (s : State) (x : Option Response) : (s.putResponse x).mem = s.mem := rfl
@[simp] theorem State.putResponse_seq (s : State) (x : Option Response) : (s.putResponse x).seq = s.seq := rfl
@[simp] theorem State.putResponse_inbox (s : State) (x : Option Response) : (s.putResponse x).inbox = s.inbox := rfl
@[simp] theorem State.putResponse_response (s : State) (x : Option Response) : (s.putResponse x).response = x := rfl
@[simp] theorem State.putResponse_bus (s : State) (x : Option Response) : (s.putResponse x).bus = s.bus := rfl
@[simp] theorem State.putResponse_schedule (s : State) (x : Option Response) : (s.putResponse x).schedule = s.schedule := rfl
@[simp] theorem State.putResponse_draws (s : State) (x : Option Response) : (s.putResponse x).draws = s.draws := rfl

@[simp] theorem State.clearBus_mem (s : State) : (s.clearBus).mem = s.mem := rfl
@[simp] theorem State.clearBus_seq (s : State) : (s.clearBus).seq = s.seq := rfl
@[simp] theorem State.clearBus_inbox (s : State) : (s.clearBus).inbox = s.inbox := rfl
@[simp] theorem State.clearBus_response (s : State) : (s.clearBus).response = s.response := rfl
@[simp] theorem State.clearBus_bus (s : State) : (s.clearBus).bus = [] := rfl
@[simp] theorem State.clearBus_schedule (s : State) : (s.clearBus).schedule = s.schedule := rfl
@[simp] theorem State.clearBus_draws (s : State) : (s.clearBus).draws = s.draws := rfl

@[simp] theorem State.note_mem (s : State) (a : Access) : (s.note a).mem = s.mem := rfl
@[simp] theorem State.note_seq (s : State) (a : Access) : (s.note a).seq = s.seq := rfl
@[simp] theorem State.note_inbox (s : State) (a : Access) : (s.note a).inbox = s.inbox := rfl
@[simp] theorem State.note_response (s : State) (a : Access) : (s.note a).response = s.response := rfl
@[simp] theorem State.note_bus (s : State) (a : Access) : (s.note a).bus = s.bus ++ [a] := rfl
@[simp] theorem State.note_schedule (s : State) (a : Access) : (s.note a).schedule = s.schedule := rfl
@[simp] theorem State.note_draws (s : State) (a : Access) : (s.note a).draws = s.draws := rfl

@[simp] theorem State.putSchedule_mem (s : State) (l : List (List Event)) : (s.putSchedule l).mem = s.mem := rfl
@[simp] theorem State.putSchedule_seq (s : State) (l : List (List Event)) : (s.putSchedule l).seq = s.seq := rfl
@[simp] theorem State.putSchedule_inbox (s : State) (l : List (List Event)) : (s.putSchedule l).inbox = s.inbox := rfl
@[simp] theorem State.putSchedule_response (s : State) (l : List (List Event)) : (s.putSchedule l).response = s.response := rfl
@[simp] theorem State.putSchedule_bus (s : State) (l : List (List Event)) : (s.putSchedule l).bus = s.bus := rfl
@[simp] theorem State.putSchedule_schedule (s : State) (l : List (List Event)) : (s.putSchedule l).schedule = l := rfl
@[simp] theorem State.putSchedule_draws (s : State) (l : List (List Event)) : (s.putSchedule l).draws = s.draws := rfl

@[simp] theorem State.countLoad_mem (s : State) : (s.countLoad).mem = s.mem := rfl
@[simp] theorem State.countLoad_seq (s : State) : (s.countLoad).seq = s.seq := rfl
@[simp] theorem State.countLoad_inbox (s : State) : (s.countLoad).inbox = s.inbox := rfl
@[simp] theorem State.countLoad_response (s : State) : (s.countLoad).response = s.response := rfl
@[simp] theorem State.countLoad_bus (s : State) : (s.countLoad).bus = s.bus := rfl
@[simp] theorem State.countLoad_schedule (s : State) : (s.countLoad).schedule = s.schedule := rfl
@[simp] theorem State.countLoad_draws (s : State) : (s.countLoad).draws = s.draws + 1 := rfl

/-! ## The storage of one register -/

@[simp] theorem State.putSeq_stored (s : State) (q : Seq) (r : Reg) : (s.putSeq q).stored r = s.stored r := rfl
@[simp] theorem State.putSeq_flag (s : State) (q : Seq) (r : Reg) (k : Nat) : (s.putSeq q).flag r k = s.flag r k := rfl
@[simp] theorem State.putInbox_stored (s : State) (i : List Record) (r : Reg) : (s.putInbox i).stored r = s.stored r := rfl
@[simp] theorem State.putInbox_flag (s : State) (i : List Record) (r : Reg) (k : Nat) : (s.putInbox i).flag r k = s.flag r k := rfl
@[simp] theorem State.putResponse_stored (s : State) (x : Option Response) (r : Reg) : (s.putResponse x).stored r = s.stored r := rfl
@[simp] theorem State.putResponse_flag (s : State) (x : Option Response) (r : Reg) (k : Nat) : (s.putResponse x).flag r k = s.flag r k := rfl
@[simp] theorem State.clearBus_stored (s : State) (r : Reg) : (s.clearBus).stored r = s.stored r := rfl
@[simp] theorem State.clearBus_flag (s : State) (r : Reg) (k : Nat) : (s.clearBus).flag r k = s.flag r k := rfl
@[simp] theorem State.note_stored (s : State) (a : Access) (r : Reg) : (s.note a).stored r = s.stored r := rfl
@[simp] theorem State.note_flag (s : State) (a : Access) (r : Reg) (k : Nat) : (s.note a).flag r k = s.flag r k := rfl
@[simp] theorem State.putSchedule_stored (s : State) (l : List (List Event)) (r : Reg) : (s.putSchedule l).stored r = s.stored r := rfl
@[simp] theorem State.putSchedule_flag (s : State) (l : List (List Event)) (r : Reg) (k : Nat) : (s.putSchedule l).flag r k = s.flag r k := rfl
@[simp] theorem State.countLoad_stored (s : State) (r : Reg) : (s.countLoad).stored r = s.stored r := rfl
@[simp] theorem State.countLoad_flag (s : State) (r : Reg) (k : Nat) : (s.countLoad).flag r k = s.flag r k := rfl

@[simp] theorem State.setStored_seq (s : State) (r : Reg) (w : Word) : (s.setStored r w).seq = s.seq := rfl
@[simp] theorem State.setStored_inbox (s : State) (r : Reg) (w : Word) : (s.setStored r w).inbox = s.inbox := rfl
@[simp] theorem State.setStored_response (s : State) (r : Reg) (w : Word) : (s.setStored r w).response = s.response := rfl
@[simp] theorem State.setStored_bus (s : State) (r : Reg) (w : Word) : (s.setStored r w).bus = s.bus := rfl
@[simp] theorem State.setStored_schedule (s : State) (r : Reg) (w : Word) : (s.setStored r w).schedule = s.schedule := rfl
@[simp] theorem State.setStored_draws (s : State) (r : Reg) (w : Word) : (s.setStored r w).draws = s.draws := rfl

/-- A register reads as it was set, and every other one as before. -/
theorem State.setStored_stored (s : State) (r q : Reg) (w : Word) :
    (s.setStored r w).stored q = if q = r then w else s.stored q := by
  unfold State.stored State.setStored
  split
  · next h => rw [h]; exact Memory.readWord_writeWord _ _ _
  · next h => exact Memory.readWord_writeWord_other _ _ _ _ (Reg.offset_apart q r h)

@[simp] theorem State.setStored_stored_same (s : State) (r : Reg) (w : Word) : (s.setStored r w).stored r = w := by
  rw [State.setStored_stored, if_pos rfl]

theorem State.setStored_stored_ne (s : State) (r q : Reg) (w : Word) (h : q ≠ r) :
    (s.setStored r w).stored q = s.stored q := by
  rw [State.setStored_stored, if_neg h]

theorem State.setStored_flag (s : State) (r q : Reg) (w : Word) (i : Nat) :
    (s.setStored r w).flag q i = if q = r then w.getLsbD i else s.flag q i := by
  unfold State.flag
  rw [State.setStored_stored]
  split <;> rfl

/-- Setting one register leaves every byte outside its four alone. -/
theorem State.setStored_readByte (s : State) (r : Reg) (w : Word) (a : Nat) (h : a < r.offset ∨ r.offset + 4 ≤ a) :
    (s.setStored r w).mem.readByte a = s.mem.readByte a :=
  Memory.readByte_writeWord_other _ _ _ _ h

/-! ## Beginning and ending a command -/

@[simp] theorem State.begin_mem (s : State) : s.begin.mem = s.mem := rfl
@[simp] theorem State.begin_seq (s : State) : s.begin.seq = s.seq := rfl
@[simp] theorem State.begin_inbox (s : State) : s.begin.inbox = s.inbox := rfl
@[simp] theorem State.begin_response (s : State) : s.begin.response = none := rfl
@[simp] theorem State.begin_bus (s : State) : s.begin.bus = [] := rfl
@[simp] theorem State.begin_schedule (s : State) : s.begin.schedule = s.schedule := rfl
@[simp] theorem State.begin_draws (s : State) : s.begin.draws = s.draws := rfl
@[simp] theorem State.begin_stored (s : State) (r : Reg) : s.begin.stored r = s.stored r := rfl
@[simp] theorem State.begin_flag (s : State) (r : Reg) (i : Nat) : s.begin.flag r i = s.flag r i := rfl

@[simp] theorem State.finish_mem (s : State) (e : Code) (v : List Value) : (s.finish e v).mem = s.mem := rfl
@[simp] theorem State.finish_seq (s : State) (e : Code) (v : List Value) : (s.finish e v).seq = .idle := rfl
@[simp] theorem State.finish_inbox (s : State) (e : Code) (v : List Value) : (s.finish e v).inbox = s.inbox := rfl
@[simp] theorem State.finish_response (s : State) (e : Code) (v : List Value) : (s.finish e v).response = some ⟨e, v⟩ := rfl
@[simp] theorem State.finish_bus (s : State) (e : Code) (v : List Value) : (s.finish e v).bus = s.bus := rfl
@[simp] theorem State.finish_schedule (s : State) (e : Code) (v : List Value) : (s.finish e v).schedule = s.schedule := rfl
@[simp] theorem State.finish_draws (s : State) (e : Code) (v : List Value) : (s.finish e v).draws = s.draws := rfl
@[simp] theorem State.finish_stored (s : State) (e : Code) (v : List Value) (r : Reg) : (s.finish e v).stored r = s.stored r := rfl
@[simp] theorem State.finish_flag (s : State) (e : Code) (v : List Value) (r : Reg) (i : Nat) :
    (s.finish e v).flag r i = s.flag r i := rfl

@[simp] theorem State.sleep_mem (s : State) (i : Instr) (l : List Line) (loc : Locals) (t : Nat) : (s.sleep i l loc t).mem = s.mem := rfl
@[simp] theorem State.sleep_seq (s : State) (i : Instr) (l : List Line) (loc : Locals) (t : Nat) :
    (s.sleep i l loc t).seq = .sleeping i l loc t := rfl
@[simp] theorem State.sleep_inbox (s : State) (i : Instr) (l : List Line) (loc : Locals) (t : Nat) : (s.sleep i l loc t).inbox = s.inbox := rfl
@[simp] theorem State.sleep_response (s : State) (i : Instr) (l : List Line) (loc : Locals) (t : Nat) :
    (s.sleep i l loc t).response = s.response := rfl
@[simp] theorem State.sleep_bus (s : State) (i : Instr) (l : List Line) (loc : Locals) (t : Nat) :
    (s.sleep i l loc t).bus = s.bus ++ [.sleep t] := rfl
@[simp] theorem State.sleep_schedule (s : State) (i : Instr) (l : List Line) (loc : Locals) (t : Nat) :
    (s.sleep i l loc t).schedule = s.schedule := rfl
@[simp] theorem State.sleep_draws (s : State) (i : Instr) (l : List Line) (loc : Locals) (t : Nat) : (s.sleep i l loc t).draws = s.draws := rfl
@[simp] theorem State.sleep_stored (s : State) (i : Instr) (l : List Line) (loc : Locals) (t : Nat) (r : Reg) :
    (s.sleep i l loc t).stored r = s.stored r := rfl

/-- Two states with the same window hold the same word in every register. -/
theorem State.stored_of_mem (s t : State) (r : Reg) (h : s.mem = t.mem) : s.stored r = t.stored r := by
  unfold State.stored
  rw [h]

end Sys2Proof.Machine
end

