-- ==== Sys2Proof/Laws/Peripheral.lean ====
section
/-! SUPPORT. Everything the Peripheral's turn can do: it moves the schedule on, sets flags and its own counters, and leaves every `RW` field alone. -/

namespace Sys2Proof.Machine

theorem State.raiseFlag_stored (s : State) (r q : Reg) (i : Nat) :
    (s.raiseFlag r i).stored q = if q = r then s.stored r ||| bit i else s.stored q :=
  State.setStored_stored _ _ _ _

/-! ## One event -/

/-- An event changes the window and nothing else. -/
theorem Event.apply_eq_putMem (e : Event) (s : State) : e.apply s = s.putMem (e.apply s).mem := by
  cases e <;> simp only [Event.apply] <;> (try split) <;> rfl

@[simp] theorem Event.apply_seq (e : Event) (s : State) : (e.apply s).seq = s.seq :=
  (congrArg State.seq (e.apply_eq_putMem s) :)
@[simp] theorem Event.apply_inbox (e : Event) (s : State) : (e.apply s).inbox = s.inbox :=
  (congrArg State.inbox (e.apply_eq_putMem s) :)
@[simp] theorem Event.apply_response (e : Event) (s : State) : (e.apply s).response = s.response :=
  (congrArg State.response (e.apply_eq_putMem s) :)
@[simp] theorem Event.apply_bus (e : Event) (s : State) : (e.apply s).bus = s.bus :=
  (congrArg State.bus (e.apply_eq_putMem s) :)
@[simp] theorem Event.apply_schedule (e : Event) (s : State) : (e.apply s).schedule = s.schedule :=
  (congrArg State.schedule (e.apply_eq_putMem s) :)
@[simp] theorem Event.apply_draws (e : Event) (s : State) : (e.apply s).draws = s.draws :=
  (congrArg State.draws (e.apply_eq_putMem s) :)

/-- The registers an event may change (R56 to R59). -/
def Event.touches : Event → List Reg
  | .counter c _ _ => [.pcntr c, .ppcntr c]
  | .riseLatch c _ => [.crlr c, .ccr c, .cisr]
  | .fallLatch c _ => [.cflr c, .ccr c, .cisr]
  | .pwmStatus _ => [.pisr]

/-- A register the event does not touch keeps its word. -/
theorem Event.apply_stored_other (e : Event) (s : State) (r : Reg) (h : r ∉ e.touches) :
    (e.apply s).stored r = s.stored r := by
  cases e <;> simp only [Event.touches, List.mem_cons, List.not_mem_nil, or_false, not_or] at h <;>
    simp only [Event.apply] <;> (try split) <;>
    simp [State.raiseFlag_stored, State.setStored_stored, h]

/-- A byte outside the registers the event touches keeps its value. -/
theorem Event.apply_readByte_other (e : Event) (s : State) (a : Nat)
    (h : ∀ r ∈ e.touches, a < r.offset ∨ r.offset + 4 ≤ a) : (e.apply s).mem.readByte a = s.mem.readByte a := by
  cases e <;> simp only [Event.touches, List.mem_cons, List.not_mem_nil, or_false, forall_eq_or_imp, forall_eq] at h <;>
    simp only [Event.apply] <;> (try split) <;>
    simp [State.raiseFlag, State.setStored_readByte, h]

/-- An event never changes an `RW` field (R17, R55). -/
theorem Event.apply_rw (e : Event) (s : State) (r : Reg) :
    (e.apply s).stored r &&& r.mask .rw = s.stored r &&& r.mask .rw := by
  by_cases h : r ∈ e.touches
  · cases e <;> simp only [Event.touches, List.mem_cons, List.not_mem_nil, or_false] at h <;>
      simp only [Event.apply] <;> (try split) <;> rcases h with rfl | rfl | rfl <;>
      simp [State.raiseFlag_stored, State.setStored_stored]
    all_goals
      rw [BitVec.and_or_distrib_right]
      simp only [show bit ccrRlf &&& 0x18#32 = 0#32 by decide, show bit ccrFlf &&& 0x18#32 = 0#32 by decide, BitVec.or_zero]
  · rw [e.apply_stored_other s r h]

theorem getLsbD_or_left (w v : Word) (k : Nat) (h : w.getLsbD k = true) : (w ||| v).getLsbD k = true := by
  simp [h]

/-- An event never clears a flag: "Only the Peripheral sets them" (R37), and it only sets them. -/
theorem Event.apply_w1c (e : Event) (s : State) (r : Reg) (k : Nat) (hk : (r.mask .w1c).getLsbD k = true)
    (h : s.flag r k = true) : (e.apply s).flag r k = true := by
  unfold State.flag at *
  by_cases hr : r ∈ e.touches
  · cases e <;> simp only [Event.touches, List.mem_cons, List.not_mem_nil, or_false] at hr <;>
      simp only [Event.apply] <;> (try split) <;> rcases hr with rfl | rfl | rfl <;>
      simp_all [State.raiseFlag_stored, State.setStored_stored]
  · rw [e.apply_stored_other s r hr]; exact h

/-! ## The turn -/

theorem foldl_apply_eq_putMem (events : List Event) (s : State) :
    events.foldl (fun s e => e.apply s) s = s.putMem (events.foldl (fun s e => e.apply s) s).mem := by
  induction events generalizing s with
  | nil => rfl
  | cons e rest ih =>
    simp only [List.foldl_cons]
    rw [ih (e.apply s)]
    rw [e.apply_eq_putMem s]
    rfl

/-- The turn changes the window and moves the schedule on, nothing else. -/
theorem State.turn_eq (s : State) : s.turn = (s.putMem s.turn.mem).putSchedule s.schedule.tail := by
  unfold State.turn
  split
  · next h => rw [h, List.tail_nil, ← h]; rfl
  · next events rest h =>
    rw [foldl_apply_eq_putMem, h]
    rfl

@[simp] theorem State.turn_seq (s : State) : s.turn.seq = s.seq :=
  (congrArg State.seq s.turn_eq :)
@[simp] theorem State.turn_inbox (s : State) : s.turn.inbox = s.inbox :=
  (congrArg State.inbox s.turn_eq :)
@[simp] theorem State.turn_response (s : State) : s.turn.response = s.response :=
  (congrArg State.response s.turn_eq :)
@[simp] theorem State.turn_bus (s : State) : s.turn.bus = s.bus :=
  (congrArg State.bus s.turn_eq :)
@[simp] theorem State.turn_schedule (s : State) : s.turn.schedule = s.schedule.tail :=
  (congrArg State.schedule s.turn_eq :)
@[simp] theorem State.turn_draws (s : State) : s.turn.draws = s.draws :=
  (congrArg State.draws s.turn_eq :)

/-- What every event keeps, the turn keeps. -/
theorem State.turn_induct (P : State → Prop) (hev : ∀ (e : Event) (u : State), P u → P (e.apply u))
    (hsched : ∀ (u : State) (l : List (List Event)), P u → P (u.putSchedule l)) (s : State) (h : P s) : P s.turn := by
  unfold State.turn
  split
  · exact h
  · next events rest _ =>
    have : ∀ (es : List Event) (u : State), P u → P (es.foldl (fun s e => e.apply s) u) := by
      intro es
      induction es with
      | nil => exact fun u hu => hu
      | cons e es ih => exact fun u hu => ih _ (hev e u hu)
    exact this events _ (hsched s rest h)

/-- The turn never changes an `RW` field (R17, R55). -/
theorem State.turn_rw (s : State) (r : Reg) : s.turn.stored r &&& r.mask .rw = s.stored r &&& r.mask .rw :=
  State.turn_induct (fun u => u.stored r &&& r.mask .rw = s.stored r &&& r.mask .rw)
    (fun e u h => (e.apply_rw u r).trans h) (fun _ _ h => h) s rfl

/-- The turn never clears a flag (R37). -/
theorem State.turn_w1c (s : State) (r : Reg) (k : Nat) (hk : (r.mask .w1c).getLsbD k = true) (h : s.flag r k = true) :
    s.turn.flag r k = true :=
  State.turn_induct (fun u => u.flag r k = true) (fun e u h => e.apply_w1c u r k hk h) (fun _ _ h => h) s h

/-- The registers that hold `RW` fields only: the Peripheral touches none of them (R55). -/
def Reg.coreOnly : Reg → Bool
  | .pier | .cier | .pccr _ | .pcgr | .per | .cer | .pcr _ | .ppr _ => true
  | .pisr | .cisr | .pcntr _ | .ppcntr _ | .ccr _ | .crlr _ | .cflr _ => false

theorem Event.touches_not_coreOnly (e : Event) (r : Reg) (h : r ∈ e.touches) : r.coreOnly = false := by
  cases e <;> simp only [Event.touches, List.mem_cons, List.not_mem_nil, or_false] at h <;>
    rcases h with rfl | rfl | rfl <;> rfl

theorem State.turn_stored_coreOnly (s : State) (r : Reg) (h : r.coreOnly = true) : s.turn.stored r = s.stored r :=
  State.turn_induct (fun u => u.stored r = s.stored r)
    (fun e u hu => (e.apply_stored_other u r fun hm => by simp [e.touches_not_coreOnly r hm] at h).trans hu)
    (fun _ _ hu => hu) s rfl

@[simp] theorem State.turn_stored_pier (s : State) : s.turn.stored .pier = s.stored .pier := s.turn_stored_coreOnly _ rfl
@[simp] theorem State.turn_stored_cier (s : State) : s.turn.stored .cier = s.stored .cier := s.turn_stored_coreOnly _ rfl
@[simp] theorem State.turn_stored_pccr (s : State) (p : Pair) : s.turn.stored (.pccr p) = s.stored (.pccr p) := s.turn_stored_coreOnly _ rfl
@[simp] theorem State.turn_stored_pcgr (s : State) : s.turn.stored .pcgr = s.stored .pcgr := s.turn_stored_coreOnly _ rfl
@[simp] theorem State.turn_stored_per (s : State) : s.turn.stored .per = s.stored .per := s.turn_stored_coreOnly _ rfl
@[simp] theorem State.turn_stored_cer (s : State) : s.turn.stored .cer = s.stored .cer := s.turn_stored_coreOnly _ rfl
@[simp] theorem State.turn_stored_pcr (s : State) (c : Channel) : s.turn.stored (.pcr c) = s.stored (.pcr c) := s.turn_stored_coreOnly _ rfl
@[simp] theorem State.turn_stored_ppr (s : State) (c : Channel) : s.turn.stored (.ppr c) = s.stored (.ppr c) := s.turn_stored_coreOnly _ rfl

/-! ## The turn depends on the window and the schedule alone -/

theorem Event.apply_mem_congr (e : Event) (s t : State) (h : s.mem = t.mem) : (e.apply s).mem = (e.apply t).mem := by
  have hs : ∀ r, s.stored r = t.stored r := fun r => State.stored_of_mem s t r h
  cases e with
  | riseLatch c n =>
    simp only [Event.apply, show s.riseArmed c = t.riseArmed c by simp [State.riseArmed, State.flag, hs]]
    split <;> simp [State.raiseFlag, State.setStored, State.stored, h]
  | fallLatch c n =>
    simp only [Event.apply, show s.fallArmed c = t.fallArmed c by simp [State.fallArmed, State.flag, hs]]
    split <;> simp [State.raiseFlag, State.setStored, State.stored, h]
  | counter c n p => simp [Event.apply, State.setStored, h]
  | pwmStatus c => simp [Event.apply, State.raiseFlag, State.setStored, State.stored, h]

theorem State.turn_mem_congr (s t : State) (hm : s.mem = t.mem) (hs : s.schedule = t.schedule) : s.turn.mem = t.turn.mem := by
  unfold State.turn
  rw [← hs]
  split
  · exact hm
  · next events rest _ =>
    have : ∀ (es : List Event) (u v : State), u.mem = v.mem →
        (es.foldl (fun s e => e.apply s) u).mem = (es.foldl (fun s e => e.apply s) v).mem := by
      intro es
      induction es with
      | nil => exact fun u v h => h
      | cons e es ih => exact fun u v h => ih _ _ (e.apply_mem_congr u v h)
    exact this events _ _ hm

@[simp] theorem State.turn_putSeq (s : State) (q : Seq) : (s.putSeq q).turn = s.turn.putSeq q := by
  apply State.ext <;> simp [State.turn_mem_congr (s.putSeq q) s rfl rfl]
@[simp] theorem State.turn_putInbox (s : State) (i : List Record) : (s.putInbox i).turn = s.turn.putInbox i := by
  apply State.ext <;> simp [State.turn_mem_congr (s.putInbox i) s rfl rfl]
@[simp] theorem State.turn_putResponse (s : State) (x : Option Response) : (s.putResponse x).turn = s.turn.putResponse x := by
  apply State.ext <;> simp [State.turn_mem_congr (s.putResponse x) s rfl rfl]
@[simp] theorem State.turn_clearBus (s : State) : s.clearBus.turn = s.turn.clearBus := by
  apply State.ext <;> simp [State.turn_mem_congr s.clearBus s rfl rfl]
@[simp] theorem State.turn_note (s : State) (a : Access) : (s.note a).turn = s.turn.note a := by
  apply State.ext <;> simp [State.turn_mem_congr (s.note a) s rfl rfl]
@[simp] theorem State.turn_countLoad (s : State) : s.countLoad.turn = s.turn.countLoad := by
  apply State.ext <;> simp [State.turn_mem_congr s.countLoad s rfl rfl]
@[simp] theorem State.turn_begin (s : State) : s.begin.turn = s.turn.begin := by simp [State.begin]

end Sys2Proof.Machine
end

