-- ==== Sys2Proof/Laws/Ops.lean ====
section
/-! SUPPORT. One lemma for each thing `MemRead`, `MemWrite` and the read-modify-writes do. -/

namespace Sys2Proof.Machine

/-! ## MemRead (R43) -/

@[simp] theorem State.load_seq (s : State) (r : Reg) : (s.load r).2.seq = s.seq := by simp [State.load]
@[simp] theorem State.load_inbox (s : State) (r : Reg) : (s.load r).2.inbox = s.inbox := by simp [State.load]
@[simp] theorem State.load_response (s : State) (r : Reg) : (s.load r).2.response = s.response := by simp [State.load]
@[simp] theorem State.load_bus (s : State) (r : Reg) : (s.load r).2.bus = s.bus ++ [.load r] := by simp [State.load]
@[simp] theorem State.load_schedule (s : State) (r : Reg) : (s.load r).2.schedule = s.schedule.tail := by simp [State.load]
@[simp] theorem State.load_draws (s : State) (r : Reg) : (s.load r).2.draws = s.draws + 1 := by simp [State.load]
@[simp] theorem State.load_mem (s : State) (r : Reg) : (s.load r).2.mem = s.turn.mem := by simp [State.load]
@[simp] theorem State.load_stored (s : State) (r q : Reg) : (s.load r).2.stored q = s.turn.stored q := by simp [State.load]
@[simp] theorem State.load_flag (s : State) (r q : Reg) (k : Nat) : (s.load r).2.flag q k = s.turn.flag q k := by simp [State.load]
@[simp] theorem State.load_fields (s : State) (r : Reg) : (s.load r).1.fields = s.turn.stored r &&& r.defined := rfl

/-- A load hands out the fields of the window at that moment, with the `RES` positions drawn (R43). -/
theorem State.load_value_defined (s : State) (r : Reg) : (s.load r).1.value &&& r.defined = s.turn.stored r &&& r.defined := by
  simp only [State.load, State.view, Loaded.value, Reg.res]
  ext i hi
  simp only [BitVec.getElem_and, BitVec.getElem_or, BitVec.getElem_not]
  cases r.defined[i] <;> simp

@[simp] theorem State.load_turn_mem (s : State) (r : Reg) : (s.load r).2.turn.mem = s.turn.turn.mem :=
  State.turn_mem_congr _ _ (by simp) (by simp)

@[simp] theorem State.load_turn_stored (s : State) (r q : Reg) : (s.load r).2.turn.stored q = s.turn.turn.stored q :=
  State.stored_of_mem _ _ _ (by simp)

@[simp] theorem State.load_turn_flag (s : State) (r q : Reg) (k : Nat) : (s.load r).2.turn.flag q k = s.turn.turn.flag q k := by
  simp [State.flag]

/-! ## MemWrite (R44) -/

@[simp] theorem State.store_seq (s : State) (r : Reg) (v : Word) : (s.store r v).seq = s.seq := by simp [State.store]
@[simp] theorem State.store_inbox (s : State) (r : Reg) (v : Word) : (s.store r v).inbox = s.inbox := by simp [State.store]
@[simp] theorem State.store_response (s : State) (r : Reg) (v : Word) : (s.store r v).response = s.response := by simp [State.store]
@[simp] theorem State.store_bus (s : State) (r : Reg) (v : Word) : (s.store r v).bus = s.bus ++ [.store r] := by simp [State.store]
@[simp] theorem State.store_schedule (s : State) (r : Reg) (v : Word) : (s.store r v).schedule = s.schedule.tail := by simp [State.store]
@[simp] theorem State.store_draws (s : State) (r : Reg) (v : Word) : (s.store r v).draws = s.draws := by simp [State.store]

theorem State.store_stored (s : State) (r q : Reg) (v : Word) :
    (s.store r v).stored q = if q = r then r.afterWrite (s.turn.stored r) v else s.turn.stored q := by
  simp [State.store, State.setStored_stored]

@[simp] theorem State.store_stored_same (s : State) (r : Reg) (v : Word) :
    (s.store r v).stored r = r.afterWrite (s.turn.stored r) v := by rw [State.store_stored, if_pos rfl]

theorem State.store_stored_ne (s : State) (r q : Reg) (v : Word) (h : q ≠ r) : (s.store r v).stored q = s.turn.stored q := by
  rw [State.store_stored, if_neg h]

/-- A store leaves every byte outside its register as the Peripheral's turn left it. -/
theorem State.store_readByte (s : State) (r : Reg) (v : Word) (a : Nat) (h : a < r.offset ∨ r.offset + 4 ≤ a) :
    (s.store r v).mem.readByte a = s.turn.mem.readByte a := by
  simp only [State.store, State.note_mem]
  exact State.setStored_readByte _ _ _ _ h

/-- A load clears no flag (R43, R37). -/
theorem State.load_w1c (s : State) (r q : Reg) (k : Nat) (hk : (q.mask .w1c).getLsbD k = true) (h : s.flag q k = true) :
    (s.load r).2.flag q k = true := by
  rw [State.load_flag]
  exact s.turn_w1c q k hk h

/-- The store's word, bit by bit: an `RW` bit takes the bit of `v`, an `RO` bit stays, a `W1C` bit stays where `v` has a 0 (R44). -/
theorem Reg.afterWrite_getLsbD (r : Reg) (old v : Word) (k : Nat) :
    (r.afterWrite old v).getLsbD k =
      ((v.getLsbD k && (r.mask .rw).getLsbD k) || (old.getLsbD k && (r.mask .ro).getLsbD k)
        || (old.getLsbD k && (r.mask .w1c).getLsbD k && !v.getLsbD k)) := by
  by_cases h : k < 32
  · simp [Reg.afterWrite, h]
  · simp [Reg.afterWrite, BitVec.getLsbD_of_ge _ _ (Nat.le_of_not_lt h)]

/-- What a store leaves in the `RW` fields is the bits of `v` there (R44). -/
theorem Reg.afterWrite_rw (r : Reg) (old v : Word) : r.afterWrite old v &&& r.mask .rw = v &&& r.mask .rw := by
  obtain ⟨h1, h2, _⟩ := r.kinds_apart
  ext i hi
  have e1 := congrArg (fun w => w.getLsbD i) h1
  have e2 := congrArg (fun w => w.getLsbD i) h2
  simp only [BitVec.getLsbD_and] at e1 e2
  simp only [← BitVec.getLsbD_eq_getElem, BitVec.getLsbD_and, Reg.afterWrite_getLsbD]
  cases hrw : (r.mask .rw).getLsbD i <;> simp_all

/-- A store clears no flag but those of its register where the word has a 1 (R44). -/
theorem State.store_w1c (s : State) (r q : Reg) (v : Word) (k : Nat) (hk : (q.mask .w1c).getLsbD k = true)
    (h : s.flag q k = true) (hv : q = r → v.getLsbD k = false) : (s.store r v).flag q k = true := by
  have ht := s.turn_w1c q k hk h
  by_cases e : q = r
  · subst e
    simp only [State.flag, State.store_stored_same, Reg.afterWrite_getLsbD] at ht ⊢
    simp [ht, hk, hv rfl]
  · simpa [State.flag, State.store_stored_ne _ _ _ _ e] using ht

/-- A stored word has no bit in a `RES` position (R33). -/
theorem Reg.afterWrite_res (r : Reg) (old v : Word) : r.afterWrite old v &&& r.res = 0 := by
  ext i hi
  simp only [← BitVec.getLsbD_eq_getElem, BitVec.getLsbD_and, Reg.afterWrite_getLsbD, Reg.res, BitVec.getLsbD_not, hi,
    Reg.defined, BitVec.getLsbD_or]
  cases (r.mask .rw).getLsbD i <;> cases (r.mask .ro).getLsbD i <;> cases (r.mask .w1c).getLsbD i <;> simp

/-- The `RES` bits of the stored word have no effect: writing them back as read changes nothing (R33, R45). -/
theorem Reg.afterWrite_or_res (r : Reg) (old v x : Word) : r.afterWrite old (v ||| (x &&& r.res)) = r.afterWrite old v := by
  ext i hi
  simp only [← BitVec.getLsbD_eq_getElem, Reg.afterWrite_getLsbD, Reg.res, BitVec.getLsbD_or, BitVec.getLsbD_and,
    BitVec.getLsbD_not, hi, Reg.defined]
  cases (r.mask .rw).getLsbD i <;> cases (r.mask .ro).getLsbD i <;> cases (r.mask .w1c).getLsbD i <;> simp

/-! ## The words of the read-modify-writes -/

theorem bit_getLsbD (i k : Nat) (hi : i < 32) : (bit i).getLsbD k = decide (k = i) := by
  unfold bit
  by_cases h : k < 32
  · by_cases e : k = i
    · subst e; simp [hi]
    · simp only [BitVec.getLsbD_shiftLeft, h, decide_true, Bool.true_and, e, decide_false]
      by_cases l : k < i
      · simp [l]
      · simp only [l, decide_false, Bool.not_false, Bool.true_and]
        rw [BitVec.getLsbD_one]
        simp; omega
  · rw [BitVec.getLsbD_of_ge _ _ (Nat.le_of_not_lt h)]
    simp; omega

/-- The word of an `RMWBitM`, bit by bit (R46). -/
theorem setBit_getLsbD (w : Word) (i : Nat) (b : Bool) (m : Word) (k : Nat) (hi : i < 32) :
    (setBit w i b m).getLsbD k = if k = i then b else (w.getLsbD k && !m.getLsbD k) := by
  by_cases h : k < 32
  · simp only [setBit, BitVec.getLsbD_or, BitVec.getLsbD_and, BitVec.getLsbD_not, h, decide_true, Bool.true_and,
      bit_getLsbD i k hi]
    by_cases e : k = i
    · subst e; cases b <;> simp [bit_getLsbD k k hi]
    · cases b <;> simp [e, bit_getLsbD i k hi]
  · rw [BitVec.getLsbD_of_ge _ _ (Nat.le_of_not_lt h), BitVec.getLsbD_of_ge _ _ (Nat.le_of_not_lt h)]
    rw [if_neg (by omega)]; rfl

/-! ## Turns -/

@[simp] theorem State.turns_zero (s : State) : s.turns 0 = s := rfl
@[simp] theorem State.turns_succ (s : State) (n : Nat) : s.turns (n + 1) = (s.turns n).turn := rfl

theorem State.turns_turn (s : State) (n : Nat) : s.turn.turns n = (s.turns n).turn := by
  induction n with
  | zero => rfl
  | succ n ih => simp [ih]

theorem State.turns_rw (s : State) (n : Nat) (r : Reg) : (s.turns n).stored r &&& r.mask .rw = s.stored r &&& r.mask .rw := by
  induction n with
  | zero => rfl
  | succ n ih => rw [State.turns_succ, State.turn_rw, ih]

/-! ## A turn after a store to a register that the Peripheral neither changes nor looks at -/

/-- Two windows that agree outside the bytes of one register. -/
def AgreeOff (r : Reg) (s t : State) : Prop :=
  ∀ a, (a < r.offset ∨ r.offset + 4 ≤ a) → s.mem.readByte a = t.mem.readByte a

theorem AgreeOff.stored {r : Reg} {s t : State} (h : AgreeOff r s t) (q : Reg) (hq : q ≠ r) : s.stored q = t.stored q := by
  have := Reg.offset_apart q r hq
  simp only [State.stored, Memory.readWord]
  rw [h _ (by omega), h _ (by omega), h _ (by omega), h _ (by omega)]

theorem Memory.readByte_writeWord_congr (m m' : Memory) (b : Nat) (w : Word) (a : Nat) (h : m.readByte a = m'.readByte a) :
    (m.writeWord b w).readByte a = (m'.writeWord b w).readByte a := by
  simp only [Memory.writeWord, Memory.readByte_writeByte, h]

theorem AgreeOff.setStored {r : Reg} {s t : State} (h : AgreeOff r s t) (q : Reg) (w : Word) :
    AgreeOff r (s.setStored q w) (t.setStored q w) :=
  fun a ha => Memory.readByte_writeWord_congr _ _ _ _ _ (h a ha)

theorem AgreeOff.raiseFlag {r : Reg} {s t : State} (h : AgreeOff r s t) (q : Reg) (hq : q ≠ r) (i : Nat) :
    AgreeOff r (s.raiseFlag q i) (t.raiseFlag q i) := by
  unfold State.raiseFlag
  rw [h.stored q hq]
  exact h.setStored q _

theorem AgreeOff.apply {r : Reg} {s t : State} (h : AgreeOff r s t) (hr : r.coreOnly = true) (hc : r ≠ .cer) (e : Event) :
    AgreeOff r (e.apply s) (e.apply t) := by
  have hne : ∀ q : Reg, q.coreOnly = false → q ≠ r := fun q hq heq => by rw [heq, hr] at hq; exact absurd hq (by decide)
  cases e with
  | counter c n p => exact (h.setStored _ _).setStored _ _
  | pwmStatus c => exact h.raiseFlag _ (hne _ rfl) _
  | riseLatch c n =>
    have armed : s.riseArmed c = t.riseArmed c := by
      simp only [State.riseArmed, State.flag, h.stored .cer (Ne.symm hc), h.stored (.ccr c) (hne (.ccr c) rfl)]
    by_cases on : t.riseArmed c = true
    · simp only [Event.apply, armed, on, if_true]
      exact ((h.setStored _ _).raiseFlag _ (hne _ rfl) _).raiseFlag _ (hne _ rfl) _
    · simpa [Event.apply, armed, on] using h
  | fallLatch c n =>
    have armed : s.fallArmed c = t.fallArmed c := by
      simp only [State.fallArmed, State.flag, h.stored .cer (Ne.symm hc), h.stored (.ccr c) (hne (.ccr c) rfl)]
    by_cases on : t.fallArmed c = true
    · simp only [Event.apply, armed, on, if_true]
      exact ((h.setStored _ _).raiseFlag _ (hne _ rfl) _).raiseFlag _ (hne _ rfl) _
    · simpa [Event.apply, armed, on] using h

theorem AgreeOff.turn {r : Reg} {s t : State} (h : AgreeOff r s t) (hr : r.coreOnly = true) (hc : r ≠ .cer)
    (hs : s.schedule = t.schedule) : AgreeOff r s.turn t.turn := by
  unfold State.turn
  rw [← hs]
  split
  · exact h
  · next events rest _ =>
    have : ∀ (es : List Event) (u v : State), AgreeOff r u v →
        AgreeOff r (es.foldl (fun s e => e.apply s) u) (es.foldl (fun s e => e.apply s) v) := by
      intro es
      induction es with
      | nil => exact fun u v h => h
      | cons e es ih => exact fun u v h => ih _ _ (h.apply hr hc e)
    exact this events _ _ h

/-- A store to a register that the Peripheral neither changes nor looks at does not change what its later turns do elsewhere. -/
theorem State.store_agreeOff (s : State) (r : Reg) (v : Word) : AgreeOff r (s.store r v) s.turn :=
  fun a ha => s.store_readByte r v a ha

end Sys2Proof.Machine
end

