-- ==== Sys2Proof/Laws/Frame.lean ====
section
/-! SUPPORT. The Peripheral's turns on two windows that differ in some registers only: the frame of a command that may change what the Peripheral does. -/

namespace Sys2Proof.Machine

/-! ## No event arms or disarms a latch -/

theorem Event.apply_flag_rw (e : Event) (s : State) (r : Reg) (k : Nat) (hk : (r.mask .rw).getLsbD k = true) :
    (e.apply s).flag r k = s.flag r k := by
  have h := congrArg (fun w => w.getLsbD k) (e.apply_rw s r)
  simpa [State.flag, hk] using h

theorem State.turn_flag_rw (s : State) (r : Reg) (k : Nat) (hk : (r.mask .rw).getLsbD k = true) :
    s.turn.flag r k = s.flag r k := by
  have h := congrArg (fun w => w.getLsbD k) (s.turn_rw r)
  simpa [State.flag, hk] using h

theorem cerEn_rw (d : Channel) : (Reg.mask .rw .cer).getLsbD (cerEn d) = true := by
  revert d; decide

@[simp] theorem Event.apply_riseArmed (e : Event) (s : State) (d : Channel) : (e.apply s).riseArmed d = s.riseArmed d := by
  unfold State.riseArmed
  rw [e.apply_flag_rw s .cer _ (cerEn_rw d), e.apply_flag_rw s (.ccr d) _ (by rw [Reg.rw_ccr]; rfl)]

@[simp] theorem Event.apply_fallArmed (e : Event) (s : State) (d : Channel) : (e.apply s).fallArmed d = s.fallArmed d := by
  unfold State.fallArmed
  rw [e.apply_flag_rw s .cer _ (cerEn_rw d), e.apply_flag_rw s (.ccr d) _ (by rw [Reg.rw_ccr]; rfl)]

@[simp] theorem State.turn_riseArmed (s : State) (d : Channel) : s.turn.riseArmed d = s.riseArmed d := by
  unfold State.riseArmed
  rw [s.turn_flag_rw .cer _ (cerEn_rw d), s.turn_flag_rw (.ccr d) _ (by rw [Reg.rw_ccr]; rfl)]

@[simp] theorem State.turn_fallArmed (s : State) (d : Channel) : s.turn.fallArmed d = s.fallArmed d := by
  unfold State.fallArmed
  rw [s.turn_flag_rw .cer _ (cerEn_rw d), s.turn_flag_rw (.ccr d) _ (by rw [Reg.rw_ccr]; rfl)]

/-! ## Windows that agree outside some registers -/

/-- The two windows agree at every byte outside the registers `P`. -/
def AgreeUpTo (P : List Reg) (s t : State) : Prop :=
  ∀ a, (∀ r ∈ P, a < r.offset ∨ r.offset + 4 ≤ a) → s.mem.readByte a = t.mem.readByte a

theorem AgreeUpTo.stored {P : List Reg} {s t : State} (h : AgreeUpTo P s t) (q : Reg) (hq : q ∉ P) : s.stored q = t.stored q := by
  have apart : ∀ i < 4, ∀ r ∈ P, q.offset + i < r.offset ∨ r.offset + 4 ≤ q.offset + i := by
    intro i hi r hr
    have := Reg.offset_apart q r (fun e => hq (e ▸ hr))
    omega
  simp only [State.stored, Memory.readWord]
  rw [h _ (apart 3 (by omega)), h _ (apart 2 (by omega)), h _ (apart 1 (by omega)), h q.offset (apart 0 (by omega))]

theorem AgreeUpTo.setStored {P : List Reg} {s t : State} (h : AgreeUpTo P s t) (q : Reg) (w : Word) :
    AgreeUpTo P (s.setStored q w) (t.setStored q w) :=
  fun a ha => Memory.readByte_writeWord_congr _ _ _ _ _ (h a ha)

theorem AgreeUpTo.setStored_left {P : List Reg} {s t : State} (h : AgreeUpTo P s t) (q : Reg) (hq : q ∈ P) (w : Word) :
    AgreeUpTo P (s.setStored q w) t :=
  fun a ha => (State.setStored_readByte s q w a (ha q hq)).trans (h a ha)

theorem AgreeUpTo.setStored_right {P : List Reg} {s t : State} (h : AgreeUpTo P s t) (q : Reg) (hq : q ∈ P) (w : Word) :
    AgreeUpTo P s (t.setStored q w) :=
  fun a ha => (h a ha).trans (State.setStored_readByte t q w a (ha q hq)).symm

theorem AgreeUpTo.raiseFlag {P : List Reg} {s t : State} (h : AgreeUpTo P s t) (q : Reg) (i : Nat) :
    AgreeUpTo P (s.raiseFlag q i) (t.raiseFlag q i) := by
  unfold State.raiseFlag
  by_cases hq : q ∈ P
  · exact (h.setStored_left q hq _).setStored_right q hq _
  · rw [h.stored q hq]
    exact h.setStored q _

/-- Each channel's latches happen in both windows alike, or touch the registers `P` only. -/
def LatchesAlike (P : List Reg) (s t : State) : Prop :=
  ∀ d : Channel, (s.riseArmed d = t.riseArmed d ∧ s.fallArmed d = t.fallArmed d) ∨
    (.crlr d ∈ P ∧ .cflr d ∈ P ∧ .ccr d ∈ P ∧ .cisr ∈ P)

theorem AgreeUpTo.apply {P : List Reg} {s t : State} (h : AgreeUpTo P s t) (hl : LatchesAlike P s t) (e : Event) :
    AgreeUpTo P (e.apply s) (e.apply t) := by
  cases e with
  | counter c n p => exact (h.setStored _ _).setStored _ _
  | pwmStatus c => exact h.raiseFlag _ _
  | riseLatch c n =>
    rcases hl c with ⟨hr, -⟩ | ⟨h1, -, h2, h3⟩
    · by_cases on : t.riseArmed c = true
      · simp only [Event.apply, hr, on, if_true]
        exact ((h.setStored _ _).raiseFlag _ _).raiseFlag _ _
      · simpa [Event.apply, hr, on] using h
    · simp only [Event.apply]
      split <;> split
      · exact ((h.setStored _ _).raiseFlag _ _).raiseFlag _ _
      · exact ((h.setStored_left _ h1 _).setStored_left _ h2 _).setStored_left _ h3 _
      · exact ((h.setStored_right _ h1 _).setStored_right _ h2 _).setStored_right _ h3 _
      · exact h
  | fallLatch c n =>
    rcases hl c with ⟨-, hf⟩ | ⟨-, h1, h2, h3⟩
    · by_cases on : t.fallArmed c = true
      · simp only [Event.apply, hf, on, if_true]
        exact ((h.setStored _ _).raiseFlag _ _).raiseFlag _ _
      · simpa [Event.apply, hf, on] using h
    · simp only [Event.apply]
      split <;> split
      · exact ((h.setStored _ _).raiseFlag _ _).raiseFlag _ _
      · exact ((h.setStored_left _ h1 _).setStored_left _ h2 _).setStored_left _ h3 _
      · exact ((h.setStored_right _ h1 _).setStored_right _ h2 _).setStored_right _ h3 _
      · exact h

/-! ## Turns, loads and stores -/

/-- Two states in which the Peripheral's turns differ inside the registers `P` only. -/
structure SameOutside (P : List Reg) (s t : State) : Prop where
  agree : AgreeUpTo P s t
  latches : LatchesAlike P s t
  schedule : s.schedule = t.schedule

theorem SameOutside.of_mem (P : List Reg) (s t : State) (hm : s.mem = t.mem) (hs : s.schedule = t.schedule) :
    SameOutside P s t where
  agree := fun a _ => by rw [hm]
  latches := fun d => .inl (by
    have h : ∀ r, s.stored r = t.stored r := fun r => State.stored_of_mem s t r hm
    simp [State.riseArmed, State.fallArmed, State.flag, h])
  schedule := hs

theorem SameOutside.turn {P : List Reg} {s t : State} (h : SameOutside P s t) : SameOutside P s.turn t.turn where
  agree := by
    have events : ∀ (es : List Event) (u v : State), AgreeUpTo P u v → LatchesAlike P u v →
        AgreeUpTo P (es.foldl (fun s e => e.apply s) u) (es.foldl (fun s e => e.apply s) v) := by
      intro es
      induction es with
      | nil => exact fun _ _ h _ => h
      | cons e es ih => exact fun u v h hl => ih _ _ (h.apply hl e) (fun d => by simpa using hl d)
    unfold State.turn
    rw [← h.schedule]
    split
    · exact h.agree
    · exact events _ _ _ h.agree h.latches
  latches := fun d => by simpa using h.latches d
  schedule := by simp [h.schedule]

/-- A load is a turn, as far as the window goes. -/
theorem SameOutside.load {P : List Reg} {s t : State} (h : SameOutside P s t) (r : Reg) : SameOutside P (s.load r).2 t.turn where
  agree := fun a ha => by simpa using h.turn.agree a ha
  latches := fun d => by
    simpa [State.riseArmed, State.fallArmed] using h.turn.latches d
  schedule := by simp [h.schedule]

/-- A store inside `P` is a turn outside `P`, if the latches are still alike after it. -/
theorem SameOutside.store {P : List Reg} {s t : State} (h : SameOutside P s t) (r : Reg) (hr : r ∈ P) (v : Word)
    (hl : LatchesAlike P (s.store r v) t.turn) : SameOutside P (s.store r v) t.turn where
  agree := fun a ha => (s.store_readByte r v a (ha r hr)).trans (h.turn.agree a ha)
  latches := hl
  schedule := by simp [h.schedule]

/-- A store that leaves the enable and arm bits as they were leaves the latches alike. -/
theorem SameOutside.store_of_armed {P : List Reg} {s t : State} (h : SameOutside P s t) (r : Reg) (hr : r ∈ P) (v : Word)
    (ha : ∀ d, (s.store r v).riseArmed d = s.riseArmed d ∧ (s.store r v).fallArmed d = s.fallArmed d) :
    SameOutside P (s.store r v) t.turn :=
  h.store r hr v fun d => by simpa [ha d] using h.latches d

end Sys2Proof.Machine
end

