-- ==== Sys2Proof/Laws/PerInstr.lean ====
section
/-! SUPPORT. One lemma per command: its encoding has its opcode in the opcode map and exactly its operands, each inside its type (R63, R64, R65). -/

namespace Sys2Proof.Laws.EncodeWellFormed

/-- The record of a command spells a command. -/
def Statement (i : Instr) : Prop := (encode i).wellFormed = true

theorem load32 (off : Word) (dst : Bool) : Statement (.load32 off dst) := by
  simp [Statement, encode, Record.wellFormed, Record.signature, operandsFit]

theorem store32 (off value : Word) : Statement (.store32 off value) := by
  simp [Statement, encode, Record.wellFormed, Record.signature, operandsFit]

theorem readModifyWriteBit (off bit : Word) (value : Bool) : Statement (.readModifyWriteBit off bit value) := by
  simp [Statement, encode, Record.wellFormed, Record.signature, operandsFit]

theorem setClockGate (ch : Word) (pass : Bool) : Statement (.setClockGate ch pass) := by
  simp [Statement, encode, Record.wellFormed, Record.signature, operandsFit]

theorem setClockBypass (ch : Word) (bypass : Bool) : Statement (.setClockBypass ch bypass) := by
  simp [Statement, encode, Record.wellFormed, Record.signature, operandsFit]

theorem configureClock (ch source divider : Word) : Statement (.configureClock ch source divider) := by
  simp [Statement, encode, Record.wellFormed, Record.signature, operandsFit]

theorem readClockConfig (ch : Word) (dst : Bool) : Statement (.readClockConfig ch dst) := by
  simp [Statement, encode, Record.wellFormed, Record.signature, operandsFit]

theorem setPrescaler (ch : Word) (prescaler : Byte) : Statement (.setPrescaler ch prescaler) := by
  simp [Statement, encode, Record.wellFormed, Record.signature, operandsFit]

theorem readPrescaler (ch : Word) (dst : Bool) : Statement (.readPrescaler ch dst) := by
  simp [Statement, encode, Record.wellFormed, Record.signature, operandsFit]

theorem isEnabled (ch : Word) (dst : Bool) : Statement (.isEnabled ch dst) := by
  simp [Statement, encode, Record.wellFormed, Record.signature, operandsFit]

theorem setEnabled (ch : Word) (enabled : Bool) : Statement (.setEnabled ch enabled) := by
  simp [Statement, encode, Record.wellFormed, Record.signature, operandsFit]

theorem setPeriod (ch : Word) (entire active : Half) : Statement (.setPeriod ch entire active) := by
  simp [Statement, encode, Record.wellFormed, Record.signature, operandsFit]

theorem getPeriod (ch : Word) (dst : Bool) : Statement (.getPeriod ch dst) := by
  simp [Statement, encode, Record.wellFormed, Record.signature, operandsFit]

theorem setPolarity (ch : Word) (polarity : Bool) : Statement (.setPolarity ch polarity) := by
  simp [Statement, encode, Record.wellFormed, Record.signature, operandsFit]

theorem setCaptureEnable (ch : Word) (rising falling : Bool) : Statement (.setCaptureEnable ch rising falling) := by
  simp [Statement, encode, Record.wellFormed, Record.signature, operandsFit]

theorem setCaptureInterruptEnable (ch : Word) (rising falling : Bool) : Statement (.setCaptureInterruptEnable ch rising falling) := by
  simp [Statement, encode, Record.wellFormed, Record.signature, operandsFit]

theorem clearCaptureInterrupt (ch : Word) (rising falling : Bool) : Statement (.clearCaptureInterrupt ch rising falling) := by
  simp [Statement, encode, Record.wellFormed, Record.signature, operandsFit]

theorem readCaptureInterruptStatus (ch : Word) (dst : Bool) : Statement (.readCaptureInterruptStatus ch dst) := by
  simp [Statement, encode, Record.wellFormed, Record.signature, operandsFit]

theorem readRiseLockCount (ch : Word) (dst : Bool) : Statement (.readRiseLockCount ch dst) := by
  simp [Statement, encode, Record.wellFormed, Record.signature, operandsFit]

theorem readFallLockCount (ch : Word) (dst : Bool) : Statement (.readFallLockCount ch dst) := by
  simp [Statement, encode, Record.wellFormed, Record.signature, operandsFit]

theorem readRiseLockFlag (ch : Word) (dst : Bool) : Statement (.readRiseLockFlag ch dst) := by
  simp [Statement, encode, Record.wellFormed, Record.signature, operandsFit]

theorem readFallLockFlag (ch : Word) (dst : Bool) : Statement (.readFallLockFlag ch dst) := by
  simp [Statement, encode, Record.wellFormed, Record.signature, operandsFit]

theorem applyPwmConfig (ch source divider : Word) (prescaler : Byte) (entire active : Half) (polarity enabled : Bool) : Statement (.applyPwmConfig ch source divider prescaler entire active polarity enabled) := by
  simp [Statement, encode, Record.wellFormed, Record.signature, operandsFit]

theorem readPwmConfig (ch : Word) (dst : Bool) : Statement (.readPwmConfig ch dst) := by
  simp [Statement, encode, Record.wellFormed, Record.signature, operandsFit]

theorem setDutyPercent (ch percent : Word) : Statement (.setDutyPercent ch percent) := by
  simp [Statement, encode, Record.wellFormed, Record.signature, operandsFit]

theorem applyCaptureConfig (ch source divider : Word) (prescaler : Byte) (rising falling : Bool) : Statement (.applyCaptureConfig ch source divider prescaler rising falling) := by
  simp [Statement, encode, Record.wellFormed, Record.signature, operandsFit]

theorem captureBlocking (ch : Word) (dst : Bool) : Statement (.captureBlocking ch dst) := by
  simp [Statement, encode, Record.wellFormed, Record.signature, operandsFit]

theorem effectiveClockPeriodNs (source divider : Word) (prescaler : Byte) (dst : Bool) : Statement (.effectiveClockPeriodNs source divider prescaler dst) := by
  simp [Statement, encode, Record.wellFormed, Record.signature, operandsFit]

theorem rawToNanoseconds (ch : Word) (onCycles offCycles : Half) (dst : Bool) : Statement (.rawToNanoseconds ch onCycles offCycles dst) := by
  simp [Statement, encode, Record.wellFormed, Record.signature, operandsFit]

theorem maxCaptureDurationNs (ch : Word) (dst : Bool) : Statement (.maxCaptureDurationNs ch dst) := by
  simp [Statement, encode, Record.wellFormed, Record.signature, operandsFit]

theorem outputFrequencyHz (ch : Word) (dst : Bool) : Statement (.outputFrequencyHz ch dst) := by
  simp [Statement, encode, Record.wellFormed, Record.signature, operandsFit]

end Sys2Proof.Laws.EncodeWellFormed
end

