-- ==== Sys2Proof/Laws/Sequencer.lean ====
section
/-! SUPPORT. The sequencer: a command's lines one by one, what a line and a Core step can do, and the acceptance of a command. -/

namespace Sys2Proof.Machine

/-! ## Running lines, by their kind -/

@[simp] theorem runLines_nil (cmd : Instr) (loc : Locals) (s : State) : runLines cmd [] loc s = s.finish .ok [] := rfl

@[simp] theorem runLines_read (cmd : Instr) (x : Read) (rest : List Line) (loc : Locals) (s : State) :
    runLines cmd (.read x :: rest) loc s = runLines cmd rest (x.into (s.load x.reg).1 loc) (s.load x.reg).2 := rfl

@[simp] theorem runLines_write (cmd : Instr) (r : Reg) (v : Word) (rest : List Line) (loc : Locals) (s : State) :
    runLines cmd (.write r v :: rest) loc s = runLines cmd rest loc (s.store r v) := rfl

@[simp] theorem runLines_writeBit (cmd : Instr) (r : Reg) (i : Nat) (b : Bool) (m : Word) (rest : List Line) (loc : Locals) (s : State) :
    runLines cmd (.writeBit r i b m :: rest) loc s = runLines cmd rest loc (s.store r (setBit loc.w.fields i b m)) := rfl

@[simp] theorem runLines_writePrescaler (cmd : Instr) (c : Channel) (p : Byte) (rest : List Line) (loc : Locals) (s : State) :
    runLines cmd (.writePrescaler c p :: rest) loc s =
      runLines cmd rest loc (s.store (.pcr c) (prescalerWord loc.w.fields p)) := rfl

@[simp] theorem runLines_writeDuty (cmd : Instr) (c : Channel) (p : Nat) (rest : List Line) (loc : Locals) (s : State) :
    runLines cmd (.writeDuty c p :: rest) loc s =
      runLines cmd rest loc (s.store (.ppr c) (periodWord loc.entire (dutyActive loc.entire p))) := rfl

@[simp] theorem runLines_raise (cmd : Instr) (e : Code) (rest : List Line) (loc : Locals) (s : State) :
    runLines cmd (.raise e :: rest) loc s = s.finish e [] := rfl

@[simp] theorem runLines_ret (cmd : Instr) (x : Result) (rest : List Line) (loc : Locals) (s : State) :
    runLines cmd (.ret x :: rest) loc s = s.finish .ok (x.values loc) := rfl

@[simp] theorem runLines_raiseIfBadDivider (cmd : Instr) (rest : List Line) (loc : Locals) (s : State) :
    runLines cmd (.raiseIfBadDivider :: rest) loc s =
      if loc.divider.toNat > 8 then s.finish .invalidArgument [] else runLines cmd rest loc s := by
  by_cases h : loc.divider.toNat > 8 <;> simp [runLines, Line.perform, h]

@[simp] theorem runLines_raiseIfEnabled (cmd : Instr) (rest : List Line) (loc : Locals) (s : State) :
    runLines cmd (.raiseIfEnabled :: rest) loc s = if loc.enabled then s.finish .busy [] else runLines cmd rest loc s := by
  by_cases h : loc.enabled = true <;> simp [runLines, Line.perform, h]

@[simp] theorem runLines_waitDisable (cmd : Instr) (c : Channel) (rest : List Line) (loc : Locals) (s : State) :
    runLines cmd (.waitDisable c :: rest) loc s =
      if loc.enabled && loc.pulse != 0 then s.sleep cmd (disableLoop c ++ rest) loc Config.disablePoll
      else runLines cmd rest loc s := by
  by_cases h : (loc.enabled && loc.pulse != 0) = true <;> simp only [runLines, Line.perform, h, if_true, if_false] <;> rfl

@[simp] theorem runLines_waitCapture (cmd : Instr) (c : Channel) (rest : List Line) (loc : Locals) (s : State) :
    runLines cmd (.waitCapture c :: rest) loc s =
      if loc.fall && loc.rise then runLines cmd rest loc s
      else s.sleep cmd (captureLoop c ++ rest) loc Config.capturePoll := by
  by_cases h : (loc.fall && loc.rise) = true <;> simp only [runLines, Line.perform, h, if_true, if_false] <;> rfl

/-! ## Accepting a command -/

theorem accept_idle (cmd : Instr) (lines : List Line) (s : State) (h : s.seq = .idle) :
    accept cmd lines s = .next (runLines cmd lines {} s.begin) := by
  simp [accept, h]

theorem accept_busy (cmd : Instr) (lines : List Line) (s : State) (h : s.seq ≠ .idle) :
    accept cmd lines s = .fault .commandNotAccepted := by
  unfold accept
  split
  · next e => exact absurd e h
  · rfl

theorem acceptAt_idle (cmd : Instr) (off : Word) (lines : Reg → List Line) (s : State) (r : Reg) (h : s.seq = .idle)
    (hr : Reg.ofOffset off = some r) : acceptAt cmd off lines s = .next (runLines cmd (lines r) {} s.begin) := by
  simp [acceptAt, h, hr, accept_idle]

theorem acceptAt_refused (cmd : Instr) (off : Word) (lines : Reg → List Line) (s : State) (h : s.seq = .idle)
    (hr : Reg.ofOffset off = none) : acceptAt cmd off lines s = .refused (.accessRefused off) := by
  simp [acceptAt, h, hr]

theorem acceptAt_busy (cmd : Instr) (off : Word) (lines : Reg → List Line) (s : State) (h : s.seq ≠ .idle) :
    acceptAt cmd off lines s = .fault .commandNotAccepted := by
  unfold acceptAt
  split
  · next e _ => exact absurd e h
  · next e _ => exact absurd e h
  · rfl

@[simp] theorem withDst_true (lines : List Line) : withDst true lines = lines := rfl
@[simp] theorem withDst_false (lines : List Line) : withDst false lines = [.raise .nullOutput] := rfl

theorem withChannel_some (ch : Word) (c : Channel) (lines : Channel → List Line) (h : channel? ch = some c) :
    withChannel ch lines = lines c := by simp [withChannel, h]

theorem withChannel_none (ch : Word) (lines : Channel → List Line) (h : channel? ch = none) :
    withChannel ch lines = [.raise .invalidChannel] := by simp [withChannel, h]

/-- A command on a valid channel runs its lines. -/
theorem accept_withChannel (cmd : Instr) (ch : Word) (c : Channel) (lines : Channel → List Line) (s : State)
    (hs : s.seq = .idle) (hc : ch.toInt = c.val) :
    accept cmd (withChannel ch lines) s = .next (runLines cmd (lines c) {} s.begin) := by
  rw [accept_idle _ _ _ hs, withChannel_some _ c _ ((channel?_eq_some ch c).2 hc)]

/-- A command on an invalid channel is turned away before any access. -/
theorem accept_withChannel_invalid (cmd : Instr) (ch : Word) (lines : Channel → List Line) (s : State)
    (hs : s.seq = .idle) (hc : ¬(0 ≤ ch.toInt ∧ ch.toInt ≤ 7)) :
    accept cmd (withChannel ch lines) s = .next (s.begin.finish .invalidChannel []) := by
  rw [accept_idle _ _ _ hs, withChannel_none _ _ ((channel?_eq_none ch).2 hc), runLines_raise]

/-- A read-modify-write as lines is the read-modify-write as one operation (R45, R46). -/
theorem runLines_rmw (cmd : Instr) (r : Reg) (i : Nat) (b : Bool) (m : Word) (rest : List Line) (loc : Locals) (s : State) :
    runLines cmd (rmwLines r i b m ++ rest) loc s =
      runLines cmd rest { loc with w := (s.load r).1 } (s.rmwBit r i b m) := rfl

/-! ## What a line can do to the state -/

/-- A line that goes on has left the state alone, or made one load, or made one store. -/
theorem Line.perform_go (l : Line) (loc loc' : Locals) (s s' : State) (h : l.perform loc s = .go loc' s') :
    s' = s ∨ (∃ r, s' = (s.load r).2) ∨ ∃ r v, s' = s.store r v := by
  cases l <;> simp only [Line.perform] at h <;> (try split at h) <;> simp only [After.go.injEq, reduceCtorEq] at h
  all_goals obtain ⟨-, rfl⟩ := h
  all_goals first | exact .inl rfl | exact .inr (.inl ⟨_, rfl⟩) | exact .inr (.inr ⟨_, _, rfl⟩)

/-- A line that ends the command makes no access. -/
theorem Line.perform_done (l : Line) (loc : Locals) (s s' : State) (e : Code) (v : List Value)
    (h : l.perform loc s = .done e v s') : s' = s := by
  cases l <;> simp only [Line.perform] at h <;> (try split at h) <;> simp_all

/-- What every load, every store, the end of a command and the start of a sleep keep, a run of lines keeps. -/
theorem runLines_induct (P : State → Prop) (hload : ∀ s r, P s → P (s.load r).2) (hstore : ∀ s r v, P s → P (s.store r v))
    (hfinish : ∀ s e v, P s → P (s.finish e v)) (hsleep : ∀ s cmd l loc t, P s → P (s.sleep cmd l loc t))
    (cmd : Instr) (lines : List Line) (loc : Locals) (s : State) (h : P s) : P (runLines cmd lines loc s) := by
  induction lines generalizing loc s with
  | nil => exact hfinish _ _ _ h
  | cons l rest ih =>
    rw [runLines]
    split
    · next loc' s' hgo =>
      apply ih
      rcases l.perform_go loc loc' s s' hgo with rfl | ⟨r, rfl⟩ | ⟨r, v, rfl⟩
      · exact h
      · exact hload _ _ h
      · exact hstore _ _ _ h
    · next e v s' hdone =>
      rw [l.perform_done loc s s' e v hdone]
      exact hfinish _ _ _ h
    · exact hsleep _ _ _ _ _ h

end Sys2Proof.Machine
end

