-- ==== Sys2Proof/Machine/Assembler.lean ====
section
/-! DEFINITION. The assembler syntax (R69): one line of text as a record. It stands beside the machine, which is handed records (R62). -/

namespace Sys2Proof.Machine

/-- The mnemonics, "spelled as in rule R63" (R69), with their opcodes. -/
def asmMnemonics : List (String × Byte) :=
  [("load32", 0x01), ("store32", 0x02), ("readModifyWriteBit", 0x03), ("setClockGate", 0x10), ("setClockBypass", 0x11),
    ("configureClock", 0x12), ("readClockConfig", 0x13), ("setPrescaler", 0x14), ("readPrescaler", 0x15),
    ("isEnabled", 0x20), ("setEnabled", 0x21), ("setPeriod", 0x22), ("getPeriod", 0x23), ("setPolarity", 0x24)]
  ++ [("setCaptureEnable", 0x30), ("setCaptureInterruptEnable", 0x31), ("clearCaptureInterrupt", 0x32),
    ("readCaptureInterruptStatus", 0x33), ("readRiseLockCount", 0x34), ("readFallLockCount", 0x35),
    ("readRiseLockFlag", 0x36), ("readFallLockFlag", 0x37)]
  ++ [("applyPwmConfig", 0x40), ("readPwmConfig", 0x41), ("setDutyPercent", 0x42), ("applyCaptureConfig", 0x43),
    ("captureBlocking", 0x44), ("effectiveClockPeriodNs", 0x45), ("rawToNanoseconds", 0x46),
    ("maxCaptureDurationNs", 0x47), ("outputFrequencyHz", 0x48)]

/-- The value of a digit character in a base of at most 16. DESIGN CHOICE (log 19): a hexadecimal digit may be a letter of either case. -/
def asmDigit (base : Nat) (c : Char) : Option Nat :=
  let v :=
    if '0' ≤ c ∧ c ≤ '9' then c.toNat - '0'.toNat
    else if 'a' ≤ c ∧ c ≤ 'f' then c.toNat - 'a'.toNat + 10
    else if 'A' ≤ c ∧ c ≤ 'F' then c.toNat - 'A'.toNat + 10
    else 16
  if v < base then some v else none

/-- The rest of a number after the digits that make `n`, the most significant digit first. DESIGN CHOICE (log 19): a `_` after the first digit groups digits and counts for
nothing, as the spec's own numbers are written (`0x0000_0003`). -/
def asmDigits (base : Nat) : List Char → Nat → Option Nat
  | [], n => some n
  | '_' :: rest, n => asmDigits base rest n
  | c :: rest, n =>
    match asmDigit base c with
    | some v => asmDigits base rest (n * base + v)
    | none => none

/-- A number in a base: it begins with a digit. -/
def asmInBase (base : Nat) : List Char → Option Nat
  | [] => none
  | c :: rest => (asmDigit base c).bind (asmDigits base rest)

/-- "Numbers are decimal or `0x` hexadecimal" (R69). -/
def asmNumber : List Char → Option Nat
  | '0' :: 'x' :: digits => asmInBase 16 digits
  | digits => asmInBase 10 digits

/-- A number as an operand slot: 32 bits (log 1). DESIGN CHOICE (log 19): a leading `-` is read in two's complement for the int32 types `ch` and `pct`, down to
-2^31, and a number from 2^31 to 2^32 - 1 is accepted for these types too, as the 32 bits it spells, which are then a negative int32. -/
def asmSlot (t : OperandType) : List Char → Option Word
  | '-' :: rest =>
    match t, asmNumber rest with
    | .ch, some n => if n ≤ 2 ^ 31 then some (-(BitVec.ofNat 32 n)) else none
    | .pct, some n => if n ≤ 2 ^ 31 then some (-(BitVec.ofNat 32 n)) else none
    | _, _ => none
  | word =>
    match asmNumber word with
    | some n => if n < 2 ^ 32 then some (BitVec.ofNat 32 n) else none
    | none => none

/-- The words that stand for a number in an operand of some types (R69). -/
def asmNames : OperandType → List (String × Word)
  | .bool => [("false", 0), ("true", 1)]
  | .pol => [("false", 0), ("true", 1), ("low", 0), ("high", 1)]
  | .src => [("crystal", 0), ("bus", 1)]
  | _ => []

/-- One operand. -/
def asmOperand (t : OperandType) (word : List Char) : Option Word :=
  match (asmNames t).find? fun entry => entry.1.toList == word with
  | some entry => some entry.2
  | none => asmSlot t word

/-- A line cut into words; a comma is a word of its own. -/
def asmWords : List Char → List Char → List (List Char)
  | [], word => if word.isEmpty then [] else [word.reverse]
  | c :: rest, word =>
    let before := if word.isEmpty then [] else [word.reverse]
    if c = ' ' then before ++ asmWords rest []
    else if c = ',' then before ++ [[',']] ++ asmWords rest []
    else asmWords rest (c :: word)

/-- The operands of the given types, with commas between them, and the words after them. -/
def asmOperands : List OperandType → List (List Char) → Option (List Word × List (List Char))
  | [], words => some ([], words)
  | _ :: _, [] => none
  | [t], word :: rest =>
    match asmOperand t word with
    | some v => some ([v], rest)
    | none => none
  | t :: ts, word :: rest =>
    match rest with
    | [','] :: rest' =>
      match asmOperand t word, asmOperands ts rest' with
      | some v, some (vs, after) => some (v :: vs, after)
      | _, _ => none
    | _ => none

/-- The `dst` operand "is not written: it is 1, and the suffix ` nodst` makes it 0" (R69). -/
def asmDst (types : List OperandType) (after : List (List Char)) : Option (List Word) :=
  if types.contains .dst then
    if after.isEmpty then some [1] else if after == ["nodst".toList] then some [0] else none
  else if after.isEmpty then some []
  else none

/-- The record a line spells: the mnemonic, its operands in the order of R65, and a comment from `;` on (R69). None where the line spells no command. -/
def assemble (line : String) : Option Record :=
  match asmWords (line.toList.takeWhile (· != ';')) [] with
  | [] => none
  | mnemonic :: words =>
    match asmMnemonics.find? fun entry => entry.1.toList == mnemonic with
    | none => none
    | some (_, opcode) =>
      match Record.signature opcode with
      | none => none
      | some types =>
        match asmOperands (types.filter (· != .dst)) words with
        | none => none
        | some (vs, after) =>
          match asmDst types after with
          | none => none
          | some slot => some ⟨opcode, vs ++ slot⟩

end Sys2Proof.Machine
end

