-- ==== Sys2Proof/Tests/Slice0.lean ====
section
/-! SUPPORT. Our own tests. Expected results are the spec's worked examples (30 to 44) and its vectors (95_test_vectors.md: A, K, P, Q, M, E, the tables, the programs), named in each test's comment. -/

namespace Sys2Proof.Tests

open Machine

/-! ## Helpers -/

/-- The reset state with some registers at other words. -/
def start (words : List (Reg × Word)) : State := words.foldl (fun s p => s.setStored p.1 p.2) State.reset

/-- The state after one step on a record. -/
def issue (s : State) (r : Record) : Option State :=
  match step (s.putInbox [r]) with
  | .next t => some t
  | _ => none

/-- The answer after one step on a record. -/
def answer (s : State) (r : Record) : Option Response := (issue s r).bind (·.response)

/-- The words of some registers after one step on a record. -/
def after (s : State) (r : Record) (regs : List Reg) : Option (List Word) := (issue s r).map fun t => regs.map t.stored

/-- The accesses of one step on a record. -/
def accesses (s : State) (r : Record) : Option (List Access) := (issue s r).map (·.bus)

/-- The command has a next state. -/
def goesOn (i : Instr) (s : State) : Bool :=
  match exec i s with
  | .next _ => true
  | _ => false

/-- A state in which captureBlocking has gone to sleep on channel 2. -/
def asleep : State := (issue (start []) ⟨0x44, [2, 1]⟩).getD State.reset

/-! ## Well-formed records: an ill-formed one for each check (R67, R68) -/

theorem test_ill_formed_unknown_opcode : Record.wellFormed ⟨0x49, [0, 1]⟩ = false ∧ decode ⟨0x49, [0, 1]⟩ = .error (.unknownOpcode 0x49) := by decide

theorem test_ill_formed_zero_opcode : Record.wellFormed ⟨0x00, []⟩ = false ∧ decode ⟨0x00, []⟩ = .error (.unknownOpcode 0x00) := by decide

theorem test_ill_formed_bool_of_two : Record.wellFormed ⟨0x21, [4, 2]⟩ = false ∧ decode ⟨0x21, [4, 2]⟩ = .error (.badOperand 0x21 "enabled") := by decide

theorem test_ill_formed_polarity_of_two : Record.wellFormed ⟨0x24, [1, 2]⟩ = false ∧ decode ⟨0x24, [1, 2]⟩ = .error (.badOperand 0x24 "polarity") := by decide

theorem test_ill_formed_dst_of_two : Record.wellFormed ⟨0x20, [3, 2]⟩ = false ∧ decode ⟨0x20, [3, 2]⟩ = .error (.badOperand 0x20 "dst") := by decide

theorem test_ill_formed_prescaler_of_256 : Record.wellFormed ⟨0x14, [1, 256]⟩ = false ∧ decode ⟨0x14, [1, 256]⟩ = .error (.badOperand 0x14 "prescaler") := by decide

theorem test_ill_formed_entire_of_65536 : Record.wellFormed ⟨0x22, [3, 65536, 0]⟩ = false ∧ decode ⟨0x22, [3, 65536, 0]⟩ = .error (.badOperand 0x22 "entire") := by decide

theorem test_ill_formed_active_of_65536 : Record.wellFormed ⟨0x22, [3, 0, 65536]⟩ = false ∧ decode ⟨0x22, [3, 0, 65536]⟩ = .error (.badOperand 0x22 "active") := by decide

theorem test_ill_formed_missing_operand : Record.wellFormed ⟨0x12, [2, 1]⟩ = false ∧ decode ⟨0x12, [2, 1]⟩ = .error (.badOperand 0x12 "divider") := by decide

theorem test_ill_formed_surplus_operand : Record.wellFormed ⟨0x02, [0x184, 0, 0]⟩ = false ∧ decode ⟨0x02, [0x184, 0, 0]⟩ = .error (.badOperand 0x02 "surplus") := by decide

/-- R67, R120 -/
theorem test_step_refuses_unknown_opcode : (match step (State.reset.putInbox [⟨0x49, []⟩]) with | .refused e => decide (e = .unknownOpcode 0x49) | _ => false) = true := by decide

/-- R68, R120 -/
theorem test_step_refuses_bad_operand : (match step (State.reset.putInbox [⟨0x21, [4, 2]⟩]) with | .refused e => decide (e = .badOperand 0x21 "enabled") | _ => false) = true := by decide

/-- Program 3, command 11 -/
theorem test_step_refuses_access : (match step (State.reset.putInbox [⟨0x01, [0x2A, 1]⟩]) with | .refused e => decide (e = .accessRefused 0x2A) | _ => false) = true := by decide

/-! ## Decoding: every command, from a record written out from R63 and R65 -/

theorem test_decode_load32 : decode ⟨0x01, [0x160, 1]⟩ = .ok (.load32 0x160 true) ∧ encode (.load32 0x160 true) = ⟨0x01, [0x160, 1]⟩ := by decide

theorem test_decode_store32 : decode ⟨0x02, [0x184, 0x00640032]⟩ = .ok (.store32 0x184 0x00640032) ∧ encode (.store32 0x184 0x00640032) = ⟨0x02, [0x184, 0x00640032]⟩ := by decide

theorem test_decode_readModifyWriteBit : decode ⟨0x03, [0x80, 4, 0]⟩ = .ok (.readModifyWriteBit 0x80 4 false) ∧ encode (.readModifyWriteBit 0x80 4 false) = ⟨0x03, [0x80, 4, 0]⟩ := by decide

theorem test_decode_setClockGate : decode ⟨0x10, [5, 1]⟩ = .ok (.setClockGate 5 true) ∧ encode (.setClockGate 5 true) = ⟨0x10, [5, 1]⟩ := by decide

theorem test_decode_setClockBypass : decode ⟨0x11, [5, 1]⟩ = .ok (.setClockBypass 5 true) ∧ encode (.setClockBypass 5 true) = ⟨0x11, [5, 1]⟩ := by decide

theorem test_decode_configureClock : decode ⟨0x12, [9, 1, 0]⟩ = .ok (.configureClock 9 1 0) ∧ encode (.configureClock 9 1 0) = ⟨0x12, [9, 1, 0]⟩ := by decide

theorem test_decode_readClockConfig : decode ⟨0x13, [3, 1]⟩ = .ok (.readClockConfig 3 true) ∧ encode (.readClockConfig 3 true) = ⟨0x13, [3, 1]⟩ := by decide

theorem test_decode_setPrescaler : decode ⟨0x14, [1, 49]⟩ = .ok (.setPrescaler 1 49) ∧ encode (.setPrescaler 1 49) = ⟨0x14, [1, 49]⟩ := by decide

theorem test_decode_readPrescaler : decode ⟨0x15, [3, 0]⟩ = .ok (.readPrescaler 3 false) ∧ encode (.readPrescaler 3 false) = ⟨0x15, [3, 0]⟩ := by decide

theorem test_decode_isEnabled : decode ⟨0x20, [0, 1]⟩ = .ok (.isEnabled 0 true) ∧ encode (.isEnabled 0 true) = ⟨0x20, [0, 1]⟩ := by decide

theorem test_decode_setEnabled : decode ⟨0x21, [4, 1]⟩ = .ok (.setEnabled 4 true) ∧ encode (.setEnabled 4 true) = ⟨0x21, [4, 1]⟩ := by decide

theorem test_decode_setPeriod : decode ⟨0x22, [4, 5, 6]⟩ = .ok (.setPeriod 4 5 6) ∧ encode (.setPeriod 4 5 6) = ⟨0x22, [4, 5, 6]⟩ := by decide

theorem test_decode_getPeriod : decode ⟨0x23, [3, 1]⟩ = .ok (.getPeriod 3 true) ∧ encode (.getPeriod 3 true) = ⟨0x23, [3, 1]⟩ := by decide

theorem test_decode_setPolarity : decode ⟨0x24, [1, 1]⟩ = .ok (.setPolarity 1 true) ∧ encode (.setPolarity 1 true) = ⟨0x24, [1, 1]⟩ := by decide

theorem test_decode_setCaptureEnable : decode ⟨0x30, [2, 1, 0]⟩ = .ok (.setCaptureEnable 2 true false) ∧ encode (.setCaptureEnable 2 true false) = ⟨0x30, [2, 1, 0]⟩ := by decide

theorem test_decode_setCaptureInterruptEnable : decode ⟨0x31, [7, 1, 0]⟩ = .ok (.setCaptureInterruptEnable 7 true false) ∧ encode (.setCaptureInterruptEnable 7 true false) = ⟨0x31, [7, 1, 0]⟩ := by decide

theorem test_decode_clearCaptureInterrupt : decode ⟨0x32, [2, 0, 1]⟩ = .ok (.clearCaptureInterrupt 2 false true) ∧ encode (.clearCaptureInterrupt 2 false true) = ⟨0x32, [2, 0, 1]⟩ := by decide

theorem test_decode_readCaptureInterruptStatus : decode ⟨0x33, [2, 1]⟩ = .ok (.readCaptureInterruptStatus 2 true) ∧ encode (.readCaptureInterruptStatus 2 true) = ⟨0x33, [2, 1]⟩ := by decide

theorem test_decode_readRiseLockCount : decode ⟨0x34, [2, 1]⟩ = .ok (.readRiseLockCount 2 true) ∧ encode (.readRiseLockCount 2 true) = ⟨0x34, [2, 1]⟩ := by decide

theorem test_decode_readFallLockCount : decode ⟨0x35, [2, 1]⟩ = .ok (.readFallLockCount 2 true) ∧ encode (.readFallLockCount 2 true) = ⟨0x35, [2, 1]⟩ := by decide

theorem test_decode_readRiseLockFlag : decode ⟨0x36, [2, 1]⟩ = .ok (.readRiseLockFlag 2 true) ∧ encode (.readRiseLockFlag 2 true) = ⟨0x36, [2, 1]⟩ := by decide

theorem test_decode_readFallLockFlag : decode ⟨0x37, [2, 0]⟩ = .ok (.readFallLockFlag 2 false) ∧ encode (.readFallLockFlag 2 false) = ⟨0x37, [2, 0]⟩ := by decide

theorem test_decode_applyPwmConfig : decode ⟨0x40, [3, 0, 3, 2, 999, 600, 1, 1]⟩ = .ok (.applyPwmConfig 3 0 3 2 999 600 true true) ∧ encode (.applyPwmConfig 3 0 3 2 999 600 true true) = ⟨0x40, [3, 0, 3, 2, 999, 600, 1, 1]⟩ := by decide

theorem test_decode_readPwmConfig : decode ⟨0x41, [3, 1]⟩ = .ok (.readPwmConfig 3 true) ∧ encode (.readPwmConfig 3 true) = ⟨0x41, [3, 1]⟩ := by decide

theorem test_decode_setDutyPercent : decode ⟨0x42, [3, 25]⟩ = .ok (.setDutyPercent 3 25) ∧ encode (.setDutyPercent 3 25) = ⟨0x42, [3, 25]⟩ := by decide

theorem test_decode_applyCaptureConfig : decode ⟨0x43, [2, 1, 0, 49, 1, 0]⟩ = .ok (.applyCaptureConfig 2 1 0 49 true false) ∧ encode (.applyCaptureConfig 2 1 0 49 true false) = ⟨0x43, [2, 1, 0, 49, 1, 0]⟩ := by decide

theorem test_decode_captureBlocking : decode ⟨0x44, [2, 1]⟩ = .ok (.captureBlocking 2 true) ∧ encode (.captureBlocking 2 true) = ⟨0x44, [2, 1]⟩ := by decide

theorem test_decode_effectiveClockPeriodNs : decode ⟨0x45, [1, 5, 49, 1]⟩ = .ok (.effectiveClockPeriodNs 1 5 49 true) ∧ encode (.effectiveClockPeriodNs 1 5 49 true) = ⟨0x45, [1, 5, 49, 1]⟩ := by decide

theorem test_decode_rawToNanoseconds : decode ⟨0x46, [2, 100, 50, 1]⟩ = .ok (.rawToNanoseconds 2 100 50 true) ∧ encode (.rawToNanoseconds 2 100 50 true) = ⟨0x46, [2, 100, 50, 1]⟩ := by decide

theorem test_decode_maxCaptureDurationNs : decode ⟨0x47, [2, 1]⟩ = .ok (.maxCaptureDurationNs 2 true) ∧ encode (.maxCaptureDurationNs 2 true) = ⟨0x47, [2, 1]⟩ := by decide

theorem test_decode_outputFrequencyHz : decode ⟨0x48, [3, 1]⟩ = .ok (.outputFrequencyHz 3 true) ∧ encode (.outputFrequencyHz 3 true) = ⟨0x48, [3, 1]⟩ := by decide

/-- The layout of log 2: opcode in bits 7:0, then one 32-bit slot an operand. -/
theorem test_decode_table_word : decodeTableWord 8 0x21 = some (.setEnabled 0 false) ∧ decodeTableWord 72 0x010000000421 = some (.setEnabled 4 true) := by decide

/-- R69's three examples -/
theorem test_assemble_examples : assemble "setPeriod 3, 999, 600" = some ⟨0x22, [3, 999, 600]⟩ ∧ assemble "configureClock 2, bus, 0" = some ⟨0x12, [2, 1, 0]⟩ ∧ assemble "readPrescaler 3 nodst" = some ⟨0x15, [3, 0]⟩ := ⟨by decide, by decide, by decide⟩

/-- Program 3, command 6 -/
theorem test_assemble_hexadecimal_and_comment : assemble "store32 0x184, 0x00640032 ; PPR(4)" = some ⟨0x02, [0x184, 0x00640032]⟩ := by decide

/-- R73's example (log 19) -/
theorem test_assemble_digit_groups : assemble "store32 0x14, 0x0000_0003" = some ⟨0x02, [0x14, 0x00000003]⟩ ∧ assemble "store32 0x14, _3" = none := ⟨by decide, by decide⟩

/-- log 19 -/
theorem test_assemble_int32_from_2_31 : assemble "setDutyPercent 3, 0xFFFFFFFF" = some ⟨0x42, [3, 0xFFFFFFFF]⟩ ∧ assemble "setDutyPercent 3, 0x100000000" = none := ⟨by decide, by decide⟩

/-- the duty table (log 19) -/
theorem test_assemble_negative_percent : assemble "setDutyPercent 3, -1" = some ⟨0x42, [3, 0xFFFFFFFF]⟩ := by decide

/-! ## One step of each command (95_test_vectors.md) -/

/-- R72's example: the word of `PPR(0)` comes back. -/
theorem test_load32 : ∃ t, issue (start [(.ppr 0, 0x03E70258)]) ⟨0x01, [0x104, 1]⟩ = some t ∧
    t.response = some ⟨.ok, [.word (0x03E70258 ||| (Config.reservedBits 0 &&& 0))]⟩ := ⟨_, rfl, rfl⟩

/-- R72 -/
theorem test_load32_nodst : answer (start [(.ppr 0, 0x03E70258)]) ⟨0x01, [0x104, 0]⟩ = some ⟨.nullOutput, []⟩ := by decide

/-- R73's example, with two more flags that stay -/
theorem test_store32 : after (start [(.cisr, 0x0F)]) ⟨0x02, [0x14, 0x00000003]⟩ [.cisr] = some [0x0C] := by decide

/-- R73: a store to an `RO` register has no effect -/
theorem test_store32_read_only : after (start [(.pcntr 1, 7)]) ⟨0x02, [0x128, 9]⟩ [.pcntr 1] = some [7] := by decide

/-- R74's example -/
theorem test_readModifyWriteBit : after (start [(.pcgr, 0x00000001)]) ⟨0x03, [0x40, 16, 1]⟩ [.pcgr] = some [0x00010001] := by decide

/-- R74's example -/
theorem test_readModifyWriteBit_out_of_range : accesses (start [(.pcgr, 0x00000001)]) ⟨0x03, [0x40, 32, 1]⟩ = some [] := by decide

/-- R75's example -/
theorem test_setClockGate : after (start []) ⟨0x10, [5, 1]⟩ [.pcgr] = some [0x20] := by decide

/-- R76's example -/
theorem test_setClockBypass : after (start [(.pcgr, 0x20)]) ⟨0x11, [5, 1]⟩ [.pcgr] = some [0x00200020] := by decide

/-- R77's example -/
theorem test_configureClock : after (start []) ⟨0x12, [2, 1, 0]⟩ [.pccr 1, .pccr 0] = some [0x80, 0] := by decide

/-- R77's example: nothing is stored -/
theorem test_configureClock_bad_divider : accesses (start []) ⟨0x12, [2, 0, 9]⟩ = some [] := by decide

/-- K19 -/
theorem test_readClockConfig : answer (start [(.pccr 1, 0x85)]) ⟨0x13, [3, 1]⟩ = some ⟨.ok, [.src 1, .div 5]⟩ := by decide

/-- K17 -/
theorem test_readClockConfig_bad_divider : answer (start [(.pccr 0, 0x09)]) ⟨0x13, [0, 1]⟩ = some ⟨.invalidArgument, []⟩ := by decide

/-- K21 -/
theorem test_setPrescaler : after (start [(.pcr 1, 0x1FF)]) ⟨0x14, [1, 0]⟩ [.pcr 1] = some [0x100] := by decide

/-- K23 -/
theorem test_readPrescaler : answer (start [(.pcr 1, 0x131)]) ⟨0x15, [1, 1]⟩ = some ⟨.ok, [.presc 49]⟩ := by decide

/-- P2 -/
theorem test_isEnabled : answer (start [(.per, 0x09)]) ⟨0x20, [2, 1]⟩ = some ⟨.ok, [.bool false]⟩ := by decide

/-- P5 -/
theorem test_setEnabled_disable : accesses (start [(.per, 0x40)]) ⟨0x21, [6, 0]⟩ = some [.load (.ppcntr 6), .load .per, .load .per, .store .per] := by decide

/-- P8, to its first sleep: the whole counter word is tested -/
theorem test_setEnabled_waits : (issue (start [(.per, 0x41), (.ppcntr 6, 0x80000000)]) ⟨0x21, [6, 0]⟩).map (fun t => (t.response, t.stored .per, t.bus.getLast?)) = some (none, 0x41, some (.sleep 100)) := by decide

/-- P9 -/
theorem test_setPeriod : after (start []) ⟨0x22, [3, 999, 600]⟩ [.ppr 3] = some [0x03E70258] := by decide

/-- P12 -/
theorem test_setPeriod_active_above_entire : answer (start [(.ppr 3, 0x12340001)]) ⟨0x22, [3, 5, 6]⟩ = some ⟨.invalidArgument, []⟩ := by decide

/-- P14 -/
theorem test_getPeriod : answer (start [(.ppr 3, 0x00010002)]) ⟨0x23, [3, 1]⟩ = some ⟨.ok, [.cyc16 1, .cyc16 2]⟩ := by decide

/-- P16 -/
theorem test_setPolarity : after (start [(.pcr 1, 0x131)]) ⟨0x24, [1, 0]⟩ [.pcr 1] = some [0x31] := by decide

/-- Q1 -/
theorem test_setCaptureEnable : after (start [(.ccr 2, 0x04)]) ⟨0x30, [2, 1, 0]⟩ [.cer, .ccr 2] = some [0x04, 0x14] := by decide

/-- Q2 -/
theorem test_setCaptureEnable_off : after (start [(.cer, 0x04), (.ccr 2, 0x1E)]) ⟨0x30, [2, 0, 0]⟩ [.cer, .ccr 2] = some [0, 0x06] := by decide

/-- Q7 -/
theorem test_setCaptureInterruptEnable : after (start [(.cier, 0xFFFF)]) ⟨0x31, [7, 0, 1]⟩ [.cier] = some [0xBFFF] := by decide

/-- Q8 -/
theorem test_clearCaptureInterrupt_rising : after (start [(.cisr, 0x30), (.ccr 2, 0x1E)]) ⟨0x32, [2, 1, 0]⟩ [.cisr, .ccr 2] = some [0x20, 0x1A] := by decide

/-- Q11 -/
theorem test_clearCaptureInterrupt_falling : after (start [(.cisr, 0xFF), (.ccr 2, 0x06)]) ⟨0x32, [2, 0, 1]⟩ [.cisr, .ccr 2] = some [0xDF, 0x04] := by decide

/-- Q12 -/
theorem test_readCaptureInterruptStatus : answer (start [(.cisr, 0x20)]) ⟨0x33, [2, 1]⟩ = some ⟨.ok, [.bool false, .bool true]⟩ := by decide

/-- Q14 -/
theorem test_readRiseLockCount : answer (start [(.crlr 2, 0xABCD0032)]) ⟨0x34, [2, 1]⟩ = some ⟨.ok, [.cyc16 50]⟩ := by decide

/-- Q15 -/
theorem test_readFallLockCount : answer (start [(.cflr 2, 0x0000FFFF)]) ⟨0x35, [2, 1]⟩ = some ⟨.ok, [.cyc16 65535]⟩ := by decide

/-- Q16 -/
theorem test_readRiseLockFlag : answer (start [(.ccr 2, 0x1E)]) ⟨0x36, [2, 1]⟩ = some ⟨.ok, [.bool true]⟩ := by decide

/-- Q17 -/
theorem test_readFallLockFlag : answer (start [(.ccr 2, 0x1C)]) ⟨0x37, [2, 1]⟩ = some ⟨.ok, [.bool false]⟩ := by decide

/-- M1 -/
theorem test_applyPwmConfig : after (start []) ⟨0x40, [0, 1, 0, 0, 999, 600, 1, 1]⟩ [.pcgr, .pccr 0, .ppr 0, .pcr 0, .per] = some [0x01, 0x80, 0x03E70258, 0x100, 0x01] := by decide

/-- M5 -/
theorem test_applyPwmConfig_fails_midway : after (start [(.per, 0x02), (.pcr 1, 0x1FF)]) ⟨0x40, [1, 1, 0, 7, 5, 10, 0, 0]⟩ [.per, .pcr 1, .ppr 1, .pccr 0, .pcgr] = some [0, 0x07, 0, 0, 0] := by decide

/-- M2 -/
theorem test_readPwmConfig : answer (start [(.pccr 0, 0x80), (.ppr 0, 0x03E70258), (.pcr 0, 0x100), (.per, 0x01)]) ⟨0x41, [0, 1]⟩ = some ⟨.ok, [.src 1, .div 0, .presc 0, .cyc16 999, .cyc16 600, .bool true]⟩ := by decide

/-- the duty table: 999 at 60 percent -/
theorem test_setDutyPercent : after (start [(.ppr 3, 0x03E70258)]) ⟨0x42, [3, 60]⟩ [.ppr 3] = some [0x03E70257] := by decide

/-- the duty table: -1 -/
theorem test_setDutyPercent_negative : answer (start [(.ppr 3, 0x03E70258)]) ⟨0x42, [3, 0xFFFFFFFF]⟩ = some ⟨.invalidArgument, []⟩ := by decide

set_option maxRecDepth 4000 in
/-- M9 -/
theorem test_applyCaptureConfig : after (start [(.pcgr, 0x04), (.cisr, 0x30), (.ccr 2, 0x1E)]) ⟨0x43, [2, 0, 1, 3, 0, 1]⟩ [.pcgr, .pccr 1, .pcr 2, .cer, .ccr 2, .cisr] = some [0, 0x01, 0x03, 0x04, 0x08, 0] := by decide

/-- E4 -/
theorem test_applyCaptureConfig_busy : answer (start [(.per, 0x04)]) ⟨0x43, [2, 7, 12, 0, 1, 1]⟩ = some ⟨.busy, []⟩ := by decide

/-- M12 -/
theorem test_captureBlocking : answer (start [(.ccr 2, 0x1E), (.cflr 2, 100), (.crlr 2, 50), (.cisr, 0x30)]) ⟨0x44, [2, 1]⟩ = some ⟨.ok, [.cyc16 100, .cyc16 50]⟩ := by decide

/-- M14: with no latch (the channel is not armed) the second poll sleeps again -/
theorem test_captureBlocking_wakes : (match step (asleep.putSchedule [[], [.riseLatch 2 50]]) with
    | .next t => decide (t.response = none) && (t.bus.length == 6)
    | _ => false) = true := by decide

/-- the period table: crystal, 0, 194 -/
theorem test_effectiveClockPeriodNs : answer (start []) ⟨0x45, [0, 0, 194, 1]⟩ = some ⟨.ok, [.u64 8125]⟩ := by decide

/-- E5 -/
theorem test_effectiveClockPeriodNs_check_order : answer (start []) ⟨0x45, [2, 9, 0, 0]⟩ = some ⟨.nullOutput, []⟩ := by decide

/-- M16 -/
theorem test_rawToNanoseconds : answer (start [(.pccr 0, 0x05), (.pcr 1, 0x31)]) ⟨0x46, [1, 65535, 1, 1]⟩ = some ⟨.ok, [.u64 4368956310, .u64 66666]⟩ := by decide

/-- M20 -/
theorem test_maxCaptureDurationNs : answer (start [(.pccr 0, 0x08), (.pcr 0, 0xFF)]) ⟨0x47, [0, 1]⟩ = some ⟨.ok, [.u64 178954196310]⟩ := by decide

/-- M23 -/
theorem test_outputFrequencyHz : answer (start [(.ppr 0, 0xFFFF0000)]) ⟨0x48, [0, 1]⟩ = some ⟨.ok, [.u64 372]⟩ := by decide

/-- M22 -/
theorem test_outputFrequencyHz_zero : answer (start [(.pccr 0, 0x08), (.pcr 0, 0xFF), (.ppr 0, 0xFFFF0000)]) ⟨0x48, [0, 1]⟩ = some ⟨.ok, [.u64 0]⟩ := by decide

/-- E1 -/
theorem test_channel_before_null_output : answer (start []) ⟨0x13, [9, 0]⟩ = some ⟨.invalidChannel, []⟩ := by decide

/-- Program 2, event 2 -/
theorem test_rising_latch : ((Event.riseLatch 2 50).apply (start [(.pccr 1, 0x80), (.cer, 0x04), (.ccr 2, 0x18)])).stored (.ccr 2) = 0x1C ∧ ((Event.riseLatch 2 50).apply (start [(.cer, 0x04), (.ccr 2, 0x18)])).stored .cisr = 0x10 := by decide

/-! ## The hypotheses of the statements are met -/

theorem witness_DecodedRecordIsTheEncoding : decode ⟨0x22, [7, 65535, 0]⟩ = .ok (.setPeriod 7 65535 0) := by decide

theorem witness_UnlistedOpcodeIsRefused : ((0x49 : Byte).toNat ∉ [0x01, 0x02, 0x03, 0x10, 0x11, 0x12, 0x13, 0x14, 0x15, 0x20, 0x21, 0x22, 0x23, 0x24,
      0x30, 0x31, 0x32, 0x33, 0x34, 0x35, 0x36, 0x37, 0x40, 0x41, 0x42, 0x43, 0x44, 0x45, 0x46, 0x47, 0x48]) ∧
    (State.reset.putInbox [⟨0x49, []⟩]).seq = .idle ∧ (State.reset.putInbox [⟨0x49, []⟩]).inbox = ⟨0x49, []⟩ :: [] := by decide

theorem witness_UnfitOperandsAreRefused : (Record.signature 0x22).isSome = true ∧ Record.wellFormed ⟨0x22, [0, 65536, 0]⟩ = false ∧
    (State.reset.putInbox [⟨0x22, [0, 65536, 0]⟩]).seq = .idle := by decide

theorem witness_StepRunsTheDecodedCommand : (State.reset.putInbox [⟨0x21, [4, 1]⟩]).seq = .idle ∧
    (State.reset.putInbox [⟨0x21, [4, 1]⟩]).inbox = ⟨0x21, [4, 1]⟩ :: [] ∧ decode ⟨0x21, [4, 1]⟩ = .ok (.setEnabled 4 true) := by decide

theorem witness_WakingContinuesTheWait : (∃ loc, asleep.seq = .sleeping (.captureBlocking 2 true) (linesCaptureBlocking 2) loc 100) ∧ asleep.response = none ∧
    waiterLines (.captureBlocking 2 true) 2 = some (linesCaptureBlocking 2) ∧
    goesOn (.captureBlocking 2 true) (asleep.turn.putSeq .idle) = true := ⟨⟨_, rfl⟩, by decide, by decide, by decide⟩

theorem witness_BusyCoreTakesNoCommand : asleep.seq ≠ .idle := by decide

theorem witness_access_kinds : (Reg.mask .rw (.ppr 7)).getLsbD 31 = true ∧ (Reg.mask .ro (.pcntr 0)).getLsbD 31 = true ∧
    (Reg.mask .w1c .cisr).getLsbD 15 = true ∧ (Reg.mask .w1c .cisr).getLsbD 16 = false ∧
    (start [(.cisr, 0x8000)]).flag .cisr 15 = true := by decide

theorem witness_MaskedRmwKeepsTheLockFlags : (4 = ccrRiseArm ∨ 4 = ccrFallArm) ∧ (3 = ccrRiseArm ∨ 3 = ccrFallArm) := by decide

theorem witness_RawCommandsAreAdmittedAtListedOffsets : Reg.ofOffset 0x1F8 = some (.cflr 7) ∧ Reg.ofOffset 0x1FC = none ∧ Reg.ofOffset 0x2C = some (.pccr 3) ∧
    Reg.ofOffset 0x30 = none ∧ Reg.ofOffset 0x2A = none ∧ State.reset.seq = .idle := by decide

theorem witness_RisingLatchSetsCountAndFlags : (start [(.cer, 0x80), (.ccr 7, 0x10)]).flag .cer (cerEn 7) = true ∧
    (start [(.cer, 0x80), (.ccr 7, 0x10)]).flag (.ccr 7) ccrRiseArm = true ∧ State.reset.flag .cer (cerEn 7) = false := by decide

theorem witness_FallingLatchSetsCountAndFlags : (start [(.cer, 0x01), (.ccr 0, 0x08)]).flag .cer (cerEn 0) = true ∧
    (start [(.cer, 0x01), (.ccr 0, 0x08)]).flag (.ccr 0) ccrFallArm = true ∧ State.reset.flag (.ccr 0) ccrFallArm = false := by decide

theorem witness_raw_commands : State.reset.seq = .idle ∧ (0x1F8 : Word).toNat = (Reg.cflr 7).offset ∧ (0x00 : Word).toNat = Reg.pier.offset ∧
    (31 : Word).toNat ≤ 31 ∧ (32 : Word).toNat > 31 := by decide

theorem witness_channels : State.reset.seq = .idle ∧ (0 : Word).toInt = ((0 : Channel).val : Int) ∧ (7 : Word).toInt = ((7 : Channel).val : Int) ∧
    ¬(0 ≤ (8 : Word).toInt ∧ (8 : Word).toInt ≤ 7) ∧ ¬(0 ≤ (0xFFFFFFFF : Word).toInt ∧ (0xFFFFFFFF : Word).toInt ≤ 7) := by decide

theorem witness_clock_operands : (1 : Word).toNat ≤ 1 ∧ (8 : Word).toNat ≤ 8 ∧ (2 : Word).toNat > 1 ∧ (9 : Word).toNat > 8 := by decide

theorem witness_decoded_divider : ((start [(.pccr 3, 0x08)]).divider (Channel.pair 7)).toNat ≤ 8 ∧ ((start [(.pccr 3, 0x09)]).divider (Channel.pair 7)).toNat > 8 := by decide

theorem witness_ClockRoundTripReachesThePartner : State.reset.seq = .idle ∧ (6 : Word).toInt = ((6 : Channel).val : Int) ∧
    (7 : Word).toInt = ((Channel.partner 6).val : Int) ∧ goesOn (.configureClock 6 1 8) State.reset = true := by decide

theorem witness_EnablingAndDisabling : State.reset.flag .per (perEn 0) = false ∧ (start [(.per, 0x80)]).turn.stored (.ppcntr 7) = 0 ∧
    (start [(.per, 0x80), (.ppcntr 7, 1)]).flag .per (perEn 7) = true ∧
    (start [(.per, 0x80), (.ppcntr 7, 1)]).turn.stored (.ppcntr 7) ≠ 0 := by decide

theorem witness_DisableOfARunningChannelHangs : (start [(.per, 0x80), (.ppcntr 7, 1)]).seq = .idle ∧ (7 : Word).toInt = ((7 : Channel).val : Int) ∧
    (start [(.per, 0x80), (.ppcntr 7, 1)]).schedule = [] ∧ (start [(.per, 0x80), (.ppcntr 7, 1)]).flag .per (perEn 7) = true ∧
    (start [(.per, 0x80), (.ppcntr 7, 1)]).stored (.ppcntr 7) ≠ 0 ∧
    goesOn (.setEnabled 7 false) (start [(.per, 0x80), (.ppcntr 7, 1)]) = true := by decide

theorem witness_quiet : State.reset.quiet := by intro events h; cases h

theorem witness_SetPeriodEncodesBothHalves : (65535 : Half).toNat ≤ (65535 : Half).toNat ∧ (1 : Half).toNat > (0 : Half).toNat := by decide

theorem witness_ClearCaptureInterruptClearsOnlyWhatIsRequested : ¬(true = true ∧ (5 : Nat) = cisrRise 2) ∧ ¬(false = true ∧ (5 : Nat) = cisrFall 2) ∧ (start [(.cisr, 0x20)]).flag .cisr 5 = true ∧
    (start [(.ccr 2, 0x06)]).flag (.ccr 2) ccrFlf = true ∧ (start [(.ccr 2, 0x06)]).flag (.ccr 2) ccrRlf = true := by decide

theorem witness_SetDutyPercentScalesTheEntireCycles : (100 : Word).toInt = ((100 : Nat) : Int) ∧ (0 : Word).toInt = ((0 : Nat) : Int) ∧ (101 : Word).toInt > 100 ∧
    (0xFFFFFFFF : Word).toInt < 0 := by decide

theorem witness_applyPwmConfig_failures : (2 : Word).toNat > 1 ∧ (10 : Half).toNat > (5 : Half).toNat ∧ State.reset.flag .per (perEn 1) = false := by decide

theorem witness_ApplyCaptureConfig : (start [(.per, 0x80)]).flag .per (perEn 7) = true ∧ State.reset.flag .per (perEn 7) = false := by decide

theorem witness_CaptureBlockingReadsBothCounts : (start [(.ccr 7, 0x06)]).turn.flag (.ccr 7) ccrFlf = true ∧ ((start [(.ccr 7, 0x06)]).turns 2).flag (.ccr 7) ccrRlf = true ∧
    (start [(.ccr 7, 0x04)]).turn.flag (.ccr 7) ccrFlf = false := by decide

theorem witness_CaptureBlockingRearms : (start [(.cer, 0x04), (.ccr 2, 0x1E)]).schedule = [] ∧ (start [(.cer, 0x04), (.ccr 2, 0x1E)]).captureMode 2 = true ∧
    (start [(.cer, 0x04), (.ccr 2, 0x1E)]).flag (.ccr 2) ccrRiseArm = true ∧
    CaptureState.bothLatched.holds (start [(.cer, 0x04), (.ccr 2, 0x1E)]) 2 = true ∧
    goesOn (.captureBlocking 2 true) (start [(.cer, 0x04), (.ccr 2, 0x1E)]) = true := by decide

theorem witness_InvalidChannelIsCheckedFirst : Instr.chOperand (.setPolarity 8 true) = some 8 ∧ Instr.chOperand (.effectiveClockPeriodNs 0 0 0 false) = none ∧
    goesOn (.effectiveClockPeriodNs 0 0 0 false) State.reset = true ∧
    answer State.reset ⟨0x45, [0, 0, 0, 0]⟩ = some ⟨.nullOutput, []⟩ := by decide

theorem witness_NullOutputComesBeforeAnyAccess : Instr.dstOperand (.readClockConfig 7 false) = some false ∧ Instr.chOperand (.readClockConfig 7 false) = some 7 ∧
    Instr.offOperand (.load32 0x1F8 false) = some 0x1F8 ∧ (0x1F8 : Word).toNat = (Reg.cflr 7).offset ∧
    Instr.dstOperand (.setPeriod 3 5 6) = none ∧ answer State.reset ⟨0x22, [3, 5, 6]⟩ = some ⟨.invalidArgument, []⟩ := by decide

theorem witness_ResponsesFollowTheTables : ∃ t a, exec (.isEnabled 3 true) State.reset = .next t ∧ t.response = some a := ⟨_, _, rfl, rfl⟩

theorem witness_CommandsChangeOnlyTheirOwnBits : goesOn (.setPeriod 7 9 9) State.reset = true ∧ (Reg.mask .rw (.ppr 6)).getLsbD 0 = true ∧
    (Instr.mayWrite (.setPeriod 7 9 9) (.ppr 6)).getLsbD 0 = false := by decide

theorem witness_OnlyClearingCommandsClearFlags : goesOn (.setCaptureEnable 2 true false) (start [(.ccr 2, 0x04)]) = true ∧ Instr.clearsFlags (.setCaptureEnable 2 true false) = false ∧
    (Reg.mask .w1c (.ccr 2)).getLsbD 2 = true ∧ (start [(.ccr 2, 0x04)]).flag (.ccr 2) 2 = true := by decide

theorem witness_OnlyRawWritersMakeIllegalConfigurations : goesOn (.setDutyPercent 3 100) State.reset = true ∧ Instr.rawWriter (.setDutyPercent 3 100) = false ∧ State.reset.legalConfig := ⟨by decide, by decide, by unfold State.legalConfig; decide⟩

theorem witness_CoreStepMakesAtMostOneAccess : (State.reset.started (.setEnabled 0 true) (linesSetEnabled 0 true)).seq =
    .run (.setEnabled 0 true) (linesSetEnabled 0 true) {} := rfl

theorem witness_DisableNeverStopsTheClockOfAnEnabledChannel : (start [(.pcgr, 0x80), (.per, 0x80), (.ppcntr 7, 1)]).flag .pcgr (pcgrGate 7) = true ∧
    (coreSteps 3 ((start [(.pcgr, 0x80), (.per, 0x80), (.ppcntr 7, 1)]).started (.applyPwmConfig 7 0 0 0 0 0 false false)
      (linesApplyPwmConfig 7 0 0 0 0 0 false false))).flag .per (perEn 7) = true := by decide

theorem witness_EnableBitIsSetLast : State.reset.flag .per (perEn 7) = false ∧
    (coreSteps 10 (State.reset.started (.applyPwmConfig 7 1 8 255 9 9 true true)
      (linesApplyPwmConfig 7 1 8 255 9 9 true true))).flag .per (perEn 7) = true := by decide

theorem witness_other_pending_bits : (15 : Nat) < 16 ∧ 15 ≠ cisrRise 2 ∧ 15 ≠ cisrFall 2 ∧ (start [(.cisr, 0x8000)]).flag .cisr 15 = true := by decide

/-- The reset state meets the invariant of the window: every byte and every register is 0. -/
theorem witness_StepKeepsTheWindowInvariant : State.reset.Inv :=
  ⟨rfl, fun _ h => (nomatch h), fun r => by simp [State.stored, State.reset, Memory.readWord, Memory.readByte, Config.initByte]⟩

/-- The reset state and a sleeping state meet the invariant of the sequencer. -/
theorem witness_StepKeepsOnlyWaitersAsleep : State.reset.waitsOnly ∧ asleep.waitsOnly :=
  ⟨trivial, by decide, 2, by decide⟩

/-- One step from reset goes on, with the Caller silent and with a command of the Caller. -/
theorem witness_StepKeepsTheInvariants : (∃ t, step State.reset = .next t) ∧
    ∃ t, step (State.reset.withFetchWord 72 0x010000000421) = .next t := ⟨⟨_, rfl⟩, ⟨_, rfl⟩⟩

end Sys2Proof.Tests
end

section
/-! PROOFS. What one Core step of a running command does to the state (R8, R52), and its at most one access. -/

namespace Sys2Proof.Machine

/-! ## One Core step of a running command -/

/-- At the end of the lines stands `return ()` (R36). -/
theorem coreStep_run_nil {s : State} {cmd : Instr} {loc : Locals} (h : s.seq = .run cmd [] loc) :
    coreStep s = s.finish .ok [] := by
  simp only [coreStep, h]

/-- A line that goes on leaves the rest of the lines to do. -/
theorem coreStep_run_go {s s' : State} {cmd : Instr} {l : Line} {rest : List Line} {loc loc' : Locals}
    (h : s.seq = .run cmd (l :: rest) loc) (hl : l.perform loc s = .go loc' s') :
    coreStep s = s'.putSeq (.run cmd rest loc') := by
  simp only [coreStep, h, hl]

/-- A line that is done ends the command. -/
theorem coreStep_run_done {s s' : State} {cmd : Instr} {l : Line} {rest : List Line} {loc : Locals} {code : Code} {values : List Value}
    (h : s.seq = .run cmd (l :: rest) loc) (hl : l.perform loc s = .done code values s') :
    coreStep s = s'.finish code values := by
  simp only [coreStep, h, hl]

/-- A line that sleeps leaves its loop to do again, and the rest of the lines after it. -/
theorem coreStep_run_sleep {s : State} {cmd : Instr} {l : Line} {rest loop : List Line} {loc : Locals} {t : Nat}
    (h : s.seq = .run cmd (l :: rest) loc) (hl : l.perform loc s = .sleep loop t) :
    coreStep s = s.sleep cmd (loop ++ rest) loc t := by
  simp only [coreStep, h, hl]

/-- A Core step of a running command ends it, puts it to sleep, or goes on to the rest of its lines after no access, one load or one store. -/
theorem coreStep_run_cases {s : State} {cmd : Instr} {line : List Line} {loc : Locals} (h : s.seq = .run cmd line loc) :
    (∃ code values, coreStep s = s.finish code values) ∨
    (∃ loop t, coreStep s = s.sleep cmd (loop ++ line.tail) loc t) ∨
    ∃ s' loc', coreStep s = s'.putSeq (.run cmd line.tail loc') ∧
      (s' = s ∨ (∃ r, s' = (s.load r).2) ∨ ∃ r v, s' = s.store r v) := by
  cases line with
  | nil => exact .inl ⟨_, _, coreStep_run_nil h⟩
  | cons l rest =>
    cases hl : l.perform loc s with
    | go loc' s' => exact .inr (.inr ⟨s', loc', coreStep_run_go h hl, l.perform_go loc loc' s s' hl⟩)
    | done code values s' =>
      obtain rfl := l.perform_done loc s s' code values hl
      exact .inl ⟨code, values, coreStep_run_done h hl⟩
    | sleep loop t => exact .inr (.inl ⟨loop, t, coreStep_run_sleep h hl⟩)

/-! ## Counting accesses -/

theorem accessCount_append (xs ys : List Access) : accessCount (xs ++ ys) = accessCount xs + accessCount ys := by
  induction xs with
  | nil => simp [accessCount]
  | cons x xs ih => cases x <;> simp only [List.cons_append, accessCount, ih] <;> omega

/-- A sleep touches no register: it is not counted as an access. -/
theorem State.sleep_accessCount (s : State) (cmd : Instr) (line : List Line) (loc : Locals) (t : Nat) :
    accessCount (s.sleep cmd line loc t).bus = accessCount s.bus := by
  simp [accessCount_append, accessCount]

end Sys2Proof.Machine

open Sys2Proof.Machine

/-- Settles O57: a Core step ends the command or puts it to sleep without an access, or is a line that goes on, which is no access, one load or one store; a store
leaves the bytes outside its register as the Peripheral's turn left them. -/
theorem coreStepMakesAtMostOneAccess : Obligations.CoreStepMakesAtMostOneAccess := by
  intro s cmd line loc h
  obtain ⟨code, values, e⟩ | ⟨loop, t, e⟩ | ⟨_, loc', e, rfl | ⟨r, rfl⟩ | ⟨r, v, rfl⟩⟩ := coreStep_run_cases h
  all_goals rw [e]
  · exact ⟨rfl, .inl ⟨rfl, rfl⟩⟩
  · exact ⟨rfl, .inl ⟨rfl, s.sleep_accessCount cmd (loop ++ line.tail) loc t⟩⟩
  · exact ⟨rfl, .inl ⟨rfl, rfl⟩⟩
  · exact ⟨s.load_inbox r, .inr (.inl ⟨r, s.load_bus r, s.load_mem r⟩)⟩
  · exact ⟨s.store_inbox r v, .inr (.inr ⟨r, s.store_bus r v, s.store_readByte r v⟩)⟩

end

section
/-! PROOFS. Every command as the lines that the Core runs for it (R8, R63), and what follows for the acceptance of a command (R38, R47, R122). -/

namespace Sys2Proof

open Machine

/-! ## The lines of each command -/

/-- The lines of a command; `none` at a raw offset that is not admitted (R47). -/
def Instr.lines : Instr → Option (List Line)
  | .load32 off dst => (Reg.ofOffset off).map fun r => withDst dst [.read (.word r), .ret .word]
  | .store32 off value => (Reg.ofOffset off).map fun r => [.write r value]
  | .readModifyWriteBit off index value => (Reg.ofOffset off).map fun r => linesReadModifyWriteBit r index value
  | .setClockGate ch pass => some (withChannel ch fun c => linesSetClockGate c pass)
  | .setClockBypass ch bypass => some (withChannel ch fun c => linesSetClockBypass c bypass)
  | .configureClock ch source divider => some (withChannel ch fun c => linesConfigureClock c source divider)
  | .readClockConfig ch dst => some (withChannel ch fun c => withDst dst (linesReadClockConfig c ++ [.ret .clock]))
  | .setPrescaler ch prescaler => some (withChannel ch fun c => linesSetPrescaler c prescaler)
  | .readPrescaler ch dst => some (withChannel ch fun c => withDst dst (linesReadPrescaler c ++ [.ret .prescaler]))
  | .isEnabled ch dst => some (withChannel ch fun c => withDst dst (linesIsEnabled c ++ [.ret .enabled]))
  | .setEnabled ch enabled => some (withChannel ch fun c => linesSetEnabled c enabled)
  | .setPeriod ch entire active => some (withChannel ch fun c => linesSetPeriod c entire active)
  | .getPeriod ch dst => some (withChannel ch fun c => withDst dst (linesGetPeriod c ++ [.ret .period]))
  | .setPolarity ch polarity => some (withChannel ch fun c => linesSetPolarity c polarity)
  | .setCaptureEnable ch rising falling => some (withChannel ch fun c => linesSetCaptureEnable c rising falling)
  | .setCaptureInterruptEnable ch rising falling =>
    some (withChannel ch fun c => linesSetCaptureInterruptEnable c rising falling)
  | .clearCaptureInterrupt ch rising falling => some (withChannel ch fun c => linesClearCaptureInterrupt c rising falling)
  | .readCaptureInterruptStatus ch dst => some (withChannel ch fun c => withDst dst [.read (.pending c), .ret .pending])
  | .readRiseLockCount ch dst => some (withChannel ch fun c => withDst dst [.read (.riseCount c), .ret .riseCount])
  | .readFallLockCount ch dst => some (withChannel ch fun c => withDst dst [.read (.fallCount c), .ret .fallCount])
  | .readRiseLockFlag ch dst => some (withChannel ch fun c => withDst dst [.read (.riseFlag c), .ret .riseFlag])
  | .readFallLockFlag ch dst => some (withChannel ch fun c => withDst dst [.read (.fallFlag c), .ret .fallFlag])
  | .applyPwmConfig ch source divider prescaler entire active polarity enabled =>
    some (withChannel ch fun c => linesApplyPwmConfig c source divider prescaler entire active polarity enabled)
  | .readPwmConfig ch dst => some (withChannel ch fun c => withDst dst (linesReadPwmConfig c))
  | .setDutyPercent ch percent => some (withChannel ch fun c => linesSetDutyPercent c percent)
  | .applyCaptureConfig ch source divider prescaler rising falling =>
    some (withChannel ch fun c => linesApplyCaptureConfig c source divider prescaler rising falling)
  | .captureBlocking ch dst => some (withChannel ch fun c => withDst dst (linesCaptureBlocking c))
  | .effectiveClockPeriodNs source divider prescaler dst =>
    some (withDst dst (linesEffectiveClockPeriodNs source divider prescaler))
  | .rawToNanoseconds ch onCycles offCycles dst =>
    some (withChannel ch fun c => withDst dst (linesLiveClock c ++ [.ret (.nanoseconds onCycles offCycles)]))
  | .maxCaptureDurationNs ch dst => some (withChannel ch fun c => withDst dst (linesLiveClock c ++ [.ret .maxDuration]))
  | .outputFrequencyHz ch dst =>
    some (withChannel ch fun c => withDst dst (linesLiveClock c ++ linesGetPeriod c ++ [.ret .frequency]))

/-- A command is accepted with its lines; a raw one only after its offset is admitted. -/
theorem Instr.exec_form (i : Instr) :
    (∃ lines, i.lines = some lines ∧ ∀ s, exec i s = accept i lines s) ∨
    (∃ off lines, i.lines = (Reg.ofOffset off).map lines ∧ ∀ s, exec i s = acceptAt i off lines s) := by
  cases i
  case load32 => exact .inr ⟨_, _, rfl, fun _ => rfl⟩
  case store32 => exact .inr ⟨_, _, rfl, fun _ => rfl⟩
  case readModifyWriteBit => exact .inr ⟨_, _, rfl, fun _ => rfl⟩
  all_goals exact .inl ⟨_, rfl, fun _ => rfl⟩

end Sys2Proof

namespace Sys2Proof.Machine

/-! ## Acceptance -/

theorem exec_busy (i : Instr) (s : State) (h : s.seq ≠ .idle) : exec i s = .fault .commandNotAccepted := by
  obtain ⟨lines, -, he⟩ | ⟨off, lines, -, he⟩ := i.exec_form
  · rw [he, accept_busy _ _ _ h]
  · rw [he, acceptAt_busy _ _ _ _ h]

/-- An idle Core runs the lines of the command it is handed. -/
theorem exec_idle {i : Instr} {lines : List Line} {s : State} (h : s.seq = .idle) (hl : i.lines = some lines) :
    exec i s = .next (runLines i lines {} s.begin) := by
  obtain ⟨lines', hl', he⟩ | ⟨off, f, hl', he⟩ := i.exec_form
  · rw [hl', Option.some.injEq] at hl
    rw [he, accept_idle _ _ _ h, hl]
  · obtain ⟨r, hr, rfl⟩ := Option.map_eq_some_iff.1 (hl'.symm.trans hl)
    rw [he, acceptAt_idle _ _ _ _ r h hr]

/-- A command without lines is refused by an offset, the same one in every idle state (R47). -/
theorem exec_no_lines {i : Instr} (hl : i.lines = none) :
    ∃ off, ∀ s : State, s.seq = .idle → exec i s = .refused (.accessRefused off) := by
  obtain ⟨lines, hl', -⟩ | ⟨off, lines, hl', he⟩ := i.exec_form
  · rw [hl'] at hl
    exact absurd hl (by simp)
  · have hr : Reg.ofOffset off = none := Option.map_eq_none_iff.1 (hl'.symm.trans hl)
    exact ⟨off, fun s h => by rw [he, acceptAt_refused _ _ _ _ h hr]⟩

/-- A command that goes on was handed to an idle Core and has run its lines. -/
theorem exec_next {i : Instr} {s t : State} (h : exec i s = .next t) :
    s.seq = .idle ∧ ∃ lines, i.lines = some lines ∧ t = runLines i lines {} s.begin := by
  have idle : s.seq = .idle := by
    by_contra hbusy
    rw [exec_busy i s hbusy] at h
    cases h
  cases hl : i.lines with
  | none =>
    obtain ⟨off, he⟩ := exec_no_lines hl
    rw [he s idle] at h
    cases h
  | some lines =>
    rw [exec_idle idle hl, Host.Outcome.next.injEq] at h
    exact ⟨idle, lines, rfl, h.symm⟩

/-- `exec` sees of an idle state only what a new command does not clear. -/
theorem exec_congr_begin {s t : State} (hs : s.seq = .idle) (ht : t.seq = .idle) (h : s.begin = t.begin) (i : Instr) :
    exec i s = exec i t := by
  cases hl : i.lines with
  | none =>
    obtain ⟨off, he⟩ := exec_no_lines hl
    rw [he s hs, he t ht]
  | some lines => rw [exec_idle hs hl, exec_idle ht hl, h]

/-! ## One step of the machine -/

theorem step_command {s : State} {r : Record} {more : List Record} {i : Instr} (hs : s.seq = .idle)
    (hi : s.inbox = r :: more) (hd : decode r = .ok i) : step s = exec i (s.turn.putInbox more) := by
  simp only [step, State.upNext, hs, hi, hd]

theorem step_idle {s : State} (hs : s.seq = .idle) (hi : s.inbox = []) : step s = .next s.turn := by
  simp only [step, State.upNext, hs, hi]

theorem step_sleeping {s : State} {cmd : Instr} {line : List Line} {loc : Locals} {t : Nat}
    (hs : s.seq = .sleeping cmd line loc t) : step s = .next (runLines cmd line loc s.turn) := by
  simp only [step, State.upNext, hs]

theorem step_run {s : State} {cmd : Instr} {line : List Line} {loc : Locals}
    (hs : s.seq = .run cmd line loc) : step s = .next (runLines cmd line loc s) := by
  simp only [step, State.upNext, hs]

/-- A step that goes on is a turn of the Peripheral alone, a decoded command run after it, a sleeping command that wakes after it,
or a running command that goes on. -/
theorem step_next {s t : State} (h : step s = .next t) :
    t = s.turn ∧ s.seq = .idle ∨
    (∃ more i, exec i (s.turn.putInbox more) = .next t) ∨
    (∃ cmd line loc time, s.seq = .sleeping cmd line loc time ∧ t = runLines cmd line loc s.turn) ∨
    (∃ cmd line loc, s.seq = .run cmd line loc ∧ t = runLines cmd line loc s) := by
  cases hs : s.seq with
  | idle =>
    cases hi : s.inbox with
    | nil =>
      rw [step_idle hs hi, Host.Outcome.next.injEq] at h
      exact .inl ⟨h.symm, rfl⟩
    | cons r more =>
      cases hd : decode r with
      | ok i => exact .inr (.inl ⟨more, i, (step_command hs hi hd).symm.trans h⟩)
      | error e =>
        simp only [step, State.upNext, hs, hi, hd] at h
        cases h
  | sleeping cmd line loc time =>
    rw [step_sleeping hs, Host.Outcome.next.injEq] at h
    exact .inr (.inr (.inl ⟨cmd, line, loc, time, rfl, h.symm⟩))
  | run cmd line loc =>
    rw [step_run hs, Host.Outcome.next.injEq] at h
    exact .inr (.inr (.inr ⟨cmd, line, loc, rfl, h.symm⟩))

/-! ## Raw offsets -/

/-- Every register stands at one of the offsets of R14 and R15. -/
theorem Reg.offset_listed (r : Reg) :
    r.offset ∈ [0x00, 0x04, 0x10, 0x14, 0x20, 0x24, 0x28, 0x2C, 0x40, 0x80, 0xC0] ∨
    (0x100 ≤ r.offset ∧ r.offset < 0x200 ∧ r.offset % 4 = 0 ∧ r.offset % 0x20 ≠ 0x1C) := by
  cases r with
  | pccr p => simp only [Reg.offset, List.mem_cons, List.not_mem_nil]; omega
  | pcr c | ppr c | pcntr c | ppcntr c | ccr c | crlr c | cflr c => right; simp only [Reg.offset, Channel.base]; omega
  | pier | pisr | cier | cisr | pcgr | per | cer => left; decide

/-- At every offset of a channel block but the last one stands a register of that channel (R15). -/
theorem Channel.exists_reg (n : Nat) (lo : 0x100 ≤ n) (hi : n < 0x200) (aligned : n % 4 = 0) (gap : n % 0x20 ≠ 0x1C) :
    ∃ r : Reg, r.offset = n := by
  have hc : (n - 0x100) / 0x20 < 8 := by omega
  have hn : ∀ k, n % 0x20 = k → Channel.base ⟨(n - 0x100) / 0x20, hc⟩ + k = n := by
    intro k hk
    simp only [Channel.base]
    omega
  have hk : n % 0x20 = 0x00 ∨ n % 0x20 = 0x04 ∨ n % 0x20 = 0x08 ∨ n % 0x20 = 0x0C ∨ n % 0x20 = 0x10 ∨
      n % 0x20 = 0x14 ∨ n % 0x20 = 0x18 := by omega
  rcases hk with hk | hk | hk | hk | hk | hk | hk
  · exact ⟨.pcr _, hn _ hk⟩
  · exact ⟨.ppr _, hn _ hk⟩
  · exact ⟨.pcntr _, hn _ hk⟩
  · exact ⟨.ppcntr _, hn _ hk⟩
  · exact ⟨.ccr _, hn _ hk⟩
  · exact ⟨.crlr _, hn _ hk⟩
  · exact ⟨.cflr _, hn _ hk⟩

/-- At every offset of R14 stands a register. -/
theorem Reg.exists_shared (n : Nat) (h : n ∈ [0x00, 0x04, 0x10, 0x14, 0x20, 0x24, 0x28, 0x2C, 0x40, 0x80, 0xC0]) :
    ∃ r : Reg, r.offset = n := by
  have all : ∀ n ∈ [0x00, 0x04, 0x10, 0x14, 0x20, 0x24, 0x28, 0x2C, 0x40, 0x80, 0xC0], ∃ r ∈ Reg.all, r.offset = n := by
    decide
  obtain ⟨r, -, hr⟩ := all n h
  exact ⟨r, hr⟩

end Sys2Proof.Machine

open Sys2Proof Sys2Proof.Machine

/-- Settles O7. -/
theorem stepRunsTheDecodedCommand : Obligations.StepRunsTheDecodedCommand :=
  fun _ _ _ _ hs hi hd => step_command hs hi hd

/-- Settles O9: neither form of acceptance takes a command outside `Idle`. -/
theorem busyCoreTakesNoCommand : Obligations.BusyCoreTakesNoCommand :=
  fun i s h => exec_busy i s h

/-- Settles O56: a reset of the Core clears only what an accepted command clears anyway. -/
theorem resetIsIdleAndMeetsTheInvariants : Obligations.ResetIsIdleAndMeetsTheInvariants := by
  have zero : ∀ r : Reg, State.reset.stored r = 0 := fun r => by
    simp [State.stored, State.reset, Memory.readWord, Memory.readByte, Config.initByte]
  refine ⟨rfl, rfl, ⟨rfl, fun _ h => (nomatch h), fun r => by rw [zero r]; exact BitVec.zero_and⟩, trivial, zero, ?_⟩
  intro s i hs
  exact exec_congr_begin (s := s.resetCore) rfl hs (State.ext rfl hs.symm rfl rfl rfl rfl rfl) i

/-- Settles O13: the registers' offsets are the listed ones, and a raw command reads its offset first. -/
theorem rawCommandsAreAdmittedAtListedOffsets : Obligations.RawCommandsAreAdmittedAtListedOffsets := by
  intro off
  refine ⟨⟨?_, ?_⟩, fun hr s v b hs => ?_⟩
  · rintro ⟨r, hr⟩
    rw [(Reg.ofOffset_eq_some off r).1 hr]
    exact r.offset_listed
  · intro h
    obtain ⟨r, hr⟩ : ∃ r : Reg, r.offset = off.toNat := by
      obtain h | ⟨lo, hi, aligned, gap⟩ := h
      · exact Reg.exists_shared _ h
      · exact Channel.exists_reg _ lo hi aligned gap
    exact ⟨r, (Reg.ofOffset_eq_some off r).2 hr.symm⟩
  · exact ⟨acceptAt_refused _ _ _ _ hs hr, acceptAt_refused _ _ _ _ hs hr, acceptAt_refused _ _ _ _ hs hr⟩

/-- Settles O14. -/
theorem peripheralKeepsRwFieldsAndOnlySetsFlags : Obligations.PeripheralKeepsRwFieldsAndOnlySetsFlags :=
  fun s r k => ⟨s.turn_flag_rw r k, s.turn_w1c r k⟩

end

section
/-! PROOFS. The invariant of the window (R13, R33): what only the window decides, kept through turns and stores, is kept by every step. -/

namespace Sys2Proof.Machine

/-! ## Properties of the window -/

theorem State.flag_of_mem {s t : State} (h : s.mem = t.mem) (r : Reg) (k : Nat) : s.flag r k = t.flag r k := by
  rw [State.flag, State.flag, State.stored_of_mem s t r h]

/-- The property is one of the window alone, and the Peripheral's turn keeps it. -/
structure KeptByTurns (P : State → Prop) : Prop where
  window : ∀ s t : State, s.mem = t.mem → P s → P t
  turn : ∀ s : State, P s → P s.turn

/-- A load leaves in the window what the turn before it left. -/
theorem KeptByTurns.load {P : State → Prop} (hP : KeptByTurns P) (s : State) (r : Reg) (h : P s) : P (s.load r).2 :=
  hP.window s.turn _ (s.load_mem r).symm (hP.turn s h)

/-- What turns and stores keep, a run of lines keeps. -/
theorem KeptByTurns.runLines {P : State → Prop} (hP : KeptByTurns P) (hstore : ∀ s r v, P s → P (s.store r v))
    (cmd : Instr) (lines : List Line) (loc : Locals) (s : State) (h : P s) : P (runLines cmd lines loc s) :=
  runLines_induct P hP.load hstore (fun s _ _ => hP.window s _ rfl) (fun s _ _ _ _ => hP.window s _ rfl) cmd lines loc s h

/-- What turns and stores keep, a step keeps. -/
theorem KeptByTurns.step {P : State → Prop} (hP : KeptByTurns P) (hstore : ∀ s r v, P s → P (s.store r v))
    (s t : State) (h : P s) (hstep : step s = .next t) : P t := by
  obtain ⟨rfl, -⟩ | ⟨more, i, hexec⟩ | ⟨cmd, line, loc, time, -, rfl⟩ | ⟨cmd, line, loc, -, rfl⟩ := step_next hstep
  · exact hP.turn s h
  · obtain ⟨-, lines, -, rfl⟩ := exec_next hexec
    exact hP.runLines hstore i lines {} _ (hP.window s.turn _ rfl (hP.turn s h))
  · exact hP.runLines hstore cmd line loc _ (hP.turn s h)
  · exact hP.runLines hstore cmd line loc s h

/-! ## The invariant under its updates -/

theorem State.Inv.of_mem {s t : State} (hs : s.Inv) (h : s.mem = t.mem) : t.Inv where
  canonical := by simpa only [State.canonical, h] using hs.canonical
  inWindow := by simpa only [State.inWindow, h] using hs.inWindow
  reservedClear := fun r => by rw [← State.stored_of_mem s t r h, hs.reservedClear r]

/-- A register's place may be overwritten with any word that is 0 in the `RES` positions. -/
theorem State.Inv.setStored {s : State} (hs : s.Inv) (r : Reg) (w : Word) (hw : w &&& r.res = 0) : (s.setStored r w).Inv where
  canonical := Memory.wf_writeWord _ _ _ hs.canonical
  inWindow := fun cell hcell => by
    obtain here | old := Memory.mem_writeWord _ _ _ _ hcell
    · exact ⟨r, here⟩
    · exact hs.inWindow cell old
  reservedClear := fun q => by
    rw [State.setStored_stored]
    split
    · next e => rw [e, hw]
    · exact hs.reservedClear q

/-- The Peripheral may set any bit that is not `RES`. -/
theorem State.Inv.raiseFlag {s : State} (hs : s.Inv) (r : Reg) (i : Nat) (hi : bit i &&& r.res = 0) : (s.raiseFlag r i).Inv := by
  refine hs.setStored r _ ?_
  rw [BitVec.and_or_distrib_right, hs.reservedClear r, hi]
  exact BitVec.or_zero

theorem lowHalf_getLsbD (k : Nat) : (0xFFFF#32).getLsbD k = decide (k < 16) := by
  rw [show 0xFFFF#32 = (BitVec.allOnes 16).setWidth 32 by decide, BitVec.getLsbD_setWidth, BitVec.getLsbD_allOnes,
    ← Bool.decide_and, decide_eq_decide]
  omega

/-- A lock count has no bit in the `RES` half of its register (R31, R32; log 15). -/
theorem lockCount_res (n : Half) : n.setWidth 32 &&& ~~~0xFFFF#32 = 0#32 := by
  ext k hk
  rw [← BitVec.getLsbD_eq_getElem, BitVec.getLsbD_and, BitVec.getLsbD_setWidth, BitVec.getLsbD_not, lowHalf_getLsbD]
  by_cases low : k < 16
  · simp [low]
  · simp [BitVec.getLsbD_of_ge n k (Nat.le_of_not_lt low)]

theorem bit_pisrSt_res (c : Channel) : bit (pisrSt c) &&& Reg.pisr.res = 0 := by revert c; decide
theorem bit_cisrRise_res (c : Channel) : bit (cisrRise c) &&& Reg.cisr.res = 0 := by revert c; decide
theorem bit_cisrFall_res (c : Channel) : bit (cisrFall c) &&& Reg.cisr.res = 0 := by revert c; decide

theorem State.Inv.event {s : State} (hs : s.Inv) (e : Event) : (e.apply s).Inv := by
  cases e with
  | counter c count pulse =>
    exact (hs.setStored _ _ (by simp [Reg.res, Reg.defined])).setStored _ _ (by simp [Reg.res, Reg.defined])
  | riseLatch c n =>
    simp only [Event.apply]
    split
    · exact ((hs.setStored _ _ (by simpa [Reg.res, Reg.defined] using lockCount_res n)).raiseFlag _ _
        (by simp [Reg.res, Reg.defined]; decide)).raiseFlag _ _ (bit_cisrRise_res c)
    · exact hs
  | fallLatch c n =>
    simp only [Event.apply]
    split
    · exact ((hs.setStored _ _ (by simpa [Reg.res, Reg.defined] using lockCount_res n)).raiseFlag _ _
        (by simp [Reg.res, Reg.defined]; decide)).raiseFlag _ _ (bit_cisrFall_res c)
    · exact hs
  | pwmStatus c => exact hs.raiseFlag _ _ (bit_pisrSt_res c)

theorem State.Inv.keptByTurns : KeptByTurns State.Inv where
  window := fun _ _ h hs => hs.of_mem h
  turn := State.turn_induct State.Inv (fun e _ h => h.event e) (fun _ _ h => h.of_mem rfl)

theorem State.Inv.store (s : State) (r : Reg) (v : Word) (hs : s.Inv) : (s.store r v).Inv :=
  ((State.Inv.keptByTurns.turn s hs).setStored r _ (r.afterWrite_res _ v)).of_mem rfl

end Sys2Proof.Machine

open Sys2Proof Sys2Proof.Machine

/-- Settles O54: an event sets flags and its own counts alone, and a stored word has no `RES` bit. -/
theorem stepKeepsTheWindowInvariant : Obligations.StepKeepsTheWindowInvariant :=
  State.Inv.keptByTurns.step State.Inv.store

end

section
/-! PROOFS. What a command's lines can do to the window: the stores and read-modify-writes of its rule (R72 to R103), the two loops that sleep (R82, R99), and nothing else. -/

namespace Sys2Proof.Machine

/-! ## Changes of the window -/

/-- A change the Core makes: one store, or one read-modify-write as a whole. -/
inductive Change where
  /-- `MemWrite` (R44) -/
  | write (r : Reg) (v : Word)
  /-- `RMWBitM` (R45, R46) -/
  | rmw (r : Reg) (i : Nat) (b : Bool) (m : Word)
  /-- the prescaler's byte (R79) -/
  | prescaler (c : Channel) (p : Byte)
  /-- the active cycles for a percentage of the entire ones (R97) -/
  | duty (c : Channel) (percent : Nat)

/-- The period word that setDutyPercent stores over a loaded one (R97). -/
def dutyWord (w : Word) (percent : Nat) : Word :=
  periodWord (w.extractLsb' pprEntire 16) (dutyActive (w.extractLsb' pprEntire 16) percent)

/-- The change made on a state. -/
def Change.apply : Change → State → State
  | .write r v, s => s.store r v
  | .rmw r i b m, s => s.rmwBit r i b m
  | .prescaler c p, s => (s.load (.pcr c)).2.store (.pcr c) (prescalerWord (s.load (.pcr c)).1.fields p)
  | .duty c percent, s => (s.load (.ppr c)).2.store (.ppr c) (dutyWord (s.load (.ppr c)).1.fields percent)

/-- The lines make no change but those that are `ok`, each read-modify-write whole, and never sleep. -/
inductive Makes (ok : Change → Prop) : List Line → Prop
  | nil : Makes ok []
  | raise (e : Code) (rest : List Line) : Makes ok (.raise e :: rest)
  | ret (x : Result) (rest : List Line) : Makes ok (.ret x :: rest)
  | raiseIfBadDivider {rest : List Line} : Makes ok rest → Makes ok (.raiseIfBadDivider :: rest)
  | raiseIfEnabled {rest : List Line} : Makes ok rest → Makes ok (.raiseIfEnabled :: rest)
  | read (x : Read) {rest : List Line} : Makes ok rest → Makes ok (.read x :: rest)
  | write {r : Reg} {v : Word} {rest : List Line} : ok (.write r v) → Makes ok rest → Makes ok (.write r v :: rest)
  | rmw {r : Reg} {i : Nat} {b : Bool} {m : Word} {rest : List Line} :
    ok (.rmw r i b m) → Makes ok rest → Makes ok (rmwLines r i b m ++ rest)
  | prescaler {c : Channel} {p : Byte} {rest : List Line} :
    ok (.prescaler c p) → Makes ok rest → Makes ok (.read (.word (.pcr c)) :: .writePrescaler c p :: rest)
  | duty {c : Channel} {percent : Nat} {rest : List Line} :
    ok (.duty c percent) → Makes ok rest → Makes ok (.read (.period c) :: .writeDuty c percent :: rest)

theorem Makes.append {ok : Change → Prop} {xs ys : List Line} (hx : Makes ok xs) (hy : Makes ok ys) : Makes ok (xs ++ ys) := by
  induction hx with
  | nil => exact hy
  | raise e rest => exact .raise e _
  | ret x rest => exact .ret x _
  | raiseIfBadDivider _ ih => exact .raiseIfBadDivider ih
  | raiseIfEnabled _ ih => exact .raiseIfEnabled ih
  | read x _ ih => exact .read x ih
  | write h _ ih => exact .write h ih
  | rmw h _ ih => rw [List.append_assoc]; exact .rmw h ih
  | prescaler h _ ih => exact .prescaler h ih
  | duty h _ ih => exact .duty h ih

/-- What turns and the changes keep, the lines keep. -/
theorem Makes.keeps {ok : Change → Prop} {P : State → Prop} (hP : KeptByTurns P)
    (hok : ∀ e, ok e → ∀ s, P s → P (e.apply s)) {lines : List Line} (hl : Makes ok lines) (cmd : Instr) (loc : Locals)
    (s : State) (h : P s) : P (runLines cmd lines loc s) := by
  have finish : ∀ (s : State) (e : Code) (v : List Value), P s → P (s.finish e v) := fun s _ _ => hP.window s _ rfl
  induction hl generalizing loc s with
  | nil | raise | ret => exact finish s _ _ h
  | raiseIfBadDivider _ ih =>
    rw [runLines_raiseIfBadDivider]
    split
    · exact finish s _ _ h
    · exact ih loc s h
  | raiseIfEnabled _ ih =>
    rw [runLines_raiseIfEnabled]
    split
    · exact finish s _ _ h
    · exact ih loc s h
  | read x _ ih => exact ih _ _ (hP.load s _ h)
  | write he _ ih => exact ih _ _ (hok _ he s h)
  | rmw he _ ih => exact ih _ _ (hok _ he s h)
  | prescaler he _ ih => exact ih _ _ (hok _ he s h)
  | duty he _ ih => exact ih _ _ (hok _ he s h)

/-- Lines that never sleep run to the end of the command. -/
theorem Makes.runs_to_idle {ok : Change → Prop} {lines : List Line} (hl : Makes ok lines) (cmd : Instr) (loc : Locals)
    (s : State) : (runLines cmd lines loc s).seq = .idle := by
  induction hl generalizing loc s with
  | nil | raise | ret => rfl
  | raiseIfBadDivider _ ih =>
    rw [runLines_raiseIfBadDivider]
    split
    · rfl
    · exact ih loc s
  | raiseIfEnabled _ ih =>
    rw [runLines_raiseIfEnabled]
    split
    · rfl
    · exact ih loc s
  | read _ _ ih | write _ _ ih | rmw _ _ ih | prescaler _ _ ih | duty _ _ ih => exact ih _ _

/-! ## The changes of each group of lines -/

section
variable {ok : Change → Prop}

theorem makes_rmwLines {r : Reg} {i : Nat} {b : Bool} {m : Word} (h : ok (.rmw r i b m)) : Makes ok (rmwLines r i b m) :=
  .rmw h .nil

theorem makes_configureClock {c : Channel} {source divider : Word}
    (h : source.toNat ≤ 1 → divider.toNat ≤ 8 → ok (.write (.pccr c.pair) (clockWord source divider))) :
    Makes ok (linesConfigureClock c source divider) := by
  unfold linesConfigureClock
  split
  · exact .raise _ _
  · split
    · exact .raise _ _
    · next hs hd => exact .write (h (by simpa [sourceValid] using hs) (by simpa [dividerValid] using hd)) .nil

theorem makes_setPeriod {c : Channel} {entire active : Half}
    (h : active.toNat ≤ entire.toNat → ok (.write (.ppr c) (periodWord entire active))) :
    Makes ok (linesSetPeriod c entire active) := by
  unfold linesSetPeriod
  split
  · exact .raise _ _
  · next hp => exact .write (h (Nat.le_of_not_lt hp)) .nil

theorem makes_setPrescaler {c : Channel} {p : Byte} (h : ok (.prescaler c p)) : Makes ok (linesSetPrescaler c p) :=
  .prescaler h .nil

theorem makes_setCaptureEnable {c : Channel} {rising falling : Bool} (he : ok (.rmw .cer (cerEn c) (rising || falling) 0))
    (hr : ok (.rmw (.ccr c) ccrRiseArm rising ccrW1c)) (hf : ok (.rmw (.ccr c) ccrFallArm falling ccrW1c)) :
    Makes ok (linesSetCaptureEnable c rising falling) :=
  ((makes_rmwLines he).append (makes_rmwLines hr)).append (makes_rmwLines hf)

theorem makes_clearEdge {c : Channel} {pending flag : Nat} (hp : ok (.write .cisr (bit pending)))
    (hf : ok (.rmw (.ccr c) flag true ccrW1c)) : Makes ok (linesClearEdge c pending flag) :=
  .write hp (makes_rmwLines hf)

theorem makes_clearCaptureInterrupt {c : Channel} {rising falling : Bool}
    (hr : ok (.write .cisr (bit (cisrRise c)))) (hrf : ok (.rmw (.ccr c) ccrRlf true ccrW1c))
    (hf : ok (.write .cisr (bit (cisrFall c)))) (hff : ok (.rmw (.ccr c) ccrFlf true ccrW1c)) :
    Makes ok (linesClearCaptureInterrupt c rising falling) := by
  refine Makes.append ?_ ?_
  · cases rising
    · exact .nil
    · exact makes_clearEdge hr hrf
  · cases falling
    · exact .nil
    · exact makes_clearEdge hf hff

theorem makes_readClockConfig (c : Channel) : Makes ok (linesReadClockConfig c) := .read _ (.raiseIfBadDivider .nil)

theorem makes_liveClock (c : Channel) : Makes ok (linesLiveClock c) := (makes_readClockConfig c).append (.read _ .nil)

theorem makes_setDutyPercent {c : Channel} {percent : Word} (h : percent.toInt.toNat ≤ 100 → ok (.duty c percent.toInt.toNat)) :
    Makes ok (linesSetDutyPercent c percent) := by
  unfold linesSetDutyPercent
  split
  · exact .raise _ _
  · next hp =>
    simp only [percentValid, Bool.not_eq_true, Bool.not_eq_false', Bool.and_eq_true, decide_eq_true_eq] at hp
    exact .duty (h (by omega)) .nil

theorem makes_withDst (dst : Bool) {lines : List Line} (h : Makes ok lines) : Makes ok (withDst dst lines) := by
  cases dst
  · exact .raise _ _
  · exact h

end

end Sys2Proof.Machine
end

section
/-! PROOFS. Every command by its lines (R72 to R103): it makes the changes of its rule, and only the three waiting commands have a loop in front of them, after which no local from before it is used. -/

namespace Sys2Proof

open Machine

/-! ## The changes of each command -/

/-- The commands that a composite calls, with their operands (R70, R95, R98, R99). -/
def Instr.calls : Instr → List Instr
  | .applyPwmConfig ch source divider prescaler entire active polarity enabled =>
    [.setClockGate ch enabled, .configureClock ch source divider, .setPeriod ch entire active, .setPrescaler ch prescaler,
      .setPolarity ch polarity, .setEnabled ch enabled]
  | .applyCaptureConfig ch source divider prescaler rising falling =>
    [.setClockGate ch (rising && falling), .configureClock ch source divider, .setPrescaler ch prescaler,
      .setCaptureEnable ch rising falling, .clearCaptureInterrupt ch true true]
  | .captureBlocking ch _ => [.clearCaptureInterrupt ch true true]
  | _ => []

/-- The command can make this change of the window. -/
inductive Instr.MayChange : Instr → Change → Prop
  | called {i j : Instr} {e : Change} (hj : j ∈ i.calls) (he : j.MayChange e) : i.MayChange e
  | store32 {off v : Word} {r : Reg} (hr : Reg.ofOffset off = some r) : (Instr.store32 off v).MayChange (.write r v)
  | readModifyWriteBit {off index : Word} {b : Bool} {r : Reg} (hr : Reg.ofOffset off = some r) (hi : index.toNat ≤ 31) :
    (Instr.readModifyWriteBit off index b).MayChange (.rmw r index.toNat b 0)
  | setClockGate {ch : Word} {b : Bool} {c : Channel} (hc : channel? ch = some c) :
    (Instr.setClockGate ch b).MayChange (.rmw .pcgr (pcgrGate c) b 0)
  | setClockBypass {ch : Word} {b : Bool} {c : Channel} (hc : channel? ch = some c) :
    (Instr.setClockBypass ch b).MayChange (.rmw .pcgr (pcgrByp c) b 0)
  | configureClock {ch source divider : Word} {c : Channel} (hc : channel? ch = some c) (hs : source.toNat ≤ 1)
    (hd : divider.toNat ≤ 8) :
    (Instr.configureClock ch source divider).MayChange (.write (.pccr c.pair) (clockWord source divider))
  | setPrescaler {ch : Word} {p : Byte} {c : Channel} (hc : channel? ch = some c) :
    (Instr.setPrescaler ch p).MayChange (.prescaler c p)
  | setEnabled {ch : Word} {b : Bool} {c : Channel} (hc : channel? ch = some c) :
    (Instr.setEnabled ch b).MayChange (.rmw .per (perEn c) b 0)
  | setPeriod {ch : Word} {entire active : Half} {c : Channel} (hc : channel? ch = some c)
    (h : active.toNat ≤ entire.toNat) :
    (Instr.setPeriod ch entire active).MayChange (.write (.ppr c) (periodWord entire active))
  | setPolarity {ch : Word} {b : Bool} {c : Channel} (hc : channel? ch = some c) :
    (Instr.setPolarity ch b).MayChange (.rmw (.pcr c) pcrActSta b 0)
  | captureEnable {ch : Word} {rising falling : Bool} {c : Channel} (hc : channel? ch = some c) :
    (Instr.setCaptureEnable ch rising falling).MayChange (.rmw .cer (cerEn c) (rising || falling) 0)
  | riseArm {ch : Word} {rising falling : Bool} {c : Channel} (hc : channel? ch = some c) :
    (Instr.setCaptureEnable ch rising falling).MayChange (.rmw (.ccr c) ccrRiseArm rising ccrW1c)
  | fallArm {ch : Word} {rising falling : Bool} {c : Channel} (hc : channel? ch = some c) :
    (Instr.setCaptureEnable ch rising falling).MayChange (.rmw (.ccr c) ccrFallArm falling ccrW1c)
  | riseInterrupt {ch : Word} {rising falling : Bool} {c : Channel} (hc : channel? ch = some c) :
    (Instr.setCaptureInterruptEnable ch rising falling).MayChange (.rmw .cier (cierRise c) rising 0)
  | fallInterrupt {ch : Word} {rising falling : Bool} {c : Channel} (hc : channel? ch = some c) :
    (Instr.setCaptureInterruptEnable ch rising falling).MayChange (.rmw .cier (cierFall c) falling 0)
  | clearRisePending {ch : Word} {rising falling : Bool} {c : Channel} (hc : channel? ch = some c) :
    (Instr.clearCaptureInterrupt ch rising falling).MayChange (.write .cisr (bit (cisrRise c)))
  | clearFallPending {ch : Word} {rising falling : Bool} {c : Channel} (hc : channel? ch = some c) :
    (Instr.clearCaptureInterrupt ch rising falling).MayChange (.write .cisr (bit (cisrFall c)))
  | clearRiseFlag {ch : Word} {rising falling : Bool} {c : Channel} (hc : channel? ch = some c) :
    (Instr.clearCaptureInterrupt ch rising falling).MayChange (.rmw (.ccr c) ccrRlf true ccrW1c)
  | clearFallFlag {ch : Word} {rising falling : Bool} {c : Channel} (hc : channel? ch = some c) :
    (Instr.clearCaptureInterrupt ch rising falling).MayChange (.rmw (.ccr c) ccrFlf true ccrW1c)
  | setDutyPercent {ch percent : Word} {c : Channel} (hc : channel? ch = some c) (h : percent.toInt.toNat ≤ 100) :
    (Instr.setDutyPercent ch percent).MayChange (.duty c percent.toInt.toNat)

/-- clearCaptureInterrupt called with both edges, by a composite. -/
theorem Instr.makes_called_clear {i : Instr} {ch : Word} {c : Channel} (hc : channel? ch = some c)
    (h : .clearCaptureInterrupt ch true true ∈ i.calls) : Makes i.MayChange (linesClearCaptureInterrupt c true true) :=
  makes_clearCaptureInterrupt (.called h (.clearRisePending hc)) (.called h (.clearRiseFlag hc))
    (.called h (.clearFallPending hc)) (.called h (.clearFallFlag hc))

/-- The groups of lines that applyPwmConfig puts together, with the store of the enable bit. -/
theorem Instr.makes_called_pwm {i : Instr} {ch source divider : Word} {prescaler : Byte} {entire active : Half}
    {polarity enabled : Bool} {c : Channel} (hc : channel? ch = some c)
    (hi : i = .applyPwmConfig ch source divider prescaler entire active polarity enabled) :
    Makes i.MayChange (linesSetClockGate c enabled) ∧ Makes i.MayChange (linesConfigureClock c source divider) ∧
    Makes i.MayChange (linesSetPeriod c entire active) ∧ Makes i.MayChange (linesSetPrescaler c prescaler) ∧
    Makes i.MayChange (linesSetPolarity c polarity) ∧ Makes i.MayChange (rmwLines .per (perEn c) enabled 0) := by
  subst hi
  refine ⟨makes_rmwLines ?_, makes_configureClock fun hs hd => ?_, makes_setPeriod fun h => ?_, makes_setPrescaler ?_,
    makes_rmwLines ?_, makes_rmwLines ?_⟩
  · exact .called (by simp [Instr.calls]) (.setClockGate hc)
  · exact .called (by simp [Instr.calls]) (.configureClock hc hs hd)
  · exact .called (by simp [Instr.calls]) (.setPeriod hc h)
  · exact .called (by simp [Instr.calls]) (.setPrescaler hc)
  · exact .called (by simp [Instr.calls]) (.setPolarity hc)
  · exact .called (by simp [Instr.calls]) (.setEnabled hc)

theorem Instr.makes_applyCaptureConfig {ch source divider : Word} {prescaler : Byte} {rising falling : Bool} {c : Channel}
    (hc : channel? ch = some c) : Makes (Instr.applyCaptureConfig ch source divider prescaler rising falling).MayChange
      (linesApplyCaptureConfig c source divider prescaler rising falling) := by
  have arms : .setCaptureEnable ch rising falling ∈
    (Instr.applyCaptureConfig ch source divider prescaler rising falling).calls := by simp [Instr.calls]
  unfold linesApplyCaptureConfig
  refine Makes.append (Makes.append (Makes.append (Makes.append (Makes.append (Makes.append ?_ ?_) ?_) ?_) ?_) ?_) ?_
  · exact .read _ .nil
  · exact .raiseIfEnabled .nil
  · exact makes_rmwLines (.called (by simp [Instr.calls]) (.setClockGate hc))
  · exact makes_configureClock fun hs hd => .called (by simp [Instr.calls]) (.configureClock hc hs hd)
  · exact makes_setPrescaler (.called (by simp [Instr.calls]) (.setPrescaler hc))
  · exact makes_setCaptureEnable (.called arms (.captureEnable hc)) (.called arms (.riseArm hc)) (.called arms (.fallArm hc))
  · exact makes_called_clear hc (by simp [Instr.calls])

end Sys2Proof

namespace Sys2Proof.Machine

/-! ## The loops -/

/-- The two loops that can sleep (R82, R99). -/
inductive IsLoop : List Line → Prop
  | disable (c : Channel) : IsLoop (disableLoop c)
  | capture (c : Channel) : IsLoop (captureLoop c)

/-- A loop makes two loads, fills some locals, and then goes on with the lines after it or sleeps before doing it again;
which one does not depend on the locals it began with. -/
theorem IsLoop.runLines {loop : List Line} (h : IsLoop loop) (cmd : Instr) (rest : List Line) (s : State) :
    ∃ (r q : Reg) (fill : Locals → Locals),
      (∀ loc, runLines cmd (loop ++ rest) loc s = runLines cmd rest (fill loc) ((s.load r).2.load q).2) ∨
      ∃ t, ∀ loc, runLines cmd (loop ++ rest) loc s = ((s.load r).2.load q).2.sleep cmd (loop ++ rest) (fill loc) t := by
  cases h with
  | disable c =>
    refine ⟨.ppcntr c, .per, fun loc => Read.into (.enabled c) ((s.load (.ppcntr c)).2.load .per).1
      (Read.into (.pulse c) (s.load (.ppcntr c)).1 loc), ?_⟩
    by_cases go : (((s.load (.ppcntr c)).2.load .per).1.fields.getLsbD (perEn c) && (s.load (.ppcntr c)).1.fields != 0) = true
    · refine .inr ⟨Config.disablePoll, fun loc => ?_⟩
      exact (runLines_waitDisable cmd c rest _ _).trans (if_pos go)
    · refine .inl fun loc => ?_
      exact (runLines_waitDisable cmd c rest _ _).trans (if_neg go)
  | capture c =>
    refine ⟨.ccr c, .ccr c, fun loc => Read.into (.riseFlag c) ((s.load (.ccr c)).2.load (.ccr c)).1
      (Read.into (.fallFlag c) (s.load (.ccr c)).1 loc), ?_⟩
    by_cases go : ((s.load (.ccr c)).1.fields.getLsbD ccrFlf && ((s.load (.ccr c)).2.load (.ccr c)).1.fields.getLsbD ccrRlf) = true
    · refine .inl fun loc => ?_
      exact (runLines_waitCapture cmd c rest _ _).trans (if_pos go)
    · refine .inr ⟨Config.capturePoll, fun loc => ?_⟩
      exact (runLines_waitCapture cmd c rest _ _).trans (if_neg go)

/-! ## After the loop, the locals from before it do not matter -/

/-- The lines end in the same state whatever the locals are before them. -/
def IgnoresLocals (lines : List Line) : Prop :=
  ∀ (cmd : Instr) (loc loc' : Locals) (s : State), runLines cmd lines loc s = runLines cmd lines loc' s

theorem IgnoresLocals.nil : IgnoresLocals [] := fun _ _ _ _ => rfl

theorem IgnoresLocals.raise (e : Code) (rest : List Line) : IgnoresLocals (.raise e :: rest) := fun _ _ _ _ => rfl

theorem IgnoresLocals.write {rest : List Line} (h : IgnoresLocals rest) (r : Reg) (v : Word) :
    IgnoresLocals (.write r v :: rest) :=
  fun cmd loc loc' s => h cmd loc loc' (s.store r v)

theorem IgnoresLocals.rmw {rest : List Line} (h : IgnoresLocals rest) (r : Reg) (i : Nat) (b : Bool) (m : Word) :
    IgnoresLocals (rmwLines r i b m ++ rest) := fun cmd loc loc' s => by
  rw [runLines_rmw, runLines_rmw]
  exact h cmd _ _ _

theorem IgnoresLocals.setPrescaler {rest : List Line} (h : IgnoresLocals rest) (c : Channel) (p : Byte) :
    IgnoresLocals (linesSetPrescaler c p ++ rest) := fun cmd _ _ _ => h cmd _ _ _

theorem IgnoresLocals.setPeriod {rest : List Line} (h : IgnoresLocals rest) (c : Channel) (entire active : Half) :
    IgnoresLocals (linesSetPeriod c entire active ++ rest) := by
  unfold linesSetPeriod
  split
  · exact .raise _ _
  · exact h.write _ _

theorem IgnoresLocals.configureClock {rest : List Line} (h : IgnoresLocals rest) (c : Channel) (source divider : Word) :
    IgnoresLocals (linesConfigureClock c source divider ++ rest) := by
  unfold linesConfigureClock
  split
  · exact .raise _ _
  · split
    · exact .raise _ _
    · exact h.write _ _

/-- After the two flags captureBlocking loads every local that it uses (R99). -/
theorem IgnoresLocals.captureCounts (c : Channel) :
    IgnoresLocals (.read (.fallCount c) :: .read (.riseCount c) :: (linesClearCaptureInterrupt c true true ++ [.ret .counts])) :=
  fun _ _ _ _ => rfl

/-! ## Every command is plain, or waits first -/

theorem makes_withChannel {ok : Change → Prop} {ch : Word} {lines : Channel → List Line}
    (h : ∀ c, channel? ch = some c → Makes ok (lines c)) : Makes ok (withChannel ch lines) := by
  cases hc : channel? ch with
  | none => rw [withChannel_none ch lines hc]; exact .raise _ _
  | some c => rw [withChannel_some ch c lines hc]; exact h c hc

/-- On an invalid channel a waiting command does not wait. -/
theorem waits_withChannel {i : Instr} {ch : Word} {lines : Channel → List Line}
    (h : ∀ c, channel? ch = some c → waiterLines i c = some (lines c)) :
    Makes i.MayChange (withChannel ch lines) ∨ ∃ c, waiterLines i c = some (withChannel ch lines) := by
  cases hc : channel? ch with
  | none => rw [withChannel_none ch lines hc]; exact .inl (.raise _ _)
  | some c => rw [withChannel_some ch c lines hc]; exact .inr ⟨c, h c hc⟩

/-- The lines of a waiting command are its loop and then lines that never sleep and need no local from before the loop. -/
theorem waiterLines_form {cmd : Instr} {c : Channel} {line : List Line} (h : waiterLines cmd c = some line) :
    cmd.lines = some line ∧
    ∃ loop rest, line = loop ++ rest ∧ IsLoop loop ∧ Makes cmd.MayChange rest ∧ IgnoresLocals rest := by
  cases cmd with
  | setEnabled ch enabled =>
    cases enabled
    · simp only [waiterLines, Option.ite_none_right_eq_some, Option.some.injEq] at h
      obtain ⟨hc, rfl⟩ := h
      exact ⟨congrArg some (withChannel_some ch c _ hc), disableLoop c, _, rfl, .disable c, makes_rmwLines (.setEnabled hc),
        IgnoresLocals.nil.rmw _ _ _ _⟩
    · cases h
  | applyPwmConfig ch source divider prescaler entire active polarity enabled =>
    cases enabled
    · simp only [waiterLines, Option.ite_none_right_eq_some, Option.some.injEq] at h
      obtain ⟨hc, rfl⟩ := h
      obtain ⟨gate, clock, period, presc, pol, en⟩ := Instr.makes_called_pwm (source := source) (divider := divider)
        (prescaler := prescaler) (entire := entire) (active := active) (polarity := polarity) (enabled := false) hc rfl
      refine ⟨congrArg some (withChannel_some ch c _ hc), disableLoop c, _, ?_, .disable c,
        en.append (pol.append (presc.append (period.append (clock.append gate)))),
        (((((IgnoresLocals.nil.rmw _ _ _ _).configureClock _ _ _).setPeriod _ _ _).setPrescaler _ _).rmw _ _ _ _).rmw _ _ _ _⟩
      simp [linesApplyPwmConfig, linesSetEnabled]
    · cases h
  | captureBlocking ch dst =>
    cases dst
    · cases h
    · simp only [waiterLines, Option.ite_none_right_eq_some, Option.some.injEq] at h
      obtain ⟨hc, rfl⟩ := h
      refine ⟨congrArg some (withChannel_some ch c _ hc), captureLoop c, _, ?_, .capture c,
        .read (.fallCount c) (.read (.riseCount c) ((Instr.makes_called_clear hc (by simp [Instr.calls])).append
          (.ret .counts []))), .captureCounts c⟩
      simp [linesCaptureBlocking]
  | _ => cases h

/-- The lines of a command never sleep, or are those of a waiting command. -/
theorem lines_form {i : Instr} {lines : List Line} (h : i.lines = some lines) :
    Makes i.MayChange lines ∨ ∃ c, waiterLines i c = some lines := by
  cases i with
  | setEnabled ch enabled =>
    cases h
    cases enabled with
    | true => exact .inl (makes_withChannel fun c hc => makes_rmwLines (.setEnabled hc))
    | false => exact waits_withChannel fun c hc => if_pos hc
  | applyPwmConfig ch source divider prescaler entire active polarity enabled =>
    cases h
    cases enabled with
    | true =>
      refine .inl (makes_withChannel fun c hc => ?_)
      obtain ⟨gate, clock, period, presc, pol, en⟩ := Instr.makes_called_pwm hc rfl
      exact ((((gate.append clock).append period).append presc).append pol).append en
    | false => exact waits_withChannel fun c hc => if_pos hc
  | captureBlocking ch dst =>
    cases h
    cases dst with
    | true => exact waits_withChannel fun c hc => if_pos hc
    | false => exact .inl (makes_withChannel fun _ _ => .raise _ _)
  | load32 off dst =>
    obtain ⟨r, -, rfl⟩ := Option.map_eq_some_iff.1 h
    exact .inl (makes_withDst dst (.read _ (.ret _ _)))
  | store32 off v =>
    obtain ⟨r, hr, rfl⟩ := Option.map_eq_some_iff.1 h
    exact .inl (.write (.store32 hr) .nil)
  | readModifyWriteBit off index b =>
    obtain ⟨r, hr, rfl⟩ := Option.map_eq_some_iff.1 h
    refine .inl ?_
    unfold linesReadModifyWriteBit
    split
    · exact .nil
    · next hi => exact makes_rmwLines (.readModifyWriteBit hr (Nat.le_of_not_lt hi))
  | setClockGate ch b => cases h; exact .inl (makes_withChannel fun c hc => makes_rmwLines (.setClockGate hc))
  | setClockBypass ch b => cases h; exact .inl (makes_withChannel fun c hc => makes_rmwLines (.setClockBypass hc))
  | configureClock ch source divider =>
    cases h
    exact .inl (makes_withChannel fun c hc => makes_configureClock fun hs hd => .configureClock hc hs hd)
  | setPrescaler ch p => cases h; exact .inl (makes_withChannel fun c hc => makes_setPrescaler (.setPrescaler hc))
  | setPeriod ch entire active =>
    cases h
    exact .inl (makes_withChannel fun c hc => makes_setPeriod fun hp => .setPeriod hc hp)
  | setPolarity ch b => cases h; exact .inl (makes_withChannel fun c hc => makes_rmwLines (.setPolarity hc))
  | setCaptureEnable ch rising falling =>
    cases h
    exact .inl (makes_withChannel fun c hc => makes_setCaptureEnable (.captureEnable hc) (.riseArm hc) (.fallArm hc))
  | setCaptureInterruptEnable ch rising falling =>
    cases h
    exact .inl (makes_withChannel fun c hc => (makes_rmwLines (.riseInterrupt hc)).append (makes_rmwLines (.fallInterrupt hc)))
  | clearCaptureInterrupt ch rising falling =>
    cases h
    exact .inl (makes_withChannel fun c hc => makes_clearCaptureInterrupt (.clearRisePending hc) (.clearRiseFlag hc)
      (.clearFallPending hc) (.clearFallFlag hc))
  | setDutyPercent ch percent =>
    cases h
    exact .inl (makes_withChannel fun c hc => makes_setDutyPercent fun hp => .setDutyPercent hc hp)
  | applyCaptureConfig ch source divider prescaler rising falling =>
    cases h
    exact .inl (makes_withChannel fun c hc => Instr.makes_applyCaptureConfig hc)
  | readClockConfig ch dst =>
    cases h
    exact .inl (makes_withChannel fun c _ => makes_withDst dst ((makes_readClockConfig c).append (.ret _ _)))
  | readPwmConfig ch dst =>
    cases h
    exact .inl (makes_withChannel fun c _ => makes_withDst dst ((((makes_readClockConfig c).append (.read _ .nil)).append
      (.read _ .nil)).append (.read _ .nil) |>.append (.ret _ _)))
  | effectiveClockPeriodNs source divider prescaler dst =>
    cases h
    refine .inl (makes_withDst dst ?_)
    unfold linesEffectiveClockPeriodNs
    split
    · exact .raise _ _
    · exact .ret _ _
  | rawToNanoseconds ch onCycles offCycles dst =>
    cases h
    exact .inl (makes_withChannel fun c _ => makes_withDst dst ((makes_liveClock c).append (.ret _ _)))
  | maxCaptureDurationNs ch dst =>
    cases h
    exact .inl (makes_withChannel fun c _ => makes_withDst dst ((makes_liveClock c).append (.ret _ _)))
  | outputFrequencyHz ch dst =>
    cases h
    exact .inl (makes_withChannel fun c _ =>
      makes_withDst dst (((makes_liveClock c).append (.read _ .nil)).append (.ret _ _)))
  | readPrescaler ch dst | isEnabled ch dst | getPeriod ch dst | readCaptureInterruptStatus ch dst
  | readRiseLockCount ch dst | readFallLockCount ch dst | readRiseLockFlag ch dst | readFallLockFlag ch dst =>
    cases h
    exact .inl (makes_withChannel fun _ _ => makes_withDst dst (.read _ (.ret _ _)))

/-- What turns and the changes of a command keep, the command keeps, whatever the schedule (R55). -/
theorem exec_keeps {P : State → Prop} (hP : KeptByTurns P) {i : Instr}
    (hok : ∀ e, i.MayChange e → ∀ s, P s → P (e.apply s)) {s t : State} (h : exec i s = .next t) (hs : P s) : P t := by
  obtain ⟨-, lines, hl, rfl⟩ := exec_next h
  have begun : P s.begin := hP.window s _ rfl hs
  obtain plain | ⟨c, waiter⟩ := lines_form hl
  · exact plain.keeps hP hok i _ _ begun
  · obtain ⟨-, loop, rest, rfl, hloop, hrest, -⟩ := waiterLines_form waiter
    obtain ⟨r, q, fill, run | ⟨time, run⟩⟩ := hloop.runLines i rest s.begin
    all_goals
      have loaded : P ((s.begin.load r).2.load q).2 := hP.load _ q (hP.load _ r begun)
      rw [run]
    · exact hrest.keeps hP hok i _ _ loaded
    · exact hP.window ((s.begin.load r).2.load q).2 _ rfl loaded

end Sys2Proof.Machine

end

section
/-! PROOFS. What no command does to the window (R17, R22, R27, R37, R45): each claim says which changes are harmless, and that the command makes no others. -/

namespace Sys2Proof.Machine

/-! ## `RW` bits -/

/-- A store gives an `RW` bit of its register the bit of its word, and changes no other `RW` bit (R44). -/
theorem State.store_flag_rw (s : State) (r q : Reg) (v : Word) (k : Nat) (hk : (q.mask .rw).getLsbD k = true) :
    (s.store r v).flag q k = if q = r then v.getLsbD k else s.flag q k := by
  by_cases e : q = r
  · subst e
    have h := congrArg (fun w => w.getLsbD k) (q.afterWrite_rw (s.turn.stored q) v)
    simpa [State.flag, hk] using h
  · rw [if_neg e, ← s.turn_flag_rw q k hk]
    simp only [State.flag, State.store_stored_ne _ _ _ _ e]

/-- A load hands out every `RW` bit as it stands. -/
theorem State.load_fields_rw (s : State) (r : Reg) (k : Nat) (hk : (r.mask .rw).getLsbD k = true) :
    (s.load r).1.fields.getLsbD k = s.flag r k := by
  rw [← s.turn_flag_rw r k hk]
  simp [State.flag, Reg.defined, hk]

theorem State.load_flag_rw (s : State) (r q : Reg) (k : Nat) (hk : (q.mask .rw).getLsbD k = true) :
    (s.load r).2.flag q k = s.flag q k := by
  rw [State.load_flag, s.turn_flag_rw q k hk]

/-- A word that a load gave and that is stored back keeps each `RW` bit at which it was not changed (R45). -/
theorem State.store_load_flag_rw (s : State) (r q : Reg) (v : Word) (k : Nat) (hk : (q.mask .rw).getLsbD k = true)
    (hv : q = r → v.getLsbD k = (s.load r).1.fields.getLsbD k) : ((s.load r).2.store r v).flag q k = s.flag q k := by
  rw [State.store_flag_rw _ _ _ _ _ hk]
  split
  · next e => rw [hv e, ← e, s.load_fields_rw q k hk]
  · exact s.load_flag_rw r q k hk

theorem onReg_getLsbD (r q : Reg) (m : Word) (k : Nat) : (onReg r q m).getLsbD k = (decide (r = q) && m.getLsbD k) := by
  unfold onReg
  split <;> simp [*]

/-- The bits of a register that a change may give another value. -/
def Change.bits : Change → Reg → Word
  | .write r _, q => onReg q r 0xFFFFFFFF
  | .rmw r i _ m, q => onReg q r (bit i ||| m)
  | .prescaler c _, q => onReg q (.pcr c) 0xFF
  | .duty c _, q => onReg q (.ppr c) 0xFFFF

theorem getLsbD_apart {a b : Word} (h : a &&& b = 0) {k : Nat} (ha : a.getLsbD k = true) (hb : b.getLsbD k = true) : False := by
  have both := congrArg (fun w => w.getLsbD k) h
  simp [ha, hb] at both

theorem of_onReg {r q : Reg} {m : Word} {k : Nat} (h : (onReg r q m).getLsbD k = true) : r = q ∧ m.getLsbD k = true := by
  simpa [onReg_getLsbD] using h

@[simp] theorem Change.bits_rmw (r q : Reg) (i : Nat) (b : Bool) : (Change.rmw r i b 0).bits q = onReg q r (bit i) :=
  congrArg (onReg q r) BitVec.or_zero

theorem ones_getLsbD (k : Nat) : (0xFFFFFFFF#32).getLsbD k = decide (k < 32) := BitVec.getLsbD_allOnes

theorem lowByte_getLsbD (k : Nat) : (0xFF#32).getLsbD k = decide (k < 8) := by
  rw [show 0xFF#32 = (BitVec.allOnes 8).setWidth 32 by decide, BitVec.getLsbD_setWidth, BitVec.getLsbD_allOnes,
    ← Bool.decide_and, decide_eq_decide]
  omega

theorem setBit_getLsbD_other (w : Word) (i : Nat) (b : Bool) (m : Word) (k : Nat) (hk : k < 32)
    (h : (bit i ||| m).getLsbD k = false) : (setBit w i b m).getLsbD k = w.getLsbD k := by
  obtain ⟨hi, hm⟩ := Bool.or_eq_false_iff.1 (BitVec.getLsbD_or.symm.trans h)
  cases b <;> simp only [setBit, BitVec.getLsbD_or, BitVec.getLsbD_and, BitVec.getLsbD_not, hk, hi, hm] <;> simp [hi]

theorem prescalerWord_getLsbD_other (w : Word) (p : Byte) (k : Nat) (hk : k < 32) (h : (0xFF#32).getLsbD k = false) :
    (prescalerWord w p).getLsbD k = w.getLsbD k := by
  have high : 8 ≤ k := by simpa [lowByte_getLsbD] using h
  simp only [prescalerWord, BitVec.getLsbD_or, BitVec.getLsbD_and, BitVec.getLsbD_not, BitVec.getLsbD_setWidth, hk, h,
    BitVec.getLsbD_of_ge p k high]
  simp

theorem dutyWord_getLsbD_other (w : Word) (percent k : Nat) (hk : k < 32) (h : (0xFFFF#32).getLsbD k = false) :
    (dutyWord w percent).getLsbD k = w.getLsbD k := by
  have high : 16 ≤ k := by simpa [lowHalf_getLsbD] using h
  rw [dutyWord, periodWord, BitVec.getLsbD_append, if_neg (Nat.not_lt.2 high), BitVec.getLsbD_extractLsb', pprEntire,
    Nat.add_sub_cancel' high, decide_eq_true (by omega : k - 16 < 16), Bool.true_and]

/-- A change leaves the `RW` bits outside its own. -/
theorem Change.apply_flag_rw (e : Change) (s : State) (q : Reg) (k : Nat) (hk : (q.mask .rw).getLsbD k = true)
    (he : (e.bits q).getLsbD k = false) : (e.apply s).flag q k = s.flag q k := by
  have hk32 : k < 32 := BitVec.lt_of_getLsbD hk
  have outside : ∀ (r : Reg) (m : Word), (onReg q r m).getLsbD k = false → q = r → m.getLsbD k = false :=
    fun r m h hq => by simpa [onReg_getLsbD, hq] using h
  cases e with
  | write r v =>
    rw [Change.apply, State.store_flag_rw _ _ _ _ _ hk, if_neg]
    intro hq
    have hbit := outside r _ he hq
    exact Bool.noConfusion (hbit.symm.trans ((ones_getLsbD k).trans (decide_eq_true hk32)))
  | rmw r i b m => exact s.store_load_flag_rw r q _ k hk fun hq => setBit_getLsbD_other _ i b m k hk32 (outside r _ he hq)
  | prescaler c p => exact s.store_load_flag_rw _ q _ k hk fun hq => prescalerWord_getLsbD_other _ p k hk32 (outside _ _ he hq)
  | duty c percent => exact s.store_load_flag_rw _ q _ k hk fun hq => dutyWord_getLsbD_other _ percent k hk32 (outside _ _ he hq)

/-! ## The bits each rule writes -/

/-- A command on a channel may write what its rule says for that channel. -/
theorem mayWrite_of_channel {i : Instr} {ch : Word} {c : Channel} (hi : i.chOperand = some ch) (hc : channel? ch = some c)
    (r : Reg) : i.mayWrite r = i.writesOn c r := by
  cases i with
  | load32 | store32 | readModifyWriteBit | effectiveClockPeriodNs => cases hi
  | _ => cases hi; simp only [Instr.mayWrite, Instr.chOperand, Option.bind_some, hc]

/-- On an invalid channel a command may write nothing. -/
theorem mayWrite_of_no_channel {i : Instr} {ch : Word} (hi : i.chOperand = some ch) (hc : channel? ch = none) (r : Reg) :
    i.mayWrite r = 0 := by
  cases i with
  | load32 | store32 | readModifyWriteBit | effectiveClockPeriodNs => cases hi
  | _ => cases hi; simp only [Instr.mayWrite, Instr.chOperand, Option.bind_some, hc]

/-- A composite hands its channel to the commands it calls. -/
theorem chOperand_of_calls {i j : Instr} (hj : j ∈ i.calls) : ∃ ch, i.chOperand = some ch ∧ j.chOperand = some ch := by
  cases i with
  | applyPwmConfig ch | applyCaptureConfig ch | captureBlocking ch =>
    simp only [Instr.calls, List.mem_cons, List.not_mem_nil, or_false] at hj
    rcases hj with rfl | rfl | rfl | rfl | rfl | rfl <;> exact ⟨ch, rfl, rfl⟩
  | _ => cases hj

/-- The two fields of the control word (R26). -/
theorem controlWord_bits : 0x1FF#32 = 0xFF#32 ||| 0x100#32 := by decide

/-- A composite may write what the commands it calls may write (R70). -/
theorem writesOn_of_calls {i j : Instr} (hj : j ∈ i.calls) (c : Channel) (r : Reg) (k : Nat)
    (h : (j.writesOn c r).getLsbD k = true) : (i.writesOn c r).getLsbD k = true := by
  cases i with
  | applyPwmConfig | applyCaptureConfig | captureBlocking =>
    simp only [Instr.calls, List.mem_cons, List.not_mem_nil, or_false] at hj
    rcases hj with rfl | rfl | rfl | rfl | rfl | rfl <;>
    simp only [Instr.writesOn, BitVec.ofNat_eq_ofNat, controlWord_bits, BitVec.getLsbD_or, onReg_getLsbD, BitVec.getLsbD_zero,
      Bool.false_eq_true, Bool.or_eq_true, Bool.and_eq_true] at h ⊢ <;> tauto
  | _ => cases hj

theorem mayWrite_of_calls {i j : Instr} (hj : j ∈ i.calls) (r : Reg) (k : Nat) (h : (j.mayWrite r).getLsbD k = true) :
    (i.mayWrite r).getLsbD k = true := by
  obtain ⟨ch, hi, hj'⟩ := chOperand_of_calls hj
  cases hc : channel? ch with
  | none =>
    rw [mayWrite_of_no_channel hj' hc] at h
    exact absurd h (by simp)
  | some c =>
    rw [mayWrite_of_channel hi hc]
    rw [mayWrite_of_channel hj' hc] at h
    exact writesOn_of_calls hj c r k h

/-- The `RW` bits that a command's changes touch are those its rule writes. -/
theorem mayWrite_of_mayChange {i : Instr} {e : Change} (he : i.MayChange e) (r : Reg) (k : Nat)
    (hk : (r.mask .rw).getLsbD k = true) (h : (e.bits r).getLsbD k = true) : (i.mayWrite r).getLsbD k = true := by
  induction he with
  | called hj _ ih => exact mayWrite_of_calls hj r k (ih h)
  | store32 hr =>
    obtain ⟨rfl, hbit⟩ := of_onReg h
    simpa only [Instr.mayWrite, hr, if_true] using hbit
  | readModifyWriteBit hr =>
    rw [Change.bits_rmw] at h
    obtain ⟨rfl, hbit⟩ := of_onReg h
    simpa only [Instr.mayWrite, hr, if_true] using hbit
  | setClockGate hc | setClockBypass hc | setEnabled hc | setPolarity hc =>
    rw [Change.bits_rmw] at h
    rw [mayWrite_of_channel rfl hc]
    exact h
  | setPrescaler hc | setPeriod hc | setDutyPercent hc =>
    rw [mayWrite_of_channel rfl hc]
    exact h
  | configureClock hc =>
    obtain ⟨rfl, -⟩ := of_onReg h
    rw [mayWrite_of_channel rfl hc]
    simpa [Instr.writesOn, onReg] using hk
  | captureEnable hc =>
    rw [Change.bits_rmw] at h
    rw [mayWrite_of_channel rfl hc, Instr.writesOn, BitVec.getLsbD_or, h, Bool.true_or]
  | riseArm hc | fallArm hc =>
    obtain ⟨rfl, -⟩ := of_onReg h
    rw [mayWrite_of_channel rfl hc, Instr.writesOn, BitVec.getLsbD_or, Bool.or_eq_true]
    exact .inr (by simpa [onReg] using hk)
  | riseInterrupt hc | fallInterrupt hc =>
    rw [Change.bits_rmw] at h
    obtain ⟨rfl, hbit⟩ := of_onReg h
    rw [mayWrite_of_channel rfl hc]
    simp [Instr.writesOn, onReg, hbit]
  | clearRisePending | clearFallPending =>
    obtain ⟨rfl, -⟩ := of_onReg h
    simp at hk
  | clearRiseFlag hc | clearFallFlag hc =>
    obtain ⟨rfl, hbit⟩ := of_onReg h
    rw [Reg.rw_ccr] at hk
    exact (getLsbD_apart (by decide) hbit hk).elim

end Sys2Proof.Machine

open Sys2Proof Sys2Proof.Machine

/-- Settles O51: every change of a command keeps the `RW` bits outside those that its rule writes. -/
theorem commandsChangeOnlyTheirOwnBits : Obligations.CommandsChangeOnlyTheirOwnBits := by
  intro s t i h r k hk hw
  refine exec_keeps (P := fun u => u.flag r k = s.flag r k) ⟨?_, ?_⟩ ?_ h rfl
  · exact fun u v hm hu => (State.flag_of_mem hm r k).symm.trans hu
  · exact fun u hu => (u.turn_flag_rw r k hk).trans hu
  · intro e he u hu
    refine (e.apply_flag_rw u r k hk ?_).trans hu
    refine Bool.eq_false_iff.2 fun hb => ?_
    exact Bool.noConfusion ((mayWrite_of_mayChange he r k hk hb).symm.trans hw)

end

section
/-! PROOFS. No command but those meant to clears a flag (R37) or makes an illegal configuration (R22, R27). -/

namespace Sys2Proof.Machine

/-! ## Flags (R37) -/

/-- The change writes a 1 to no flag: no flag stands in its register, or each is masked out of the word written back and is not the bit set (R44, R46). -/
def Change.KeepsFlags : Change → Prop
  | .write r _ => r.mask .w1c = 0
  | .rmw r i _ m => r.mask .w1c &&& (~~~m ||| bit i) = 0
  | .prescaler _ _ | .duty _ _ => True

theorem setBit_getLsbD_masked {w : Word} {i : Nat} {b : Bool} {m f : Word} {k : Nat} (h : f &&& (~~~m ||| bit i) = 0)
    (hk : f.getLsbD k = true) : (setBit w i b m).getLsbD k = false := by
  have hk32 : k < 32 := BitVec.lt_of_getLsbD hk
  have hmask : (~~~m ||| bit i).getLsbD k = false := Bool.eq_false_iff.2 fun h1 => getLsbD_apart h hk h1
  rw [BitVec.getLsbD_or, BitVec.getLsbD_not, decide_eq_true hk32, Bool.true_and, Bool.or_eq_false_iff] at hmask
  obtain ⟨hm, hi⟩ := hmask
  rw [setBit, BitVec.getLsbD_or, BitVec.getLsbD_and, BitVec.getLsbD_and, BitVec.getLsbD_not, decide_eq_true hk32, Bool.true_and, hm]
  cases b <;> simp [hi]

/-- A change that keeps flags leaves every flag that is set. -/
theorem Change.KeepsFlags.apply {e : Change} (he : e.KeepsFlags) (s : State) (q : Reg) (k : Nat)
    (hk : (q.mask .w1c).getLsbD k = true) (h : s.flag q k = true) : (e.apply s).flag q k = true := by
  have none : ∀ r : Reg, r.mask .w1c = 0 → q ≠ r := fun r hr hq => by rw [hq, hr] at hk; exact absurd hk (by simp)
  cases e with
  | write r v => exact s.store_w1c r q v k hk h fun hq => absurd hq (none r he)
  | rmw r i b m =>
    refine State.store_w1c _ r q _ k hk (s.load_w1c r q k hk h) fun hq => ?_
    subst hq
    exact setBit_getLsbD_masked he hk
  | prescaler c p => exact State.store_w1c _ _ q _ k hk (s.load_w1c _ q k hk h) fun hq => absurd hq (none _ (by simp))
  | duty c percent => exact State.store_w1c _ _ q _ k hk (s.load_w1c _ q k hk h) fun hq => absurd hq (none _ (by simp))

theorem clearsFlags_of_calls {i j : Instr} (hj : j ∈ i.calls) (hi : i.clearsFlags = false) : j.clearsFlags = false := by
  cases i with
  | applyPwmConfig =>
    simp only [Instr.calls, List.mem_cons, List.not_mem_nil, or_false] at hj
    rcases hj with rfl | rfl | rfl | rfl | rfl | rfl <;> rfl
  | applyCaptureConfig | captureBlocking => cases hi
  | _ => cases hj

/-- The changes of a command that is not meant to clear flags keep them; the arm bits' by the mask `CCR_W1C` (R46, R86). -/
theorem keepsFlags_of_mayChange {i : Instr} {e : Change} (he : i.MayChange e) (hi : i.clearsFlags = false) : e.KeepsFlags := by
  induction he with
  | called hj _ ih => exact ih (clearsFlags_of_calls hj hi)
  | store32 | readModifyWriteBit | clearRisePending | clearFallPending | clearRiseFlag | clearFallFlag => cases hi
  | riseArm | fallArm => rw [Change.KeepsFlags, Reg.w1c_ccr]; decide
  | setPrescaler | setDutyPercent => trivial
  | _ => simp [Change.KeepsFlags]

/-! ## Legal configurations (R22, R27) -/

/-- What `State.legalConfig` asks of the word of one register. -/
def Reg.LegalWord : Reg → Word → Prop
  | .ppr _, w => (w.extractLsb' pprAct 16).toNat ≤ (w.extractLsb' pprEntire 16).toNat
  | .pccr _, w => (w.extractLsb' pccrDiv 4).toNat ≤ 8
  | _, _ => True

theorem State.legalConfig_iff (s : State) : s.legalConfig ↔ ∀ r : Reg, r.LegalWord (s.stored r) := by
  constructor
  · rintro ⟨period, divider⟩ r
    cases r with
    | ppr c => exact period c
    | pccr p => exact divider p
    | _ => trivial
  · exact fun h => ⟨fun c => h (.ppr c), fun p => h (.pccr p)⟩

/-- A store gives a period register its whole word (R27, R44). -/
theorem afterWrite_ppr (c : Channel) (old v : Word) : (Reg.ppr c).afterWrite old v = v := by
  have all : (Reg.ppr c).mask .rw = BitVec.allOnes 32 := Reg.rw_ppr c
  rw [Reg.afterWrite, all, BitVec.and_allOnes, Reg.ro_ppr, Reg.w1c_ppr]
  simp

/-- A store gives a pair register the whole divider field of its word (R22, R44). -/
theorem afterWrite_pccr_divider (p : Pair) (old v : Word) :
    ((Reg.pccr p).afterWrite old v).extractLsb' pccrDiv 4 = v.extractLsb' pccrDiv 4 := by
  have kept : (0x8F#32).extractLsb' pccrDiv 4 = BitVec.allOnes 4 := by decide
  rw [Reg.afterWrite, Reg.rw_pccr, Reg.ro_pccr, Reg.w1c_pccr]
  simp only [BitVec.and_zero, BitVec.zero_and, BitVec.or_zero, BitVec.extractLsb'_and, kept, BitVec.and_allOnes]

/-- A store keeps of a legal word what the register has fields for, and that is legal. -/
theorem Reg.LegalWord.afterWrite {r : Reg} {v : Word} (h : r.LegalWord v) (old : Word) : r.LegalWord (r.afterWrite old v) := by
  cases r with
  | ppr c => rwa [afterWrite_ppr]
  | pccr p => rwa [Reg.LegalWord, afterWrite_pccr_divider]
  | _ => trivial

theorem State.legalConfig.keptByTurns : KeptByTurns State.legalConfig where
  window := fun s t hm hs => (State.legalConfig_iff t).2 fun r => by
    rw [← State.stored_of_mem s t r hm]
    exact (State.legalConfig_iff s).1 hs r
  turn := fun s ⟨period, divider⟩ => ⟨fun c => by
    simpa only [State.active, State.entire, State.turn_stored_ppr] using period c, fun p => by
    simpa only [State.divider, State.turn_stored_pccr] using divider p⟩

theorem State.legalConfig.store {s : State} (hs : s.legalConfig) {r : Reg} {v : Word} (hv : r.LegalWord v) :
    (s.store r v).legalConfig := by
  rw [State.legalConfig_iff]
  intro q
  rw [State.store_stored]
  split
  · next e => rw [e]; exact hv.afterWrite _
  · exact (State.legalConfig_iff _).1 (State.legalConfig.keptByTurns.turn s hs) q

/-- The change stores a legal word, whatever it loaded. -/
def Change.Legal : Change → Prop
  | .write r v => r.LegalWord v
  | .rmw r _ _ _ => ∀ v, r.LegalWord v
  | .prescaler _ _ => True
  | .duty _ percent => percent ≤ 100

theorem periodWord_entire (entire active : Half) : (periodWord entire active).extractLsb' pprEntire 16 = entire := by
  ext k hk
  rw [BitVec.getElem_extractLsb', periodWord, BitVec.getLsbD_append, pprEntire, if_neg (Nat.not_lt.2 (Nat.le_add_right 16 k)),
    Nat.add_sub_cancel_left, BitVec.getLsbD_eq_getElem hk]

theorem periodWord_active (entire active : Half) : (periodWord entire active).extractLsb' pprAct 16 = active := by
  ext k hk
  rw [BitVec.getElem_extractLsb', periodWord, BitVec.getLsbD_append, pprAct, Nat.zero_add, if_pos hk, BitVec.getLsbD_eq_getElem hk]

theorem clockWord_divider (source divider : Word) : (clockWord source divider).extractLsb' pccrDiv 4 = divider.setWidth 4 := by
  ext k hk
  have low : k < pccrSrc := by rw [pccrSrc]; omega
  simp [clockWord, low, pccrDiv]

theorem legalWord_clockWord (p : Pair) (source divider : Word) (h : divider.toNat ≤ 8) :
    (Reg.pccr p).LegalWord (clockWord source divider) := by
  rw [Reg.LegalWord, clockWord_divider, BitVec.toNat_setWidth]
  omega

theorem legalWord_periodWord (c : Channel) {entire active : Half} (h : active.toNat ≤ entire.toNat) :
    (Reg.ppr c).LegalWord (periodWord entire active) := by
  rw [Reg.LegalWord, periodWord_entire, periodWord_active]
  exact h

theorem dutyActive_le (entire : Half) (percent : Nat) (h : percent ≤ 100) : (dutyActive entire percent).toNat ≤ entire.toNat := by
  rw [dutyActive, BitVec.toNat_ofNat]
  exact (Nat.mod_le _ _).trans (Nat.div_le_of_le_mul (by rw [Nat.mul_comm 100]; exact Nat.mul_le_mul_left _ h))

theorem Change.Legal.apply {e : Change} (he : e.Legal) (s : State) (hs : s.legalConfig) : (e.apply s).legalConfig := by
  have loaded : ∀ r, (s.load r).2.legalConfig := fun r => State.legalConfig.keptByTurns.load s r hs
  cases e with
  | write r v => exact hs.store he
  | rmw r i b m => exact (loaded r).store (he _)
  | prescaler c p => exact (loaded _).store trivial
  | duty c percent => exact (loaded _).store (legalWord_periodWord c (dutyActive_le _ percent he))

theorem rawWriter_of_calls {i j : Instr} (hj : j ∈ i.calls) : j.rawWriter = false := by
  cases i with
  | applyPwmConfig | applyCaptureConfig | captureBlocking =>
    simp only [Instr.calls, List.mem_cons, List.not_mem_nil, or_false] at hj
    rcases hj with rfl | rfl | rfl | rfl | rfl | rfl <;> rfl
  | _ => cases hj

/-- The operand checks of R77, R83 and R97 make every stored configuration legal. -/
theorem legal_of_mayChange {i : Instr} {e : Change} (he : i.MayChange e) (hi : i.rawWriter = false) : e.Legal := by
  induction he with
  | called hj _ ih => exact ih (rawWriter_of_calls hj)
  | store32 | readModifyWriteBit => cases hi
  | @configureClock _ _ _ c _ _ hd => exact legalWord_clockWord c.pair _ _ hd
  | @setPeriod _ _ _ c _ h => exact legalWord_periodWord c h
  | setDutyPercent _ h => exact h
  | clearRisePending | clearFallPending | setPrescaler => trivial
  | _ => exact fun _ => trivial

end Sys2Proof.Machine

open Sys2Proof Sys2Proof.Machine

/-- Settles O52: a flag that is set stays set through turns and through every change of such a command. -/
theorem onlyClearingCommandsClearFlags : Obligations.OnlyClearingCommandsClearFlags := by
  intro s t i h hi r k hk hs
  refine exec_keeps (P := fun u => u.flag r k = true) ⟨?_, ?_⟩ ?_ h hs
  · exact fun u v hm hu => (State.flag_of_mem hm r k).symm.trans hu
  · exact fun u => u.turn_w1c r k hk
  · exact fun e he u => (keepsFlags_of_mayChange he hi).apply u r k hk

/-- Settles O53: every change of such a command stores a legal word. -/
theorem onlyRawWritersMakeIllegalConfigurations : Obligations.OnlyRawWritersMakeIllegalConfigurations :=
  fun _ _ _ h hi hs => exec_keeps State.legalConfig.keptByTurns (fun _ he => (legal_of_mayChange he hi).apply) h hs

end

section
/-! PROOFS. The commands that wait (R36, R82, R95, R99): no other command sleeps, and waking goes on as the command newly issued would (R121). -/

namespace Sys2Proof.Machine

/-! ## Only waiters sleep -/

/-- A waiting command runs to its end, or sleeps at the head of its loop, unanswered as before. -/
theorem runLines_waiter {cmd : Instr} {c : Channel} {line : List Line} (h : waiterLines cmd c = some line) (loc : Locals)
    {s : State} (hs : s.response = none) : (runLines cmd line loc s).waitsOnly := by
  obtain ⟨-, loop, rest, rfl, hloop, hrest, -⟩ := waiterLines_form h
  obtain ⟨r, q, fill, run | ⟨time, run⟩⟩ := hloop.runLines cmd rest s
  · rw [run, State.waitsOnly, hrest.runs_to_idle]
    trivial
  · rw [run]
    exact ⟨by simp [hs], c, h⟩

theorem exec_waitsOnly {i : Instr} {s t : State} (h : exec i s = .next t) : t.waitsOnly := by
  obtain ⟨-, lines, hl, rfl⟩ := exec_next h
  obtain plain | ⟨c, waiter⟩ := lines_form hl
  · rw [State.waitsOnly, plain.runs_to_idle]
    trivial
  · exact runLines_waiter waiter {} rfl

/-! ## A run of lines, seen from another point of the machine's history -/

/-- The state with accesses in front of those it has made. -/
def State.prependBus (s : State) (pre : List Access) : State := { s with bus := pre ++ s.bus }

@[simp] theorem State.prependBus_mem (s : State) (pre : List Access) : (s.prependBus pre).mem = s.mem := rfl
@[simp] theorem State.prependBus_seq (s : State) (pre : List Access) : (s.prependBus pre).seq = s.seq := rfl
@[simp] theorem State.prependBus_inbox (s : State) (pre : List Access) : (s.prependBus pre).inbox = s.inbox := rfl
@[simp] theorem State.prependBus_response (s : State) (pre : List Access) : (s.prependBus pre).response = s.response := rfl
@[simp] theorem State.prependBus_bus (s : State) (pre : List Access) : (s.prependBus pre).bus = pre ++ s.bus := rfl
@[simp] theorem State.prependBus_schedule (s : State) (pre : List Access) : (s.prependBus pre).schedule = s.schedule := rfl
@[simp] theorem State.prependBus_draws (s : State) (pre : List Access) : (s.prependBus pre).draws = s.draws := rfl

@[simp] theorem State.turn_prependBus (s : State) (pre : List Access) : (s.prependBus pre).turn = s.turn.prependBus pre := by
  apply State.ext <;> simp [State.turn_mem_congr (s.prependBus pre) s rfl rfl]

theorem State.note_prependBus (s : State) (pre : List Access) (a : Access) : (s.prependBus pre).note a = (s.note a).prependBus pre := by
  apply State.ext <;> simp

theorem State.load_prependBus (s : State) (pre : List Access) (r : Reg) :
    (s.prependBus pre).load r = ((s.load r).1, (s.load r).2.prependBus pre) := by
  rw [State.load, State.turn_prependBus]
  exact Prod.ext rfl (State.note_prependBus s.turn.countLoad pre (.load r))

theorem State.store_prependBus (s : State) (pre : List Access) (r : Reg) (v : Word) :
    (s.prependBus pre).store r v = (s.store r v).prependBus pre := by
  rw [State.store, State.turn_prependBus]
  exact State.note_prependBus (s.turn.setStored r _) pre (.store r)

theorem State.load_putSeq (s : State) (q : Seq) (r : Reg) :
    (s.putSeq q).load r = ((s.load r).1, (s.load r).2.putSeq q) := by
  simp only [State.load, State.turn_putSeq]
  rfl

theorem State.store_putSeq (s : State) (q : Seq) (r : Reg) (v : Word) :
    (s.putSeq q).store r v = (s.store r v).putSeq q := by
  simp only [State.store, State.turn_putSeq]
  rfl

/-- What a line does, with the state it leaves changed by `f`. -/
def After.map (f : State → State) : After → After
  | .go loc s => .go loc (f s)
  | .done code values s => .done code values (f s)
  | .sleep loop t => .sleep loop t

/-- A change of the state that commutes with loads and stores commutes with every line. -/
theorem Line.perform_map (l : Line) (loc : Locals) (s : State) (f : State → State)
    (hload : ∀ r, (f s).load r = ((s.load r).1, f (s.load r).2)) (hstore : ∀ r v, (f s).store r v = f (s.store r v)) :
    l.perform loc (f s) = (l.perform loc s).map f := by
  cases l <;> simp only [Line.perform, hload, hstore] <;> (try split) <;> rfl

/-- The accesses made before a run of lines stand in front of those it makes, and nothing else of it depends on them. -/
theorem runLines_prependBus (cmd : Instr) (lines : List Line) (loc : Locals) (s : State) (pre : List Access) :
    runLines cmd lines loc (s.prependBus pre) = (runLines cmd lines loc s).prependBus pre := by
  induction lines generalizing loc s with
  | nil => rfl
  | cons l rest ih =>
    have hl := l.perform_map loc s (·.prependBus pre) (s.load_prependBus pre) (s.store_prependBus pre)
    cases hp : l.perform loc s <;> simp only [runLines, hl, hp, After.map, ih]
    · rfl
    · exact State.note_prependBus (s.putSeq _) pre (.sleep _)

/-- Where the sequencer stood before a run of lines does not show after it. -/
theorem runLines_putSeq (cmd : Instr) (lines : List Line) (loc : Locals) (s : State) (q : Seq) :
    runLines cmd lines loc (s.putSeq q) = runLines cmd lines loc s := by
  induction lines generalizing loc s with
  | nil => rfl
  | cons l rest ih =>
    have hl := l.perform_map loc s (·.putSeq q) (s.load_putSeq q) (s.store_putSeq q)
    cases hp : l.perform loc s <;> simp only [runLines, hl, hp, After.map, ih] <;> rfl

/-! ## Waking -/

/-- Whatever locals a waiting command begins with, it ends in one state, or sleeps in one state but for the locals kept in the sequencer. -/
theorem runLines_waiter_locals {cmd : Instr} {c : Channel} {line : List Line} (h : waiterLines cmd c = some line)
    (loc loc' : Locals) (s : State) :
    runLines cmd line loc s = runLines cmd line loc' s ∨
    ∃ (u : State) (l l' : Locals) (t : Nat), runLines cmd line loc s = u.sleep cmd line l t ∧
      runLines cmd line loc' s = u.sleep cmd line l' t := by
  obtain ⟨-, loop, rest, rfl, hloop, -, hrest⟩ := waiterLines_form h
  obtain ⟨r, q, fill, run | ⟨time, run⟩⟩ := hloop.runLines cmd rest s
  · rw [run, run]
    exact .inl (hrest cmd _ _ _)
  · exact .inr ⟨_, _, _, time, run loc, run loc'⟩

/-- An unanswered state is what a new command begins from in it, but for the accesses already made and the sequencer. -/
theorem State.eq_begin_prependBus {s : State} (h : s.response = none) : s = ((s.putSeq .idle).begin.prependBus s.bus).putSeq s.seq := by
  apply State.ext <;> simp [h]

end Sys2Proof.Machine

open Sys2Proof Sys2Proof.Machine

/-- Settles O55: a step leaves the Core idle, or a waiting command asleep at the head of its loop. -/
theorem stepKeepsOnlyWaitersAsleep : Obligations.StepKeepsOnlyWaitersAsleep := by
  intro s t hs hstep
  obtain ⟨rfl, idle⟩ | ⟨more, i, hexec⟩ | ⟨cmd, line, loc, time, asleep, rfl⟩ | ⟨cmd, line, loc, running, -⟩ := step_next hstep
  · rw [State.waitsOnly, State.turn_seq, idle]
    trivial
  · exact exec_waitsOnly hexec
  · rw [State.waitsOnly, asleep] at hs
    obtain ⟨unanswered, c, waiter⟩ := hs
    exact runLines_waiter waiter loc (s.turn_response.trans unanswered)
  · rw [State.waitsOnly, running] at hs
    exact hs.elim

/-- Settles O8: both runs are of the same lines, from states that differ in the accesses made before and in the sequencer; the locals
they begin with differ, which shows in the locals of a command that sleeps again and nowhere else. -/
theorem wakingContinuesTheWait : Obligations.WakingContinuesTheWait := by
  intro s u cmd line loc t c asleep unanswered waiter hexec
  obtain ⟨hlines, -⟩ := waiterLines_form waiter
  obtain rfl : runLines cmd line {} (s.turn.putSeq .idle).begin = u := by
    rw [exec_idle rfl hlines] at hexec
    exact Host.Outcome.next.inj hexec
  refine ⟨runLines cmd line loc s.turn, step_sleeping asleep, ?_⟩
  have woken : runLines cmd line loc s.turn = (runLines cmd line loc (s.turn.putSeq .idle).begin).prependBus s.bus := by
    conv_lhs => rw [State.eq_begin_prependBus (s.turn_response.trans unanswered)]
    rw [runLines_putSeq, State.turn_bus, runLines_prependBus]
  rw [woken]
  obtain same | ⟨w, l, l', time, h, h'⟩ := runLines_waiter_locals waiter loc {} (s.turn.putSeq .idle).begin
  · rw [same]
    simp
  · rw [h, h']
    simp

end

section
/-! PROOFS. Loads, stores and read-modify-writes, field by field (R43 to R46). -/

namespace Sys2Proof.Machine

/-! ## Loads -/

/-- In the `RES` positions a load shows its own draw (R43; log 5). -/
theorem State.load_value_res (s : State) (r : Reg) : (s.load r).1.value &&& r.res = Config.reservedBits s.draws &&& r.res := by
  have fields : (s.turn.stored r &&& r.defined) &&& r.res = 0 := by
    rw [BitVec.and_assoc, BitVec.and_comm r.defined, r.res_and_defined]
    exact BitVec.and_zero
  simp only [State.load, State.view, Loaded.value, State.turn_draws]
  rw [BitVec.and_or_distrib_right, fields, BitVec.and_assoc, BitVec.and_self]
  exact BitVec.zero_or

/-! ## Stores, by the access kind of a bit -/

/-- A bit that one mask has, a disjoint mask lacks. -/
theorem getLsbD_of_apart {a b : Word} (h : a &&& b = 0) {k : Nat} (ha : a.getLsbD k = true) : b.getLsbD k = false :=
  Bool.eq_false_iff.2 fun hb => getLsbD_apart h ha hb

/-- A store leaves an `RO` bit of its register as the Peripheral's turn left it (R44). -/
theorem State.store_flag_ro (s : State) (r : Reg) (v : Word) (k : Nat) (hk : (r.mask .ro).getLsbD k = true) :
    (s.store r v).flag r k = s.turn.flag r k := by
  obtain ⟨rwRo, -, roW1c⟩ := r.kinds_apart
  have notRw := getLsbD_of_apart (BitVec.and_comm _ _ |>.trans rwRo) hk
  have notW1c := getLsbD_of_apart roW1c hk
  simp [State.flag, Reg.afterWrite_getLsbD, hk, notRw, notW1c]

/-- A store clears a `W1C` bit of its register exactly where its word has a 1 (R44). -/
theorem State.store_flag_w1c (s : State) (r : Reg) (v : Word) (k : Nat) (hk : (r.mask .w1c).getLsbD k = true) :
    (s.store r v).flag r k = (s.turn.flag r k && !v.getLsbD k) := by
  obtain ⟨-, rwW1c, roW1c⟩ := r.kinds_apart
  have notRw := getLsbD_of_apart (BitVec.and_comm _ _ |>.trans rwW1c) hk
  have notRo := getLsbD_of_apart (BitVec.and_comm _ _ |>.trans roW1c) hk
  simp [State.flag, Reg.afterWrite_getLsbD, hk, notRw, notRo]

/-- The bits of the stored word in `RES` positions have no effect (log 5). -/
theorem State.store_or_res (s : State) (r : Reg) (v x : Word) : s.store r (v ||| (x &&& r.res)) = s.store r v := by
  rw [State.store, Reg.afterWrite_or_res, State.store]

/-! ## Read-modify-writes (R45, R46) -/

/-- A read-modify-write gives an `RW` bit its new value, or clears it where the mask has a 1, or keeps it. -/
theorem State.rmwBit_flag_rw (s : State) (r : Reg) (i : Nat) (b : Bool) (m : Word) (k : Nat) (hi : i < 32)
    (hk : (r.mask .rw).getLsbD k = true) :
    (s.rmwBit r i b m).flag r k = if k = i then b else (s.flag r k && !m.getLsbD k) := by
  rw [State.rmwBit, State.store_flag_rw _ _ _ _ _ hk, if_pos rfl, setBit_getLsbD _ _ _ _ _ hi, s.load_fields_rw r k hk]

/-- A read-modify-write leaves a masked `W1C` bit that it does not set itself as the Peripheral's two turns leave it. -/
theorem State.rmwBit_flag_w1c_masked (s : State) (r : Reg) (i : Nat) (b : Bool) (m : Word) (k : Nat)
    (hm : r.mask .w1c &&& (~~~m ||| bit i) = 0) (hk : (r.mask .w1c).getLsbD k = true) :
    (s.rmwBit r i b m).flag r k = (s.turns 2).flag r k := by
  rw [State.rmwBit, State.store_flag_w1c _ _ _ _ hk, setBit_getLsbD_masked hm hk, State.load_turn_flag, Bool.not_false, Bool.and_true]
  rfl

/-- A read-modify-write leaves every byte outside its register as the Peripheral's two turns leave it. -/
theorem State.rmwBit_readByte (s : State) (r : Reg) (i : Nat) (b : Bool) (m : Word) (a : Nat)
    (h : a < r.offset ∨ r.offset + 4 ≤ a) : (s.rmwBit r i b m).mem.readByte a = (s.turns 2).mem.readByte a := by
  rw [State.rmwBit, State.store_readByte _ _ _ _ h, State.load_turn_mem]
  rfl

/-- An arm bit is an `RW` bit outside the mask `CCR_W1C` (R30). -/
theorem armBit_spec (c : Channel) (i : Nat) (h : i = ccrRiseArm ∨ i = ccrFallArm) :
    i < 32 ∧ ((Reg.ccr c).mask .rw).getLsbD i = true ∧ ccrW1c.getLsbD i = false ∧
      (Reg.ccr c).mask .w1c &&& (~~~ccrW1c ||| bit i) = 0 := by
  rw [Reg.rw_ccr, Reg.w1c_ccr]
  obtain rfl | rfl := h <;> decide

/-- The lock flags are `W1C` bits (R30). -/
theorem lockFlag_w1c (c : Channel) (k : Nat) (h : k = ccrRlf ∨ k = ccrFlf) : ((Reg.ccr c).mask .w1c).getLsbD k = true := by
  rw [Reg.w1c_ccr]
  obtain rfl | rfl := h <;> decide

end Sys2Proof.Machine

open Sys2Proof Sys2Proof.Machine

/-- Settles O10. -/
theorem loadReadsFieldsAndChangesNothing : Obligations.LoadReadsFieldsAndChangesNothing :=
  fun s r => ⟨s.load_value_defined r, s.load_value_res r, fun a => by rw [s.load_mem r], s.load_bus r, s.load_seq r⟩

/-- Settles O11: the three access kinds are disjoint, so at each bit one of the three parts of the stored word is left. -/
theorem storeFollowsTheAccessKinds : Obligations.StoreFollowsTheAccessKinds := by
  intro s r v
  refine ⟨fun k => ⟨fun hk => ?_, s.store_flag_ro r v k, s.store_flag_w1c r v k⟩, s.store_or_res r v, s.store_readByte r v⟩
  rw [s.store_flag_rw r r v k hk, if_pos rfl]

/-- Settles O12: the arm bits lie outside the mask, and at the masked flags the word written back is 0, which clears nothing. -/
theorem maskedRmwKeepsTheLockFlags : Obligations.MaskedRmwKeepsTheLockFlags := by
  intro s c b i arm
  obtain ⟨hi, -, -, masked⟩ := armBit_spec c i arm
  refine ⟨fun k hk => ?_, fun k hk => ?_, s.rmwBit_readByte (.ccr c) i b ccrW1c⟩
  · obtain ⟨-, rw_k, unmasked, -⟩ := armBit_spec c k hk
    rw [s.rmwBit_flag_rw _ i b ccrW1c k hi rw_k, unmasked, Bool.not_false, Bool.and_true]
  · exact s.rmwBit_flag_w1c_masked _ i b ccrW1c k masked (lockFlag_w1c c k hk)

end

section
/-! PROOFS. The Peripheral's events, field by field (R56 to R59). -/

namespace Sys2Proof.Machine

/-- A flag raised is 1, and every other bit is as before. -/
theorem State.raiseFlag_flag (s : State) (r q : Reg) (i k : Nat) (hi : i < 32) :
    (s.raiseFlag r i).flag q k = (decide (q = r ∧ k = i) || s.flag q k) := by
  unfold State.flag
  rw [State.raiseFlag_stored]
  split
  · next h => rw [h, BitVec.getLsbD_or, bit_getLsbD i k hi, Bool.or_comm]; simp
  · next h => simp [h]

/-- What an enabled latch does: the count into its register, then the lock flag and the pending bit (R57, R58). -/
def State.latch (s : State) (count : Reg) (c : Channel) (n : Half) (lock pending : Nat) : State :=
  ((s.setStored count (n.setWidth 32)).raiseFlag (.ccr c) lock).raiseFlag .cisr pending

theorem Event.riseLatch_apply (c : Channel) (n : Half) (s : State) :
    (Event.riseLatch c n).apply s = if s.riseArmed c then s.latch (.crlr c) c n ccrRlf (cisrRise c) else s := rfl

theorem Event.fallLatch_apply (c : Channel) (n : Half) (s : State) :
    (Event.fallLatch c n).apply s = if s.fallArmed c then s.latch (.cflr c) c n ccrFlf (cisrFall c) else s := rfl

section
variable (s : State) {count : Reg} (c : Channel) (n : Half) {lock pending : Nat}

/-- The latched count reads back from its register. -/
theorem State.latch_count (hccr : count ≠ .ccr c) (hcisr : count ≠ .cisr) :
    ((s.latch count c n lock pending).stored count).extractLsb' lockCnt 16 = n := by
  rw [State.latch, State.raiseFlag_stored, if_neg hcisr, State.raiseFlag_stored, if_neg hccr, State.setStored_stored_same]
  exact (BitVec.extractLsb'_setWidth_of_le (by decide)).trans BitVec.extractLsb'_eq_self

theorem State.latch_ccr (hccr : count ≠ .ccr c) (hlock : lock < 32) (hpending : pending < 32) (k : Nat) :
    (s.latch count c n lock pending).flag (.ccr c) k = (decide (k = lock) || s.flag (.ccr c) k) := by
  simp [State.latch, State.raiseFlag_flag, State.setStored_flag, hlock, hpending, hccr.symm]

theorem State.latch_cisr (hcisr : count ≠ .cisr) (hlock : lock < 32) (hpending : pending < 32) (k : Nat) :
    (s.latch count c n lock pending).flag .cisr k = (decide (k = pending) || s.flag .cisr k) := by
  simp [State.latch, State.raiseFlag_flag, State.setStored_flag, hlock, hpending, hcisr.symm]

end

theorem pisrSt_lt (c : Channel) : pisrSt c < 32 := by unfold pisrSt; omega
theorem cisrRise_lt (c : Channel) : cisrRise c < 32 := by unfold cisrRise; omega
theorem cisrFall_lt (c : Channel) : cisrFall c < 32 := by unfold cisrFall; omega

end Sys2Proof.Machine

open Sys2Proof Sys2Proof.Machine

/-- Settles O15. -/
theorem counterAndStatusEventsSetTheirFields : Obligations.CounterAndStatusEventsSetTheirFields := by
  intro s c n p
  refine ⟨⟨?_, State.setStored_stored_same _ _ _, fun r h1 h2 => ?_⟩, fun k => ?_, fun r h => ?_⟩
  · rw [Event.apply, State.setStored_stored_ne _ _ _ _ (by simp), State.setStored_stored_same]
  · exact (Event.counter c n p).apply_stored_other s r (by simp [Event.touches, h1, h2])
  · simp [Event.apply, State.raiseFlag_flag, pisrSt_lt]
  · exact (Event.pwmStatus c).apply_stored_other s r (by simp [Event.touches, h])

/-- Settles O16: armed, the event is a latch; not armed, it does not happen. -/
theorem risingLatchSetsCountAndFlags : Obligations.RisingLatchSetsCountAndFlags := by
  intro s c n
  refine ⟨fun enabled arm => ?_, fun off => ?_⟩
  · refine ⟨?_, ?_, ?_, (Event.riseLatch c n).apply_stored_other s⟩
    all_goals rw [Event.riseLatch_apply, if_pos (by simp [State.riseArmed, enabled, arm])]
    · exact s.latch_count c n (by simp) (by simp)
    · exact s.latch_ccr c n (by simp) (by decide) (cisrRise_lt c)
    · exact s.latch_cisr c n (by simp) (by decide) (cisrRise_lt c)
  · rw [Event.riseLatch_apply, if_neg (by obtain off | off := off <;> simp [State.riseArmed, off])]

/-- Settles O17: as O16, with the falling edge's register and flags. -/
theorem fallingLatchSetsCountAndFlags : Obligations.FallingLatchSetsCountAndFlags := by
  intro s c n
  refine ⟨fun enabled arm => ?_, fun off => ?_⟩
  · refine ⟨?_, ?_, ?_, (Event.fallLatch c n).apply_stored_other s⟩
    all_goals rw [Event.fallLatch_apply, if_pos (by simp [State.fallArmed, enabled, arm])]
    · exact s.latch_count c n (by simp) (by simp)
    · exact s.latch_ccr c n (by simp) (by decide) (cisrFall_lt c)
    · exact s.latch_cisr c n (by simp) (by decide) (cisrFall_lt c)
  · rw [Event.fallLatch_apply, if_neg (by obtain off | off := off <;> simp [State.fallArmed, off])]

end

section
/-! PROOFS. A run of lines is its Core steps in a row (R52; log 7). -/

namespace Sys2Proof.Machine

/-- A run of lines leaves no command in `Run`. -/
theorem runLines_not_run (cmd : Instr) (lines : List Line) (loc : Locals) (s : State) (cmd' : Instr) (lines' : List Line)
    (loc' : Locals) : (runLines cmd lines loc s).seq ≠ .run cmd' lines' loc' := by
  induction lines generalizing loc s with
  | nil => simp
  | cons l rest ih =>
    rw [runLines]
    split
    · exact ih _ _
    · simp
    · simp

/-- A running command reaches what its lines run to by Core steps, at most one for each line and one for the `return ()` at the end. -/
theorem exists_coreSteps_eq_runLines {cmd : Instr} {lines : List Line} {loc : Locals} {s : State} (h : s.seq = .run cmd lines loc) :
    ∃ n, n ≤ lines.length + 1 ∧ coreSteps n s = runLines cmd lines loc s := by
  induction lines generalizing loc s with
  | nil => exact ⟨1, by simp, coreStep_run_nil h⟩
  | cons l rest ih =>
    cases hl : l.perform loc s with
    | go loc' s' =>
      obtain ⟨n, hn, e⟩ := ih (State.putSeq_seq s' (.run cmd rest loc'))
      refine ⟨n + 1, by simpa using hn, ?_⟩
      rw [coreSteps, coreStep_run_go h hl, e, runLines_putSeq]
      simp only [runLines, hl]
    | done code values s' =>
      refine ⟨1, by simp, (coreStep_run_done h hl).trans ?_⟩
      simp only [runLines, hl]
    | sleep loop t =>
      refine ⟨1, by simp, (coreStep_run_sleep h hl).trans ?_⟩
      simp only [runLines, hl]

end Sys2Proof.Machine

open Sys2Proof Sys2Proof.Machine

/-- Settles O58. -/
theorem stepIsTheCoreStepsInARow : Obligations.StepIsTheCoreStepsInARow := by
  intro s cmd line loc h
  obtain ⟨n, hn, e⟩ := exists_coreSteps_eq_runLines h
  exact ⟨n, hn, by rw [step_run h, e], by rw [e]; exact runLines_not_run cmd line loc s⟩

end

section
/-! PROOFS. The encoder and the decoder (R62 to R68): decoding an encoded command gives it back, and the decoder of each listed opcode
reads the operands of the opcode's signature, one slot after the other. -/

namespace Sys2Proof

/-! ## Decoding what the encoder writes -/

theorem decodeChDst_slots (op : Byte) (mk : Word → Bool → Instr) (ch : Word) (dst : Bool) :
    decodeChDst op mk [ch, bitSlot dst] = .ok (mk ch dst) := by cases dst <;> rfl

theorem decodeChBit_slots (op : Byte) (name : String) (mk : Word → Bool → Instr) (ch : Word) (b : Bool) :
    decodeChBit op name mk [ch, bitSlot b] = .ok (mk ch b) := by cases b <;> rfl

theorem decodeChEdges_slots (op : Byte) (mk : Word → Bool → Bool → Instr) (ch : Word) (rising falling : Bool) :
    decodeChEdges op mk [ch, bitSlot rising, bitSlot falling] = .ok (mk ch rising falling) := by
  cases rising <;> cases falling <;> rfl

/-- The decoder reads back what the encoder writes: the opcodes are all different, and so each command comes to its own reader, which reads every slot as the
operand it was made from. -/
theorem decode_encode (i : Instr) : decode (encode i) = .ok i := by
  cases i with
  | readClockConfig | readPrescaler | isEnabled | getPeriod | readCaptureInterruptStatus | readRiseLockCount | readFallLockCount
  | readRiseLockFlag | readFallLockFlag | readPwmConfig | captureBlocking | maxCaptureDurationNs | outputFrequencyHz =>
    exact decodeChDst_slots _ _ _ _
  | setClockGate | setClockBypass | setEnabled | setPolarity => exact decodeChBit_slots _ _ _ _ _
  | setCaptureEnable | setCaptureInterruptEnable | clearCaptureInterrupt => exact decodeChEdges_slots _ _ _ _ _
  | store32 | configureClock | setDutyPercent => rfl
  | load32 | readModifyWriteBit | setPrescaler | setPeriod | applyPwmConfig | applyCaptureConfig | effectiveClockPeriodNs
  | rawToNanoseconds => simp [encode, decode, bind, Except.bind]

/-! ## One operand (R64) -/

/-- The reader takes one slot of the type: it turns a slot inside the type into the value whose slot it is, and refuses by name a slot outside it, or none. -/
structure ReadsSlot {α : Type} (op : Byte) (t : OperandType) (slot : α → Word)
    (take : List Word → Except DecodeError (α × List Word)) : Prop where
  fits : ∀ v rest, t.admits v = true → ∃ a, v = slot a ∧ take (v :: rest) = .ok (a, rest)
  unfit : ∀ v rest, t.admits v = false → ∃ name, take (v :: rest) = .error (.badOperand op name)
  missing : ∃ name, take [] = .error (.badOperand op name)

theorem takeWord_reads (op : Byte) (name : String) {t : OperandType} (ht : t.width = 32) : ReadsSlot op t id (takeWord op name) where
  fits v _ _ := ⟨v, rfl, rfl⟩
  unfit v _ h := absurd ((admits_of_width_32 t v ht).symm.trans h) (by decide)
  missing := ⟨name, rfl⟩

theorem takeHalf_reads (op : Byte) (name : String) : ReadsSlot op .cyc16 halfSlot (takeHalf op name) where
  fits v rest h := by
    have hok : takeHalf op name (v :: rest) = .ok (v.setWidth 16, rest) := if_pos (of_decide_eq_true h)
    exact ⟨_, (List.cons.inj ((takeHalf_ok _ _ _ _ _).1 hok)).1, hok⟩
  unfit v _ h := ⟨name, if_neg (of_decide_eq_false h)⟩
  missing := ⟨name, rfl⟩

theorem takeByte_reads (op : Byte) (name : String) : ReadsSlot op .presc byteSlot (takeByte op name) where
  fits v rest h := by
    have hok : takeByte op name (v :: rest) = .ok (v.setWidth 8, rest) := if_pos (of_decide_eq_true h)
    exact ⟨_, (List.cons.inj ((takeByte_ok _ _ _ _ _).1 hok)).1, hok⟩
  unfit v _ h := ⟨name, if_neg (of_decide_eq_false h)⟩
  missing := ⟨name, rfl⟩

theorem takeBit_reads (op : Byte) (name : String) {t : OperandType} (ht : t.width = 1) : ReadsSlot op t bitSlot (takeBit op name) where
  fits v rest h := by
    rw [OperandType.admits, ht, decide_eq_true_eq] at h
    have hok : takeBit op name (v :: rest) = .ok (v.toNat == 1, rest) := if_pos h
    exact ⟨_, (List.cons.inj ((takeBit_ok _ _ _ _ _).1 hok)).1, hok⟩
  unfit v _ h := by
    rw [OperandType.admits, ht, decide_eq_false_iff_not] at h
    exact ⟨name, if_neg h⟩
  missing := ⟨name, rfl⟩

/-! ## The operands of a command (R65, R68) -/

/-- After the slots `pre` of a record with opcode `op`, the decoder reads operands of the types `ts` and no more: what fits completes the
record of the command that it answers, and what does not fit is refused by name. -/
structure ReadsOperands (op : Byte) (pre : List Word) (ts : List OperandType) (read : List Word → Except DecodeError Instr) : Prop where
  fits : ∀ vs, operandsFit ts vs = true → ∃ i, read vs = .ok i ∧ encode i = ⟨op, pre ++ vs⟩
  unfit : ∀ vs, operandsFit ts vs = false → ∃ name, read vs = .error (.badOperand op name)

theorem ReadsOperands.done {op : Byte} {pre : List Word} {i : Instr} (h : encode i = ⟨op, pre⟩) :
    ReadsOperands op pre [] (endOfRecord op i) where
  fits
    | [], _ => ⟨i, rfl, h.trans (by rw [List.append_nil])⟩
    | _ :: _, hvs => nomatch hvs
  unfit
    | [], hvs => nomatch hvs
    | _ :: _, _ => ⟨"surplus", rfl⟩

/-- One operand, and then the others. -/
theorem ReadsOperands.slot {α : Type} {op : Byte} {t : OperandType} {slot : α → Word} {take : List Word → Except DecodeError (α × List Word)}
    (hslot : ReadsSlot op t slot take) {pre : List Word} {ts : List OperandType} {next : α × List Word → Except DecodeError Instr}
    (hnext : ∀ a, ReadsOperands op (pre ++ [slot a]) ts fun vs => next (a, vs)) :
    ReadsOperands op pre (t :: ts) fun vs => take vs >>= next where
  fits
    | [], hvs => nomatch hvs
    | v :: vs, hvs => by
      rw [operandsFit, Bool.and_eq_true] at hvs
      obtain ⟨a, rfl, htake⟩ := hslot.fits v vs hvs.1
      obtain ⟨i, hread, hi⟩ := (hnext a).fits vs hvs.2
      refine ⟨i, ?_, by rw [hi, List.append_assoc]; rfl⟩
      rw [htake]
      exact hread
  unfit
    | [], _ => by
      obtain ⟨name, htake⟩ := hslot.missing
      exact ⟨name, by rw [htake]; rfl⟩
    | v :: vs, hvs => by
      cases hv : t.admits v with
      | false =>
        obtain ⟨name, htake⟩ := hslot.unfit v vs hv
        exact ⟨name, by rw [htake]; rfl⟩
      | true =>
        rw [operandsFit, hv, Bool.true_and] at hvs
        obtain ⟨a, rfl, htake⟩ := hslot.fits v vs hv
        obtain ⟨name, hread⟩ := (hnext a).unfit vs hvs
        exact ⟨name, by rw [htake]; exact hread⟩

section
variable {op : Byte} {pre : List Word} {ts : List OperandType} {t : OperandType} {name : String}

theorem ReadsOperands.word {next : Word × List Word → Except DecodeError Instr} (ht : t.width = 32)
    (h : ∀ v, ReadsOperands op (pre ++ [v]) ts fun vs => next (v, vs)) :
    ReadsOperands op pre (t :: ts) fun vs => takeWord op name vs >>= next := .slot (takeWord_reads op name ht) h

theorem ReadsOperands.half {next : Half × List Word → Except DecodeError Instr}
    (h : ∀ v, ReadsOperands op (pre ++ [halfSlot v]) ts fun vs => next (v, vs)) :
    ReadsOperands op pre (.cyc16 :: ts) fun vs => takeHalf op name vs >>= next := .slot (takeHalf_reads op name) h

theorem ReadsOperands.byte {next : Byte × List Word → Except DecodeError Instr}
    (h : ∀ v, ReadsOperands op (pre ++ [byteSlot v]) ts fun vs => next (v, vs)) :
    ReadsOperands op pre (.presc :: ts) fun vs => takeByte op name vs >>= next := .slot (takeByte_reads op name) h

theorem ReadsOperands.bit {next : Bool × List Word → Except DecodeError Instr} (ht : t.width = 1)
    (h : ∀ b, ReadsOperands op (pre ++ [bitSlot b]) ts fun vs => next (b, vs)) :
    ReadsOperands op pre (t :: ts) fun vs => takeBit op name vs >>= next := .slot (takeBit_reads op name ht) h

end

theorem ReadsOperands.chDst {op : Byte} {mk : Word → Bool → Instr} (h : ∀ ch dst, encode (mk ch dst) = ⟨op, [ch, bitSlot dst]⟩) :
    ReadsOperands op [] [.ch, .dst] (decodeChDst op mk) :=
  .word rfl fun ch => .bit rfl fun dst => .done (h ch dst)

theorem ReadsOperands.chBit {op : Byte} {name : String} {mk : Word → Bool → Instr} {t : OperandType} (ht : t.width = 1)
    (h : ∀ ch b, encode (mk ch b) = ⟨op, [ch, bitSlot b]⟩) : ReadsOperands op [] [.ch, t] (decodeChBit op name mk) :=
  .word rfl fun ch => .bit ht fun b => .done (h ch b)

theorem ReadsOperands.chEdges {op : Byte} {mk : Word → Bool → Bool → Instr}
    (h : ∀ ch rising falling, encode (mk ch rising falling) = ⟨op, [ch, bitSlot rising, bitSlot falling]⟩) :
    ReadsOperands op [] [.ch, .bool, .bool] (decodeChEdges op mk) :=
  .word rfl fun ch => .bit rfl fun rising => .bit rfl fun falling => .done (h ch rising falling)

theorem byte_eq_ofNat {op : Byte} {n : Nat} (h : op.toNat = n) : op = BitVec.ofNat 8 n := by
  rw [← h, BitVec.ofNat_toNat, BitVec.setWidth_eq]

/-- The decoder of a listed opcode reads the operands of its signature (R63, R65): first the opcodes with a shared operand list, then the others. -/
theorem decode_reads {op : Byte} {ts : List OperandType} (h : Record.signature op = some ts) :
    ReadsOperands op [] ts fun vs => decode ⟨op, vs⟩ := by
  unfold Record.signature at h
  split at h
  case h_32 => cases h
  all_goals
    rename_i hop
    obtain rfl := byte_eq_ofNat hop
    cases h
    dsimp -iota only [decode]
  case h_7 | h_9 | h_10 | h_13 | h_18 | h_19 | h_20 | h_21 | h_22 | h_24 | h_27 | h_30 | h_31 => exact .chDst fun _ _ => rfl
  case h_4 | h_5 | h_11 | h_14 => exact .chBit rfl fun _ _ => rfl
  case h_15 | h_16 | h_17 => exact .chEdges fun _ _ _ => rfl
  case h_1 => exact .word rfl fun off => .bit rfl fun dst => .done rfl
  case h_2 => exact .word rfl fun off => .word rfl fun value => .done rfl
  case h_3 => exact .word rfl fun off => .word rfl fun bit => .bit rfl fun value => .done rfl
  case h_6 => exact .word rfl fun ch => .word rfl fun source => .word rfl fun divider => .done rfl
  case h_8 => exact .word rfl fun ch => .byte fun prescaler => .done rfl
  case h_12 => exact .word rfl fun ch => .half fun entire => .half fun active => .done rfl
  case h_23 =>
    exact .word rfl fun ch => .word rfl fun source => .word rfl fun divider => .byte fun prescaler =>
      .half fun entire => .half fun active => .bit rfl fun polarity => .bit rfl fun enabled => .done rfl
  case h_25 => exact .word rfl fun ch => .word rfl fun percent => .done rfl
  case h_26 =>
    exact .word rfl fun ch => .word rfl fun source => .word rfl fun divider => .byte fun prescaler =>
      .bit rfl fun rising => .bit rfl fun falling => .done rfl
  case h_28 => exact .word rfl fun source => .word rfl fun divider => .byte fun prescaler => .bit rfl fun dst => .done rfl
  case h_29 => exact .word rfl fun ch => .half fun onCycles => .half fun offCycles => .bit rfl fun dst => .done rfl

theorem decode_unlisted {r : Record} (h : Record.signature r.opcode = none) : decode r = .error (.unknownOpcode r.opcode) := by
  simp only [decode]
  split
  case h_32 => rfl
  all_goals
    rename_i hop
    rw [byte_eq_ofNat hop] at h
    cases h

theorem signature_eq_none {op : Byte}
    (h : op.toNat ∉ [0x01, 0x02, 0x03, 0x10, 0x11, 0x12, 0x13, 0x14, 0x15, 0x20, 0x21, 0x22, 0x23, 0x24,
      0x30, 0x31, 0x32, 0x33, 0x34, 0x35, 0x36, 0x37, 0x40, 0x41, 0x42, 0x43, 0x44, 0x45, 0x46, 0x47, 0x48]) :
    Record.signature op = none := by
  unfold Record.signature
  split
  case h_32 => rfl
  all_goals
    rename_i hop
    rw [hop] at h
    exact absurd h (by decide)

/-! ## Records (R62, R67, R68) -/

theorem decode_wellFormed {r : Record} (h : r.wellFormed = true) : ∃ i, decode r = .ok i ∧ encode i = r := by
  unfold Record.wellFormed at h
  split at h
  · next ts hts => exact (decode_reads hts).fits _ h
  · cases h

theorem decode_unfit {r : Record} (hlisted : (Record.signature r.opcode).isSome = true) (h : r.wellFormed = false) :
    ∃ name, decode r = .error (.badOperand r.opcode name) := by
  obtain ⟨ts, hts⟩ := Option.isSome_iff_exists.1 hlisted
  rw [Record.wellFormed, hts] at h
  exact (decode_reads hts).unfit _ h

/-- What decodes spells a command. -/
theorem wellFormed_of_decode {r : Record} {i : Instr} (h : decode r = .ok i) : r.wellFormed = true := by
  by_contra hbad
  rw [Bool.not_eq_true] at hbad
  cases hs : Record.signature r.opcode with
  | none =>
    rw [decode_unlisted hs] at h
    cases h
  | some ts =>
    obtain ⟨name, he⟩ := decode_unfit (by rw [hs]; rfl) hbad
    rw [he] at h
    cases h

theorem encode_of_decode {r : Record} {i : Instr} (h : decode r = .ok i) : encode i = r := by
  obtain ⟨j, hj, he⟩ := decode_wellFormed (wellFormed_of_decode h)
  rw [h, Except.ok.injEq] at hj
  rwa [hj]

end Sys2Proof

namespace Sys2Proof.Machine

/-- An idle Core refuses a record that does not decode (R120). -/
theorem step_refused {s : State} {r : Record} {more : List Record} {e : DecodeError} (hs : s.seq = .idle)
    (hi : s.inbox = r :: more) (hd : decode r = .error e) : step s = .refused (refusalOf e) := by
  simp only [step, State.upNext, hs, hi, hd]

end Sys2Proof.Machine

open Sys2Proof Sys2Proof.Machine

/-- Settles O2. -/
theorem decodeOfEncodeIsTheCommand : Obligations.DecodeOfEncodeIsTheCommand := decode_encode

/-- Settles O3: a record that decodes fits its signature, and then the reader's slots are those of the encoding. -/
theorem decodedRecordIsTheEncoding : Obligations.DecodedRecordIsTheEncoding := fun _ _ => encode_of_decode

/-- Settles O4. -/
theorem decodeAcceptsExactlyWellFormed : Obligations.DecodeAcceptsExactlyWellFormed := by
  intro r
  constructor
  · rintro ⟨i, h⟩
    exact wellFormed_of_decode h
  · intro h
    obtain ⟨i, hi, -⟩ := decode_wellFormed h
    exact ⟨i, hi⟩

/-- Settles O5. -/
theorem unlistedOpcodeIsRefused : Obligations.UnlistedOpcodeIsRefused := by
  intro r h
  have hd := decode_unlisted (signature_eq_none h)
  exact ⟨hd, fun s more hs hi => step_refused hs hi hd⟩

/-- Settles O6. -/
theorem unfitOperandsAreRefused : Obligations.UnfitOperandsAreRefused := by
  intro r hlisted h
  obtain ⟨name, hd⟩ := decode_unfit hlisted h
  exact ⟨name, hd, fun s more hs hi => step_refused hs hi hd⟩

/-- Settles O1. -/
theorem sampleRecordsDecode : Obligations.SampleRecordsDecode := ⟨rfl, rfl, rfl, rfl, rfl, rfl, rfl, rfl⟩

end

section
/-! PROOFS. What a command answers (R62, R65, R71, R106, R109): the errors and the results that its lines can end in. -/

namespace Sys2Proof.Machine

/-! ## Where lines can end -/

/-- The types of the values that a `return (v...)` line sends (R65). -/
def Result.types : Result → List ValueType
  | .word => [.word]
  | .clock => [.src, .div]
  | .prescaler => [.presc]
  | .enabled | .riseFlag | .fallFlag => [.bool]
  | .period | .counts => [.cyc16, .cyc16]
  | .pending => [.bool, .bool]
  | .riseCount | .fallCount => [.cyc16]
  | .pwmConfig => [.src, .div, .presc, .cyc16, .cyc16, .bool]
  | .number _ | .maxDuration | .frequency => [.u64]
  | .nanoseconds _ _ => [.u64, .u64]

theorem Result.values_type (x : Result) (loc : Locals) : (x.values loc).map Value.type = x.types := by
  cases x <;> rfl

/-- The lines end in one of the errors `errs`, or in `OK` with values of the types `types` (R62, R106). -/
def EndsIn (errs : List Code) (types : List ValueType) : List Line → Prop
  | [] => types = []
  | .raise e :: _ => e ∈ errs
  | .ret x :: _ => x.types = types
  | .raiseIfBadDivider :: rest => .invalidArgument ∈ errs ∧ EndsIn errs types rest
  | .raiseIfEnabled :: rest => .busy ∈ errs ∧ EndsIn errs types rest
  | .read _ :: rest | .write _ _ :: rest | .writeBit _ _ _ _ :: rest | .writePrescaler _ _ :: rest | .writeDuty _ _ :: rest
  | .waitDisable _ :: rest | .waitCapture _ :: rest => EndsIn errs types rest

/-- The answer is an error of `errs` without values, or `OK` with values of the types `types`. -/
def Response.Fits (errs : List Code) (types : List ValueType) (a : Response) : Prop :=
  (a.code = .ok ∧ a.values.map Value.type = types) ∨ (a.code ∈ errs ∧ a.values = [])

/-- A state in which a command with these errors and results may stand: not answered, or answered by the tables. -/
def State.AnswerFits (errs : List Code) (types : List ValueType) (s : State) : Prop :=
  ∀ a, s.response = some a → a.Fits errs types

section
variable {errs : List Code} {types : List ValueType}

theorem State.answerFits_of_none {s : State} (h : s.response = none) : s.AnswerFits errs types :=
  fun a ha => by rw [h] at ha; cases ha

theorem State.answerFits_ok {s : State} {values : List Value} (h : values.map Value.type = types) :
    (s.finish .ok values).AnswerFits errs types := by
  rintro a ⟨⟩
  exact .inl ⟨rfl, h⟩

theorem State.answerFits_error {s : State} {e : Code} (h : e ∈ errs) : (s.finish e []).AnswerFits errs types := by
  rintro a ⟨⟩
  exact .inr ⟨h, rfl⟩

/-- An unanswered command stays so until its lines end, and then they answer what they can end in. -/
theorem EndsIn.runLines {lines : List Line} (h : EndsIn errs types lines) (cmd : Instr) (loc : Locals) {s : State}
    (hs : s.response = none) : (runLines cmd lines loc s).AnswerFits errs types := by
  induction lines generalizing loc s with
  | nil => exact State.answerFits_ok h.symm
  | cons l rest ih =>
    cases l with
    | raise e => exact State.answerFits_error h
    | ret x => exact State.answerFits_ok ((x.values_type loc).trans h)
    | raiseIfBadDivider =>
      rw [runLines_raiseIfBadDivider]
      split
      · exact State.answerFits_error h.1
      · exact ih h.2 loc hs
    | raiseIfEnabled =>
      rw [runLines_raiseIfEnabled]
      split
      · exact State.answerFits_error h.1
      · exact ih h.2 loc hs
    | waitDisable c =>
      rw [runLines_waitDisable]
      split
      · exact State.answerFits_of_none hs
      · exact ih h loc hs
    | waitCapture c =>
      rw [runLines_waitCapture]
      split
      · exact ih h loc hs
      · exact State.answerFits_of_none hs
    | read x => exact ih h _ ((s.load_response x.reg).trans hs)
    | write | writeBit | writePrescaler | writeDuty => exact ih h _ ((s.store_response _ _).trans hs)

/-- Lines that return nothing may stand before others, as in a composite (R8, R70). -/
theorem EndsIn.append {xs ys : List Line} (hx : EndsIn errs [] xs) (hy : EndsIn errs types ys) : EndsIn errs types (xs ++ ys) := by
  induction xs with
  | nil => exact hy
  | cons l rest ih =>
    cases l with
    | raise e => exact hx
    | ret x => cases x <;> cases hx
    | raiseIfBadDivider | raiseIfEnabled => exact ⟨hx.1, ih hx.2⟩
    | read | write | writeBit | writePrescaler | writeDuty | waitDisable | waitCapture => exact ih hx

/-! ## Where the groups of lines can end -/

theorem endsIn_configureClock (h : .invalidArgument ∈ errs) (c : Channel) (source divider : Word) :
    EndsIn errs [] (linesConfigureClock c source divider) := by
  unfold linesConfigureClock
  split
  · exact h
  · split
    · exact h
    · rfl

theorem endsIn_setPeriod (h : .invalidArgument ∈ errs) (c : Channel) (entire active : Half) :
    EndsIn errs [] (linesSetPeriod c entire active) := by
  unfold linesSetPeriod
  split
  · exact h
  · rfl

theorem endsIn_setDutyPercent (h : .invalidArgument ∈ errs) (c : Channel) (percent : Word) :
    EndsIn errs [] (linesSetDutyPercent c percent) := by
  unfold linesSetDutyPercent
  split
  · exact h
  · rfl

theorem endsIn_setEnabled (c : Channel) (enabled : Bool) : EndsIn errs [] (linesSetEnabled c enabled) := by
  cases enabled <;> rfl

theorem endsIn_clearCaptureInterrupt (c : Channel) (rising falling : Bool) :
    EndsIn errs [] (linesClearCaptureInterrupt c rising falling) := by
  cases rising <;> cases falling <;> rfl

theorem endsIn_applyPwmConfig (h : .invalidArgument ∈ errs) (c : Channel) (source divider : Word) (prescaler : Byte)
    (entire active : Half) (polarity enabled : Bool) :
    EndsIn errs [] (linesApplyPwmConfig c source divider prescaler entire active polarity enabled) := by
  have gate : ∀ pass, EndsIn errs [] (linesSetClockGate c pass) := fun _ => rfl
  have clock := endsIn_configureClock h c source divider
  have period := endsIn_setPeriod h c entire active
  have presc : EndsIn errs [] (linesSetPrescaler c prescaler) := rfl
  have pol : EndsIn errs [] (linesSetPolarity c polarity) := rfl
  cases enabled with
  | true => exact (((((gate _).append clock).append period).append presc).append pol).append (endsIn_setEnabled c true)
  | false => exact (((((endsIn_setEnabled c false).append pol).append presc).append period).append clock).append (gate _)

theorem endsIn_applyCaptureConfig (hbusy : .busy ∈ errs) (h : .invalidArgument ∈ errs) (c : Channel) (source divider : Word)
    (prescaler : Byte) (rising falling : Bool) :
    EndsIn errs [] (linesApplyCaptureConfig c source divider prescaler rising falling) := by
  have check : EndsIn errs [] (linesIsEnabled c ++ [.raiseIfEnabled]) := ⟨hbusy, rfl⟩
  have gate : EndsIn errs [] (linesSetClockGate c (rising && falling)) := rfl
  have presc : EndsIn errs [] (linesSetPrescaler c prescaler) := rfl
  have arms : EndsIn errs [] (linesSetCaptureEnable c rising falling) := rfl
  exact ((((check.append gate).append (endsIn_configureClock h c source divider)).append presc).append arms).append
    (endsIn_clearCaptureInterrupt c true true)

theorem endsIn_withChannel (h : .invalidChannel ∈ errs) {ch : Word} {lines : Channel → List Line}
    (hl : ∀ c, EndsIn errs types (lines c)) : EndsIn errs types (withChannel ch lines) := by
  cases hc : channel? ch with
  | none => rw [withChannel_none ch lines hc]; exact h
  | some c => rw [withChannel_some ch c lines hc]; exact hl c

theorem endsIn_withDst (h : .nullOutput ∈ errs) {dst : Bool} {lines : List Line} (hl : EndsIn errs types lines) :
    EndsIn errs types (withDst dst lines) := by
  cases dst
  · exact h
  · exact hl

end

/-! ## The tables (R65, R109) -/

theorem dstOperand_eq_none_iff (i : Instr) : i.dstOperand = none ↔ i.resultTypes = [] := by
  cases i <;> simp [Instr.dstOperand, Instr.resultTypes]

/-- The commands that can raise NullOutput are those with `dst` (R71). -/
theorem nullOutput_mem_mayRaise (i : Instr) : .nullOutput ∈ i.mayRaise ↔ i.dstOperand.isSome = true := by
  cases i <;> simp [Instr.mayRaise, Instr.dstOperand]

/-- The commands that can raise InvalidChannel are those with `ch` (R107). -/
theorem invalidChannel_mem_mayRaise (i : Instr) : .invalidChannel ∈ i.mayRaise ↔ i.chOperand.isSome = true := by
  cases i <;> simp [Instr.mayRaise, Instr.chOperand]

section
variable {i : Instr} {ch : Word} {lines : Channel → List Line}

theorem endsIn_channel (hi : i.chOperand.isSome = true) (hl : ∀ c, EndsIn i.mayRaise i.resultTypes (lines c)) :
    EndsIn i.mayRaise i.resultTypes (withChannel ch lines) :=
  endsIn_withChannel ((invalidChannel_mem_mayRaise i).2 hi) hl

/-- A command that reads a channel and returns values (R71, R107). -/
theorem endsIn_channel_dst {dst : Bool} (hi : i.chOperand.isSome = true) (hdst : i.dstOperand.isSome = true)
    (hl : ∀ c, EndsIn i.mayRaise i.resultTypes (lines c)) :
    EndsIn i.mayRaise i.resultTypes (withChannel ch fun c => withDst dst (lines c)) :=
  endsIn_channel hi fun c => endsIn_withDst ((nullOutput_mem_mayRaise i).2 hdst) (hl c)

end

/-- The lines of a command end by its tables. -/
theorem lines_endsIn {i : Instr} {lines : List Line} (h : i.lines = some lines) : EndsIn i.mayRaise i.resultTypes lines := by
  cases i with
  | load32 off dst =>
    obtain ⟨r, -, rfl⟩ := Option.map_eq_some_iff.1 h
    exact endsIn_withDst ((nullOutput_mem_mayRaise _).2 rfl) rfl
  | store32 off v =>
    obtain ⟨r, -, rfl⟩ := Option.map_eq_some_iff.1 h
    rfl
  | readModifyWriteBit off index b =>
    obtain ⟨r, -, rfl⟩ := Option.map_eq_some_iff.1 h
    unfold linesReadModifyWriteBit
    split <;> rfl
  | setClockGate | setClockBypass | setPrescaler | setPolarity | setCaptureEnable | setCaptureInterruptEnable =>
    cases h
    exact endsIn_channel rfl fun _ => rfl
  | setEnabled ch enabled => cases h; exact endsIn_channel rfl fun c => endsIn_setEnabled c enabled
  | clearCaptureInterrupt => cases h; exact endsIn_channel rfl fun c => endsIn_clearCaptureInterrupt c _ _
  | configureClock => cases h; exact endsIn_channel rfl fun c => endsIn_configureClock (by simp [Instr.mayRaise]) c _ _
  | setPeriod => cases h; exact endsIn_channel rfl fun c => endsIn_setPeriod (by simp [Instr.mayRaise]) c _ _
  | setDutyPercent => cases h; exact endsIn_channel rfl fun c => endsIn_setDutyPercent (by simp [Instr.mayRaise]) c _
  | applyPwmConfig =>
    cases h
    exact endsIn_channel rfl fun c => endsIn_applyPwmConfig (by simp [Instr.mayRaise]) c _ _ _ _ _ _ _
  | applyCaptureConfig =>
    cases h
    exact endsIn_channel rfl fun c => endsIn_applyCaptureConfig (by simp [Instr.mayRaise]) (by simp [Instr.mayRaise]) c _ _ _ _ _
  | readPrescaler | isEnabled | getPeriod | readCaptureInterruptStatus | readRiseLockCount | readFallLockCount
  | readRiseLockFlag | readFallLockFlag | captureBlocking =>
    cases h
    exact endsIn_channel_dst rfl rfl fun _ => rfl
  | readClockConfig | readPwmConfig | rawToNanoseconds | maxCaptureDurationNs | outputFrequencyHz =>
    cases h
    exact endsIn_channel_dst rfl rfl fun _ => ⟨by simp [Instr.mayRaise], rfl⟩
  | effectiveClockPeriodNs source divider prescaler dst =>
    cases h
    refine endsIn_withDst ((nullOutput_mem_mayRaise _).2 rfl) ?_
    unfold linesEffectiveClockPeriodNs
    split
    · simp [EndsIn, Instr.mayRaise]
    · rfl

/-- A command answers by its tables. -/
theorem exec_answerFits {i : Instr} {s t : State} (h : exec i s = .next t) : t.AnswerFits i.mayRaise i.resultTypes := by
  obtain ⟨-, lines, hl, rfl⟩ := exec_next h
  exact (lines_endsIn hl).runLines i {} rfl

/-! ## Which commands have lines, and which only the one that raises NullOutput -/

/-- Only a raw command at an offset that is not admitted has no lines (R47). -/
theorem exists_lines {i : Instr} (h : ∀ off, i.offOperand = some off → ∃ r : Reg, off.toNat = r.offset) :
    ∃ lines, i.lines = some lines := by
  cases i with
  | load32 off | store32 off | readModifyWriteBit off =>
    obtain ⟨r, hr⟩ := h off rfl
    exact ⟨_, Option.map_eq_some_iff.2 ⟨r, (Reg.ofOffset_eq_some off r).2 hr, rfl⟩⟩
  | _ => exact ⟨_, rfl⟩

theorem runLines_inbox (cmd : Instr) (lines : List Line) (loc : Locals) (s : State) : (runLines cmd lines loc s).inbox = s.inbox :=
  runLines_induct (fun u => u.inbox = s.inbox) (fun u r h => (u.load_inbox r).trans h) (fun u r v h => (u.store_inbox r v).trans h)
    (fun _ _ _ h => h) (fun _ _ _ _ _ h => h) cmd lines loc s rfl

theorem exists_channel {ch : Word} (h : 0 ≤ ch.toInt ∧ ch.toInt ≤ 7) : ∃ c, channel? ch = some c :=
  Option.ne_none_iff_exists'.1 fun hn => (channel?_eq_none ch).1 hn h

/-- With `dst = 0` a command whose other checks pass has one line, which raises NullOutput (R71). -/
theorem lines_null_output {i : Instr} (hdst : i.dstOperand = some false)
    (hch : ∀ ch, i.chOperand = some ch → 0 ≤ ch.toInt ∧ ch.toInt ≤ 7)
    (hoff : ∀ off, i.offOperand = some off → ∃ r : Reg, off.toNat = r.offset) : i.lines = some [.raise .nullOutput] := by
  cases i with
  | load32 off dst =>
    cases hdst
    obtain ⟨r, hr⟩ := hoff off rfl
    exact Option.map_eq_some_iff.2 ⟨r, (Reg.ofOffset_eq_some off r).2 hr, rfl⟩
  | effectiveClockPeriodNs => cases hdst; rfl
  | readClockConfig ch | readPrescaler ch | isEnabled ch | getPeriod ch | readCaptureInterruptStatus ch | readRiseLockCount ch
  | readFallLockCount ch | readRiseLockFlag ch | readFallLockFlag ch | readPwmConfig ch | captureBlocking ch | rawToNanoseconds ch
  | maxCaptureDurationNs ch | outputFrequencyHz ch =>
    cases hdst
    obtain ⟨c, hc⟩ := exists_channel (hch ch rfl)
    exact congrArg some (withChannel_some ch c _ hc)
  | _ => cases hdst

end Sys2Proof.Machine

open Sys2Proof Sys2Proof.Machine

/-- Settles O50: every error that a line of the command raises stands in its table, and what it returns has the types of its table. -/
theorem responsesFollowTheTables : Obligations.ResponsesFollowTheTables := fun _ _ _ a h ha => exec_answerFits h a ha

/-- Settles O48. -/
theorem nullOutputComesBeforeAnyAccess : Obligations.NullOutputComesBeforeAnyAccess := by
  intro s i
  refine ⟨dstOperand_eq_none_iff i, fun hs hdst hch hoff => exec_idle hs (lines_null_output hdst hch hoff), ?_⟩
  intro hdst t a h ha hnull
  obtain ⟨hok, -⟩ | ⟨herr, -⟩ := exec_answerFits h a ha
  · rw [hnull] at hok
    cases hok
  · rw [hnull, nullOutput_mem_mayRaise, hdst] at herr
    cases herr

/-- Settles O49. -/
theorem everyIdleCommandGoesOn : Obligations.EveryIdleCommandGoesOn := by
  intro s i hs hoff
  obtain ⟨lines, hl⟩ := exists_lines hoff
  exact ⟨_, exec_idle hs hl, runLines_inbox i lines {} s.begin⟩

end

section
/-! PROOFS. The raw commands (R72 to R74), and what a command that has made some accesses and has not answered yet has done to the state (R36, R62). -/

namespace Sys2Proof.Machine

/-! ## A command in progress -/

theorem loadCount_append (xs ys : List Access) : loadCount (xs ++ ys) = loadCount xs + loadCount ys := by
  induction xs with
  | nil => simp [loadCount]
  | cons x xs ih =>
    cases x with
    | load r => rw [List.cons_append, loadCount, loadCount, ih, Nat.add_right_comm]
    | store | sleep => exact ih

/-- From `s` to `t` a command has been accepted and has made these accesses; it has not answered. The window is not spoken of. -/
structure InProgress (s t : State) (accesses : List Access) : Prop where
  response : t.response = none
  bus : t.bus = accesses
  inbox : t.inbox = s.inbox
  schedule : t.schedule = s.schedule.drop (accessCount accesses)
  draws : t.draws = s.draws + loadCount accesses

theorem InProgress.begin (s : State) : InProgress s s.begin [] := ⟨rfl, rfl, rfl, rfl, rfl⟩

section
variable {s t : State} {accesses : List Access}

theorem InProgress.load (h : InProgress s t accesses) (r : Reg) : InProgress s (t.load r).2 (accesses ++ [.load r]) where
  response := (t.load_response r).trans h.response
  bus := by rw [State.load_bus, h.bus]
  inbox := (t.load_inbox r).trans h.inbox
  schedule := by rw [State.load_schedule, h.schedule, List.tail_drop, accessCount_append]; rfl
  draws := by rw [State.load_draws, h.draws, loadCount_append]; rfl

theorem InProgress.store (h : InProgress s t accesses) (r : Reg) (v : Word) :
    InProgress s (t.store r v) (accesses ++ [.store r]) where
  response := (t.store_response r v).trans h.response
  bus := by rw [State.store_bus, h.bus]
  inbox := (t.store_inbox r v).trans h.inbox
  schedule := by rw [State.store_schedule, h.schedule, List.tail_drop, accessCount_append]; rfl
  draws := by rw [State.store_draws, h.draws, loadCount_append]; rfl

theorem InProgress.rmwBit (h : InProgress s t accesses) (r : Reg) (i : Nat) (b : Bool) (m : Word) :
    InProgress s (t.rmwBit r i b m) (accesses ++ [.load r] ++ [.store r]) :=
  (h.load r).store r _

/-- A command in progress that ends has answered. -/
theorem InProgress.finish (h : InProgress s t accesses) (code : Code) (values : List Value) :
    Answered s (t.finish code values) code values accesses :=
  ⟨rfl, rfl, h.bus, h.inbox, h.schedule, h.draws⟩

end

/-! ## The frame of a command's last access -/

@[simp] theorem State.turns_begin (s : State) (n : Nat) : s.begin.turns n = (s.turns n).begin := by
  induction n with
  | zero => rfl
  | succ n ih => rw [State.turns_succ, ih, State.turn_begin, State.turns_succ]

/-- A command accepted has changed no byte yet. -/
theorem SameOutside.begin (P : List Reg) (s : State) : SameOutside P s.begin (s.turns 0) := .of_mem P _ _ rfl rfl

/-- A load inside a command leaves what one more turn leaves. -/
theorem SameOutside.untouched_load {P : List Reg} {s t : State} {n : Nat} (h : SameOutside P t (s.turns n)) (r : Reg) :
    Untouched s (t.load r).2 (n + 1) P :=
  (h.load r).agree

/-- A store inside `P` leaves outside `P` what one more turn leaves, even one that arms a latch. -/
theorem SameOutside.untouched_store {P : List Reg} {s t : State} {n : Nat} (h : SameOutside P t (s.turns n)) (r : Reg)
    (hr : r ∈ P) (v : Word) : Untouched s (t.store r v) (n + 1) P :=
  fun a ha => (t.store_readByte r v a (ha r hr)).trans (h.turn.agree a ha)

/-! ## Unmasked bits under a read-modify-write (R45, R133) -/

/-- A load hands out every `W1C` bit as the Peripheral's turn leaves it. -/
theorem State.load_fields_w1c (s : State) (r : Reg) (k : Nat) (hk : (r.mask .w1c).getLsbD k = true) :
    (s.load r).1.fields.getLsbD k = s.turn.flag r k := by
  simp [State.flag, Reg.defined, hk]

/-- A read-modify-write leaves an `RO` bit as the Peripheral's two turns leave it. -/
theorem State.rmwBit_flag_ro (s : State) (r : Reg) (i : Nat) (b : Bool) (m : Word) (k : Nat)
    (hk : (r.mask .ro).getLsbD k = true) : (s.rmwBit r i b m).flag r k = (s.turns 2).flag r k := by
  rw [State.rmwBit, State.store_flag_ro _ _ _ _ hk, State.load_turn_flag]
  rfl

/-- An unmasked read-modify-write clears the `W1C` flags that its load saw set, but for its own bit, which it clears when it writes 1. -/
theorem State.rmwBit_flag_w1c (s : State) (r : Reg) (i : Nat) (b : Bool) (k : Nat) (hi : i < 32)
    (hk : (r.mask .w1c).getLsbD k = true) :
    (s.rmwBit r i b 0).flag r k = ((s.turns 2).flag r k && !(if k = i then b else (s.turns 1).flag r k)) := by
  rw [State.rmwBit, State.store_flag_w1c _ _ _ _ hk, setBit_getLsbD _ _ _ _ _ hi, s.load_fields_w1c r k hk, State.load_turn_flag]
  simp

/-! ## The raw commands as operations (R47, R72 to R74) -/

/-- At a register's offset a raw command runs its lines on that register. -/
theorem exec_at {i : Instr} {off : Word} {lines : Reg → List Line} {r : Reg} {s : State}
    (hl : i.lines = (Reg.ofOffset off).map lines) (hs : s.seq = .idle) (hr : off.toNat = r.offset) :
    exec i s = .next (runLines i (lines r) {} s.begin) :=
  exec_idle hs (by rw [hl, (Reg.ofOffset_eq_some off r).2 hr]; rfl)

section
variable {s : State} {off : Word} {r : Reg} (hs : s.seq = .idle) (hr : off.toNat = r.offset)
include hs hr

theorem exec_load32_null : exec (.load32 off false) s = .next (s.begin.finish .nullOutput []) := by
  rw [exec_at rfl hs hr, withDst_false, runLines_raise]

theorem exec_load32 :
    exec (.load32 off true) s = .next ((s.begin.load r).2.finish .ok [.word (s.begin.load r).1.value]) := by
  rw [exec_at rfl hs hr, withDst_true, runLines_read, runLines_ret]
  rfl

theorem exec_store32 (v : Word) : exec (.store32 off v) s = .next ((s.begin.store r v).finish .ok []) := by
  rw [exec_at rfl hs hr, runLines_write, runLines_nil]

theorem exec_readModifyWriteBit {index : Word} (b : Bool) (hi : index.toNat ≤ 31) :
    exec (.readModifyWriteBit off index b) s = .next ((s.begin.rmwBit r index.toNat b 0).finish .ok []) := by
  rw [exec_at rfl hs hr, linesReadModifyWriteBit, if_neg (Nat.not_lt.2 hi), ← List.append_nil (rmwLines _ _ _ _),
    runLines_rmw, runLines_nil]

/-- A bit index above 31 makes no access (R74). -/
theorem exec_readModifyWriteBit_ignored {index : Word} (b : Bool) (hi : index.toNat > 31) :
    exec (.readModifyWriteBit off index b) s = .next (s.begin.finish .ok []) := by
  rw [exec_at rfl hs hr, linesReadModifyWriteBit, if_pos hi, runLines_nil]

end

end Sys2Proof.Machine

open Sys2Proof Sys2Proof.Machine

/-- Settles O18: the command is one load, and its value is that load's. -/
theorem loadCommandReturnsTheWord : Obligations.LoadCommandReturnsTheWord := by
  intro s off r hs hr
  refine ⟨exec_load32_null hs hr, _, _, exec_load32 hs hr, ((InProgress.begin s).load r).finish _ _,
    (SameOutside.begin [] s).untouched_load r, ?_⟩
  rw [State.load_value_defined, State.turn_begin, State.begin_stored]

/-- Settles O19: the command is one store, which follows the access kinds bit by bit. -/
theorem storeCommandWritesTheWord : Obligations.StoreCommandWritesTheWord := by
  intro s off v r hs hr
  refine ⟨_, exec_store32 hs hr v, ((InProgress.begin s).store r v).finish _ _,
    (SameOutside.begin [r] s).untouched_store r (List.mem_singleton_self r) v,
    fun k => ⟨fun hk => ?_, fun hk => ?_, fun hk => ?_⟩⟩
  all_goals rw [State.finish_flag]
  · rw [State.store_flag_rw _ _ _ _ _ hk, if_pos rfl]
  · rw [State.store_flag_ro _ _ _ _ hk, State.turn_begin, State.begin_flag]
  · rw [State.store_flag_w1c _ _ _ _ hk, State.turn_begin, State.begin_flag]

/-- Settles O20: with an index inside the word the command is one unmasked read-modify-write, so a flag that its load saw set is stored back as 1. -/
theorem rawReadModifyWriteChangesOneBit : Obligations.RawReadModifyWriteChangesOneBit := by
  intro s off index b r hs hr
  refine ⟨fun hi => ?_, exec_readModifyWriteBit_ignored hs hr b⟩
  have inWord : index.toNat < 32 := Nat.lt_succ_of_le hi
  refine ⟨_, exec_readModifyWriteBit hs hr b hi, ((InProgress.begin s).rmwBit r index.toNat b 0).finish _ _,
    ((SameOutside.begin [r] s).load r).untouched_store (n := 1) r (List.mem_singleton_self r) _,
    fun k => ⟨fun hk => ?_, fun hk => ?_, fun hk => ?_⟩⟩
  all_goals rw [State.finish_flag]
  · rw [State.rmwBit_flag_rw _ _ _ _ _ _ inWord hk]
    simp
  · rw [State.rmwBit_flag_ro _ _ _ _ _ _ hk, State.turns_begin, State.begin_flag]
  · rw [State.rmwBit_flag_w1c _ _ _ _ _ inWord hk]
    simp only [State.turns_begin, State.begin_flag]

end

section
/-! PROOFS. The clock tree unit, and the polarity that shares the control word with its prescaler (R75 to R80, R85): how a command with a channel begins, what a whole
command of one load, one store or both leaves, the fields that these commands read and write, and each command as such an operation. -/

namespace Sys2Proof.Machine

/-! ## How a command with a channel begins (R71, R107) -/

section
variable {i : Instr} {ch : Word} {lines : Channel → List Line} {s : State} (hl : i.lines = some (withChannel ch lines)) (hs : s.seq = .idle)
include hl hs

theorem exec_onChannel {c : Channel} (hc : ch.toInt = c.val) : exec i s = .next (runLines i (lines c) {} s.begin) := by
  rw [exec_idle hs hl, withChannel_some ch c _ ((channel?_eq_some ch c).2 hc)]

theorem exec_invalidChannel (hc : ¬(0 ≤ ch.toInt ∧ ch.toInt ≤ 7)) : exec i s = .next (s.begin.finish .invalidChannel []) := by
  rw [exec_idle hs hl, withChannel_none ch _ ((channel?_eq_none ch).2 hc), runLines_raise]

end

theorem ChecksChannel.of_lines {opcode : Byte} {mk : Word → Instr} {lines : Channel → List Line}
    (hop : ∀ ch, (encode (mk ch)).opcode = opcode) (hl : ∀ ch, (mk ch).lines = some (withChannel ch lines)) :
    ChecksChannel opcode mk where
  opcode := hop
  channel := fun _ ch hs hc => exec_invalidChannel (hl ch) hs hc

theorem ChecksOutput.of_lines {opcode : Byte} {mk : Word → Bool → Instr} {lines : Channel → List Line}
    (hop : ∀ ch dst, (encode (mk ch dst)).opcode = opcode)
    (hl : ∀ ch dst, (mk ch dst).lines = some (withChannel ch fun c => withDst dst (lines c))) : ChecksOutput opcode mk where
  channel := fun dst => .of_lines (hop · dst) (hl · dst)
  output := fun s ch hs lo hi => by
    obtain ⟨c, hc⟩ := exists_channel ⟨lo, hi⟩
    rw [exec_onChannel (hl ch false) hs ((channel?_eq_some ch c).1 hc), withDst_false, runLines_raise]

/-! ## A whole command of one load, one store, or a load and a store of one register -/

theorem answered_load (s : State) (r : Reg) (code : Code) (values : List Value) :
    Answered s ((s.begin.load r).2.finish code values) code values [.load r] :=
  ((InProgress.begin s).load r).finish code values

theorem untouched_load (s : State) (r : Reg) (code : Code) (values : List Value) :
    Untouched s ((s.begin.load r).2.finish code values) 1 [] :=
  (SameOutside.begin [] s).untouched_load r

theorem answered_store (s : State) (r : Reg) (v : Word) : Answered s ((s.begin.store r v).finish .ok []) .ok [] [.store r] :=
  ((InProgress.begin s).store r v).finish .ok []

theorem untouched_store (s : State) (r : Reg) (v : Word) : Untouched s ((s.begin.store r v).finish .ok []) 1 [r] :=
  (SameOutside.begin [r] s).untouched_store r (List.mem_singleton_self r) v

theorem answered_loadStore (s : State) (r : Reg) (v : Word) :
    Answered s (((s.begin.load r).2.store r v).finish .ok []) .ok [] [.load r, .store r] :=
  (((InProgress.begin s).load r).store r v).finish .ok []

theorem untouched_loadStore (s : State) (r : Reg) (v : Word) : Untouched s (((s.begin.load r).2.store r v).finish .ok []) 2 [r] :=
  ((SameOutside.begin [r] s).load r).untouched_store (n := 1) r (List.mem_singleton_self r) v

/-- A command of one unmasked read-modify-write changes one `RW` bit of its register and no other. -/
theorem rmwCommand_flag (s : State) (r : Reg) (i : Nat) (b : Bool) (k : Nat) (hi : i < 32) (hk : (r.mask .rw).getLsbD k = true) :
    ((s.begin.rmwBit r i b 0).finish .ok []).flag r k = if k = i then b else s.flag r k := by
  rw [State.finish_flag, State.rmwBit_flag_rw _ _ _ _ _ _ hi hk]
  simp

/-! ## Fields of `RW` bits (R17) -/

/-- The `w` bits from bit `lo` on are all `RW` bits of the register. -/
def Reg.RwField (r : Reg) (lo w : Nat) : Prop := ∀ k, k < w → (r.mask .rw).getLsbD (lo + k) = true

section
variable {r : Reg} {lo w : Nat}

/-- A load hands out a field of `RW` bits as it stands. -/
theorem Reg.RwField.load (h : r.RwField lo w) (s : State) :
    (s.load r).1.fields.extractLsb' lo w = (s.stored r).extractLsb' lo w := by
  ext k hk
  rw [BitVec.getElem_extractLsb', BitVec.getElem_extractLsb', s.load_fields_rw r (lo + k) (h k hk)]
  rfl

/-- A store gives a field of `RW` bits the bits of its word (R44). -/
theorem Reg.RwField.store (h : r.RwField lo w) (s : State) (v : Word) :
    ((s.store r v).stored r).extractLsb' lo w = v.extractLsb' lo w := by
  ext k hk
  have same := s.store_flag_rw r r v (lo + k) (h k hk)
  rw [BitVec.getElem_extractLsb', BitVec.getElem_extractLsb']
  rwa [if_pos rfl] at same

/-- A read-modify-write of a bit outside a field keeps the field. -/
theorem Reg.RwField.rmwCommand (h : r.RwField lo w) (s : State) (i : Nat) (b : Bool) (hi : i < 32) (out : i < lo ∨ lo + w ≤ i) :
    (((s.begin.rmwBit r i b 0).finish .ok []).stored r).extractLsb' lo w = (s.stored r).extractLsb' lo w := by
  ext k hk
  have kept := rmwCommand_flag s r i b (lo + k) hi (h k hk)
  rw [BitVec.getElem_extractLsb', BitVec.getElem_extractLsb']
  rwa [if_neg (by omega)] at kept

end

theorem rwField_divider (p : Pair) : (Reg.pccr p).RwField pccrDiv 4 := by
  rw [Reg.RwField, Reg.rw_pccr]
  decide

theorem rwField_prescaler (c : Channel) : (Reg.pcr c).RwField pcrPrescal 8 := by
  rw [Reg.RwField, Reg.rw_pcr]
  decide

theorem source_rw (p : Pair) : ((Reg.pccr p).mask .rw).getLsbD pccrSrc = true := by
  rw [Reg.rw_pccr]
  rfl

theorem actSta_rw (c : Channel) : ((Reg.pcr c).mask .rw).getLsbD pcrActSta = true := by
  rw [Reg.rw_pcr]
  rfl

/-! The pair word's fields do not change when a command begins or ends. -/

@[simp] theorem State.begin_divider (s : State) (p : Pair) : s.begin.divider p = s.divider p := rfl
@[simp] theorem State.begin_source (s : State) (p : Pair) : s.begin.source p = s.source p := rfl
@[simp] theorem State.finish_divider (s : State) (e : Code) (v : List Value) (p : Pair) : (s.finish e v).divider p = s.divider p := rfl
@[simp] theorem State.finish_source (s : State) (e : Code) (v : List Value) (p : Pair) : (s.finish e v).source p = s.source p := rfl

/-! ## Gate and bypass bits (R23, R75, R76) -/

theorem pcgrGate_rw (c : Channel) : (Reg.mask .rw .pcgr).getLsbD (pcgrGate c) = true := by revert c; decide
theorem pcgrByp_rw (c : Channel) : (Reg.mask .rw .pcgr).getLsbD (pcgrByp c) = true := by revert c; decide

theorem pcgrGate_inj (d c : Channel) : pcgrGate d = pcgrGate c ↔ d = c := Fin.val_inj
theorem pcgrByp_inj (d c : Channel) : pcgrByp d = pcgrByp c ↔ d = c := Nat.add_left_cancel_iff.trans Fin.val_inj

theorem pcgrGate_ne_byp (d c : Channel) : pcgrGate d ≠ pcgrByp c := by
  rw [pcgrGate, pcgrByp]
  omega

/-! ## The pair word (R22, R77, R78) -/

/-- The two channels of a pair share its clock word (R11, R14). -/
theorem Channel.partner_pair (c : Channel) : c.partner.pair = c.pair := by revert c; decide

theorem word_le_one {x : Word} (h : x.toNat ≤ 1) : x = 0 ∨ x = 1 := by
  obtain h0 | h1 := Nat.le_one_iff_eq_zero_or_eq_one.1 h
  · exact .inl (BitVec.eq_of_toNat_eq h0)
  · exact .inr (BitVec.eq_of_toNat_eq h1)

/-- A legal divider index has no bit in the place of the source. -/
theorem clockWord_source {source divider : Word} (hs : source.toNat ≤ 1) (hd : divider.toNat ≤ 8) :
    (clockWord source divider).getLsbD pccrSrc = decide (source.toNat = 1) := by
  have noBit : divider.getLsbD pccrSrc = false := Nat.testBit_lt_two_pow (Nat.lt_of_le_of_lt hd (by decide))
  rw [clockWord, pccrDiv, BitVec.shiftLeft_zero, BitVec.getLsbD_or, noBit, Bool.or_false]
  obtain rfl | rfl := word_le_one hs <;> rfl

/-- The four bits of the divider field hold every legal divider index. -/
theorem divider_toNat {divider : Word} (h : divider.toNat ≤ 8) : (divider.setWidth 4).toNat = divider.toNat := by
  rw [BitVec.toNat_setWidth]
  exact Nat.mod_eq_of_lt (Nat.lt_of_le_of_lt h (by decide))

theorem divider_whole {divider : Word} (h : divider.toNat ≤ 8) : (divider.setWidth 4).setWidth 32 = divider := by
  apply BitVec.eq_of_toNat_eq
  rw [BitVec.toNat_setWidth, divider_toNat h]
  exact Nat.mod_eq_of_lt divider.isLt

theorem bitSlot_source {source : Word} (h : source.toNat ≤ 1) : bitSlot (decide (source.toNat = 1)) = source := by
  obtain rfl | rfl := word_le_one h <;> rfl

section
variable (s : State) (p : Pair) {source divider : Word}

theorem State.divider_configured : (s.store (.pccr p) (clockWord source divider)).divider p = divider.setWidth 4 :=
  ((rwField_divider p).store s _).trans (clockWord_divider source divider)

theorem State.source_configured (hs : source.toNat ≤ 1) (hd : divider.toNat ≤ 8) :
    (s.store (.pccr p) (clockWord source divider)).source p = decide (source.toNat = 1) := by
  rw [State.source, State.store_flag_rw _ _ _ _ _ (source_rw p), if_pos rfl, clockWord_source hs hd]

end

/-- The load of the pair word fills the locals with the pair's source and divider index (R78). -/
theorem Read.into_clock (s : State) (c : Channel) (loc : Locals) :
    Read.into (.clock c) (s.load (.pccr c.pair)).1 loc = { loc with source := s.source c.pair, divider := s.divider c.pair } := by
  rw [Read.into, s.load_fields_rw _ _ (source_rw c.pair), (rwField_divider c.pair).load]
  rfl

/-! ## The control word (R26, R79, R80, R85) -/

theorem prescalerWord_prescaler (w : Word) (p : Byte) : (prescalerWord w p).extractLsb' pcrPrescal 8 = p := by
  ext k hk
  have masked : (0xFF#32).getLsbD k = true := by simp [lowByte_getLsbD, hk]
  have inWord : k < 32 := Nat.lt_trans hk (by decide)
  rw [BitVec.getElem_extractLsb', pcrPrescal, Nat.zero_add, prescalerWord, BitVec.getLsbD_or, BitVec.getLsbD_and,
    BitVec.getLsbD_not, masked, BitVec.getLsbD_setWidth, BitVec.getLsbD_eq_getElem hk]
  simp [inWord]

/-- The load of the control word fills the local with the channel's prescaler (R80). -/
theorem Read.into_prescaler (s : State) (c : Channel) (loc : Locals) :
    Read.into (.prescaler c) (s.load (.pcr c)).1 loc = { loc with presc := s.prescaler c } := by
  rw [Read.into, (rwField_prescaler c).load]
  rfl

/-! ## The lines of each rule, run in front of any others -/

section
variable (cmd : Instr) (rest : List Line) (loc : Locals) (s : State) (c : Channel)

theorem runLines_configureClock {source divider : Word} (hs : source.toNat ≤ 1) (hd : divider.toNat ≤ 8) :
    runLines cmd (linesConfigureClock c source divider ++ rest) loc s =
      runLines cmd rest loc (s.store (.pccr c.pair) (clockWord source divider)) := by
  simp [linesConfigureClock, sourceValid, dividerValid, hs, hd]

/-- The operand checks come before the store (R77). -/
theorem runLines_configureClock_illegal {source divider : Word} (h : source.toNat > 1 ∨ divider.toNat > 8) :
    runLines cmd (linesConfigureClock c source divider ++ rest) loc s = s.finish .invalidArgument [] := by
  unfold linesConfigureClock
  split
  · exact runLines_raise ..
  · next hs =>
    have invalid : dividerValid divider = false := by
      simp only [sourceValid, dividerValid, Bool.not_eq_true, Bool.not_eq_false', decide_eq_true_eq, decide_eq_false_iff_not] at hs ⊢
      omega
    rw [if_pos (by rw [invalid]; rfl)]
    exact runLines_raise ..

theorem runLines_readClockConfig :
    runLines cmd (linesReadClockConfig c ++ rest) loc s =
      if (s.divider c.pair).toNat > 8 then (s.load (.pccr c.pair)).2.finish .invalidArgument []
      else runLines cmd rest { loc with source := s.source c.pair, divider := s.divider c.pair } (s.load (.pccr c.pair)).2 := by
  rw [linesReadClockConfig, List.cons_append, List.cons_append, List.nil_append, runLines_read, runLines_raiseIfBadDivider]
  rw [show Read.reg (.clock c) = .pccr c.pair from rfl, Read.into_clock]

theorem runLines_setPrescaler (p : Byte) :
    runLines cmd (linesSetPrescaler c p ++ rest) loc s = runLines cmd rest { loc with w := (s.load (.pcr c)).1 }
      ((s.load (.pcr c)).2.store (.pcr c) (prescalerWord (s.load (.pcr c)).1.fields p)) := rfl

theorem runLines_readPrescaler :
    runLines cmd (linesReadPrescaler c ++ rest) loc s =
      runLines cmd rest { loc with presc := s.prescaler c } (s.load (.pcr c)).2 :=
  congrArg (fun loc => runLines cmd rest loc (s.load (.pcr c)).2) (Read.into_prescaler s c loc)

end

/-! ## The commands as operations -/

section
variable {s : State} {ch : Word} {c : Channel} (hs : s.seq = .idle) (hc : ch.toInt = c.val)
include hs hc

/-- A command on a channel whose lines are one read-modify-write. -/
theorem exec_rmw {i : Instr} {r : Channel → Reg} {bitOf : Channel → Nat} {b : Bool}
    (hl : i.lines = some (withChannel ch fun c => rmwLines (r c) (bitOf c) b 0)) :
    exec i s = .next ((s.begin.rmwBit (r c) (bitOf c) b 0).finish .ok []) := by
  rw [exec_onChannel hl hs hc, ← List.append_nil (rmwLines _ _ _ _), runLines_rmw, runLines_nil]

theorem exec_configureClock {source divider : Word} (hsource : source.toNat ≤ 1) (hd : divider.toNat ≤ 8) :
    exec (.configureClock ch source divider) s =
      .next ((s.begin.store (.pccr c.pair) (clockWord source divider)).finish .ok []) := by
  rw [exec_onChannel rfl hs hc, ← List.append_nil (linesConfigureClock _ _ _), runLines_configureClock _ _ _ _ _ hsource hd,
    runLines_nil]

theorem exec_configureClock_illegal {source divider : Word} (h : source.toNat > 1 ∨ divider.toNat > 8) :
    exec (.configureClock ch source divider) s = .next (s.begin.finish .invalidArgument []) := by
  rw [exec_onChannel rfl hs hc, ← List.append_nil (linesConfigureClock _ _ _), runLines_configureClock_illegal _ _ _ _ _ h]

theorem exec_readClockConfig (hd : (s.divider c.pair).toNat ≤ 8) :
    exec (.readClockConfig ch true) s = .next ((s.begin.load (.pccr c.pair)).2.finish .ok
      [.src (bitSlot (s.source c.pair)), .div ((s.divider c.pair).setWidth 32)]) := by
  rw [exec_onChannel rfl hs hc, withDst_true, runLines_readClockConfig, State.begin_divider, if_neg (Nat.not_lt.2 hd),
    State.begin_source, runLines_ret]
  rfl

theorem exec_readClockConfig_illegal (hd : (s.divider c.pair).toNat > 8) :
    exec (.readClockConfig ch true) s = .next ((s.begin.load (.pccr c.pair)).2.finish .invalidArgument []) := by
  rw [exec_onChannel rfl hs hc, withDst_true, runLines_readClockConfig, State.begin_divider, if_pos hd]

theorem exec_setPrescaler (p : Byte) :
    exec (.setPrescaler ch p) s = .next (((s.begin.load (.pcr c)).2.store (.pcr c)
      (prescalerWord (s.begin.load (.pcr c)).1.fields p)).finish .ok []) := by
  rw [exec_onChannel rfl hs hc, ← List.append_nil (linesSetPrescaler _ _), runLines_setPrescaler, runLines_nil]

theorem exec_readPrescaler :
    exec (.readPrescaler ch true) s = .next ((s.begin.load (.pcr c)).2.finish .ok [.presc (s.prescaler c)]) := by
  rw [exec_onChannel rfl hs hc, withDst_true, runLines_readPrescaler, runLines_ret]
  rfl

end

/-! ## The control word after its two writers (R79, R85) -/

section
variable (s : State) (c : Channel) (w : Word) (p : Byte)

theorem State.prescaler_prescalerWord : (s.store (.pcr c) (prescalerWord w p)).prescaler c = p :=
  ((rwField_prescaler c).store s _).trans (prescalerWord_prescaler w p)

/-- The active-state bit lies above the prescaler byte, so it is stored back as loaded. -/
theorem State.actSta_prescalerWord :
    ((s.load (.pcr c)).2.store (.pcr c) (prescalerWord (s.load (.pcr c)).1.fields p)).flag (.pcr c) pcrActSta =
      s.flag (.pcr c) pcrActSta :=
  s.store_load_flag_rw _ _ _ _ (actSta_rw c) fun _ => prescalerWord_getLsbD_other _ p _ (by decide) (by decide)

end

end Sys2Proof.Machine

open Sys2Proof Sys2Proof.Machine

/-- Settles O21: each command is one read-modify-write of `PCGR`, and the gate and bypass bits of the eight channels are sixteen different `RW` bits. -/
theorem gateAndBypassChangeTheirBit : Obligations.GateAndBypassChangeTheirBit := by
  refine ⟨fun _ => .of_lines (fun _ => rfl) fun _ => rfl, fun _ => .of_lines (fun _ => rfl) fun _ => rfl,
    fun s ch c b hs hc => ⟨?_, ?_⟩⟩
  · refine ⟨_, exec_rmw hs hc (bitOf := pcgrGate) rfl, answered_loadStore s _ _, untouched_loadStore s _ _, fun d => ⟨?_, ?_⟩⟩
    · rw [rmwCommand_flag _ _ _ _ _ (BitVec.lt_of_getLsbD (pcgrGate_rw c)) (pcgrGate_rw d)]
      simp only [pcgrGate_inj]
    · rw [rmwCommand_flag _ _ _ _ _ (BitVec.lt_of_getLsbD (pcgrGate_rw c)) (pcgrByp_rw d), if_neg (pcgrGate_ne_byp c d).symm]
  · refine ⟨_, exec_rmw hs hc (bitOf := pcgrByp) rfl, answered_loadStore s _ _, untouched_loadStore s _ _, fun d => ⟨?_, ?_⟩⟩
    · rw [rmwCommand_flag _ _ _ _ _ (BitVec.lt_of_getLsbD (pcgrByp_rw c)) (pcgrByp_rw d)]
      simp only [pcgrByp_inj]
    · rw [rmwCommand_flag _ _ _ _ _ (BitVec.lt_of_getLsbD (pcgrByp_rw c)) (pcgrGate_rw d), if_neg (pcgrGate_ne_byp d c)]

/-- Settles O22: with legal operands the command is one store of the pair word, whose two fields do not overlap. -/
theorem configureClockWritesThePairWord : Obligations.ConfigureClockWritesThePairWord := by
  refine ⟨fun _ _ => .of_lines (fun _ => rfl) fun _ => rfl, fun s ch source divider c hs hc =>
    ⟨fun hsource hd => ?_, exec_configureClock_illegal hs hc⟩⟩
  refine ⟨_, exec_configureClock hs hc hsource hd, answered_store s _ _, untouched_store s _ _,
    s.begin.source_configured c.pair hsource hd, ?_⟩
  rw [State.finish_divider, State.divider_configured, divider_toNat hd]

/-- Settles O23: the one load comes before the check of the divider nibble that it found. -/
theorem readClockConfigDecodesThePairWord : Obligations.ReadClockConfigDecodesThePairWord := by
  refine ⟨.of_lines (fun _ _ => rfl) fun _ _ => rfl, fun s ch c hs hc => ⟨fun hd => ?_, fun hd => ?_⟩⟩
  · exact ⟨_, exec_readClockConfig hs hc hd, untouched_load s _ _ _, answered_load s _ _ _⟩
  · exact ⟨_, exec_readClockConfig_illegal hs hc hd, untouched_load s _ _ _, answered_load s _ _ _⟩

/-- Settles O24: both channels of the pair read the word that was stored, and its fields hold the legal operands whole. -/
theorem clockRoundTripReachesThePartner : Obligations.ClockRoundTripReachesThePartner := by
  intro s t ch ch' source divider c hs hc hc' hsource hd hexec
  obtain rfl := Host.Outcome.next.inj ((exec_configureClock hs hc hsource hd).symm.trans hexec)
  obtain ⟨c', hch', pair⟩ : ∃ c' : Channel, ch'.toInt = c'.val ∧ c'.pair = c.pair := by
    obtain same | partner := hc'
    · exact ⟨c, same, rfl⟩
    · exact ⟨c.partner, partner, c.partner_pair⟩
  have legal : (State.divider ((s.begin.store (.pccr c.pair) (clockWord source divider)).finish .ok []) c'.pair).toNat ≤ 8 := by
    rw [pair, State.finish_divider, State.divider_configured, divider_toNat hd]
    exact hd
  refine ⟨_, exec_readClockConfig rfl hch' legal, ?_⟩
  rw [State.finish_response, pair, State.finish_source, State.source_configured _ _ hsource hd, bitSlot_source hsource,
    State.finish_divider, State.divider_configured, divider_whole hd]

/-- Settles O25: the prescaler byte and the active-state bit are disjoint `RW` fields of the control word, and each writer stores the other's field back as loaded. -/
theorem prescalerAndPolarityShareTheControlWord : Obligations.PrescalerAndPolarityShareTheControlWord := by
  refine ⟨fun _ => .of_lines (fun _ => rfl) fun _ => rfl, .of_lines (fun _ _ => rfl) fun _ _ => rfl,
    fun _ => .of_lines (fun _ => rfl) fun _ => rfl, fun s ch c hs hc => ⟨fun p => ?_, ?_, fun b => ?_⟩⟩
  · exact ⟨_, exec_setPrescaler hs hc p, answered_loadStore s _ _, untouched_loadStore s _ _,
      State.prescaler_prescalerWord _ c _ p, s.begin.actSta_prescalerWord c p⟩
  · exact ⟨_, exec_readPrescaler hs hc, answered_load s _ _ _, untouched_load s _ _ _⟩
  · refine ⟨_, exec_rmw hs hc (r := .pcr) (bitOf := fun _ => pcrActSta) rfl, answered_loadStore s _ _, untouched_loadStore s _ _, ?_, ?_⟩
    · rw [rmwCommand_flag _ _ _ _ _ (by decide) (actSta_rw c), if_pos rfl]
    · exact (rwField_prescaler c).rmwCommand s pcrActSta b (by decide) (.inr (by decide))

end

section
/-! PROOFS. The PWM generation unit without its waiting command (R81 to R84): the enable bits, the two halves of the period word, and each command as one load, one store, or one
read-modify-write. -/

namespace Sys2Proof.Machine

/-! ## Enable bits (R24) -/

theorem perEn_rw (c : Channel) : (Reg.mask .rw .per).getLsbD (perEn c) = true := by revert c; decide

theorem perEn_inj (d c : Channel) : perEn d = perEn c ↔ d = c := Fin.val_inj

/-- A read-modify-write of one channel's enable bit keeps the enable bits of the others (R45). -/
theorem State.rmwBit_enable (s : State) (c d : Channel) (b : Bool) :
    (s.rmwBit .per (perEn c) b 0).flag .per (perEn d) = if d = c then b else s.flag .per (perEn d) := by
  rw [State.rmwBit_flag_rw _ _ _ _ _ _ (BitVec.lt_of_getLsbD (perEn_rw c)) (perEn_rw d)]
  simp [perEn_inj]

/-- The load of `PER` fills the local with the channel's enable bit (R81, R82). -/
theorem Read.into_enabled (s : State) (c : Channel) (loc : Locals) :
    Read.into (.enabled c) (s.load .per).1 loc = { loc with enabled := s.flag .per (perEn c) } := by
  rw [Read.into, s.load_fields_rw _ _ (perEn_rw c)]

/-! ## The period word (R27, R83, R84) -/

theorem rwField_entire (c : Channel) : (Reg.ppr c).RwField pprEntire 16 := by
  rw [Reg.RwField, Reg.rw_ppr]
  decide

theorem rwField_active (c : Channel) : (Reg.ppr c).RwField pprAct 16 := by
  rw [Reg.RwField, Reg.rw_ppr]
  decide

/-! The period word's halves do not change when a command begins or ends. -/

@[simp] theorem State.begin_entire (s : State) (c : Channel) : s.begin.entire c = s.entire c := rfl
@[simp] theorem State.begin_active (s : State) (c : Channel) : s.begin.active c = s.active c := rfl
@[simp] theorem State.finish_entire (s : State) (e : Code) (v : List Value) (c : Channel) : (s.finish e v).entire c = s.entire c := rfl
@[simp] theorem State.finish_active (s : State) (e : Code) (v : List Value) (c : Channel) : (s.finish e v).active c = s.active c := rfl

theorem State.entire_configured (s : State) (c : Channel) (entire active : Half) :
    (s.store (.ppr c) (periodWord entire active)).entire c = entire :=
  ((rwField_entire c).store s _).trans (periodWord_entire entire active)

theorem State.active_configured (s : State) (c : Channel) (entire active : Half) :
    (s.store (.ppr c) (periodWord entire active)).active c = active :=
  ((rwField_active c).store s _).trans (periodWord_active entire active)

/-- The load of the period word fills the locals with its two halves as stored (R84). -/
theorem Read.into_period (s : State) (c : Channel) (loc : Locals) :
    Read.into (.period c) (s.load (.ppr c)).1 loc = { loc with entire := s.entire c, active := s.active c } := by
  rw [Read.into, (rwField_entire c).load, (rwField_active c).load]
  rfl

/-! ## The lines of each rule, run in front of any others -/

section
variable (cmd : Instr) (rest : List Line) (loc : Locals) (s : State) (c : Channel)

theorem runLines_isEnabled :
    runLines cmd (linesIsEnabled c ++ rest) loc s =
      runLines cmd rest { loc with enabled := s.flag .per (perEn c) } (s.load .per).2 :=
  congrArg (fun loc => runLines cmd rest loc (s.load .per).2) (Read.into_enabled s c loc)

theorem runLines_getPeriod :
    runLines cmd (linesGetPeriod c ++ rest) loc s =
      runLines cmd rest { loc with entire := s.entire c, active := s.active c } (s.load (.ppr c)).2 :=
  congrArg (fun loc => runLines cmd rest loc (s.load (.ppr c)).2) (Read.into_period s c loc)

theorem runLines_setPeriod {entire active : Half} (h : active.toNat ≤ entire.toNat) :
    runLines cmd (linesSetPeriod c entire active ++ rest) loc s =
      runLines cmd rest loc (s.store (.ppr c) (periodWord entire active)) := by
  rw [linesSetPeriod, if_neg (Nat.not_lt.2 h), List.singleton_append, runLines_write]

/-- The operand check comes before the store (R83). -/
theorem runLines_setPeriod_illegal {entire active : Half} (h : active.toNat > entire.toNat) :
    runLines cmd (linesSetPeriod c entire active ++ rest) loc s = s.finish .invalidArgument [] := by
  rw [linesSetPeriod, if_pos h, List.singleton_append, runLines_raise]

end

/-! ## The commands as operations -/

section
variable {s : State} {ch : Word} {c : Channel} (hs : s.seq = .idle) (hc : ch.toInt = c.val)
include hs hc

theorem exec_isEnabled :
    exec (.isEnabled ch true) s = .next ((s.begin.load .per).2.finish .ok [.bool (s.flag .per (perEn c))]) := by
  rw [exec_onChannel rfl hs hc, withDst_true, runLines_isEnabled, runLines_ret]
  rfl

theorem exec_getPeriod :
    exec (.getPeriod ch true) s =
      .next ((s.begin.load (.ppr c)).2.finish .ok [.cyc16 (s.entire c), .cyc16 (s.active c)]) := by
  rw [exec_onChannel rfl hs hc, withDst_true, runLines_getPeriod, runLines_ret]
  rfl

theorem exec_setPeriod {entire active : Half} (h : active.toNat ≤ entire.toNat) :
    exec (.setPeriod ch entire active) s = .next ((s.begin.store (.ppr c) (periodWord entire active)).finish .ok []) := by
  rw [exec_onChannel rfl hs hc, ← List.append_nil (linesSetPeriod _ _ _), runLines_setPeriod _ _ _ _ _ h, runLines_nil]

theorem exec_setPeriod_illegal {entire active : Half} (h : active.toNat > entire.toNat) :
    exec (.setPeriod ch entire active) s = .next (s.begin.finish .invalidArgument []) := by
  rw [exec_onChannel rfl hs hc, ← List.append_nil (linesSetPeriod _ _ _), runLines_setPeriod_illegal _ _ _ _ _ h]

theorem exec_enable : exec (.setEnabled ch true) s = .next ((s.begin.rmwBit .per (perEn c) true 0).finish .ok []) :=
  exec_rmw hs hc (r := fun _ => .per) (bitOf := perEn) rfl

end

end Sys2Proof.Machine

open Sys2Proof Sys2Proof.Machine

/-- Settles O26: each reader is one load of `RW` fields, and both halves of a legal period are fields of the one word that setPeriod stores. -/
theorem enableAndPeriodAreReadBack : Obligations.EnableAndPeriodAreReadBack := by
  refine ⟨.of_lines (fun _ _ => rfl) fun _ _ => rfl, .of_lines (fun _ _ => rfl) fun _ _ => rfl, fun s ch c hs hc => ⟨?_, ?_, ?_⟩⟩
  · exact ⟨_, exec_isEnabled hs hc, answered_load s _ _ _, untouched_load s _ _ _⟩
  · exact ⟨_, exec_getPeriod hs hc, answered_load s _ _ _, untouched_load s _ _ _⟩
  · intro entire active t legal hexec
    obtain rfl := Host.Outcome.next.inj ((exec_setPeriod hs hc legal).symm.trans hexec)
    refine ⟨_, exec_getPeriod rfl hc, ?_⟩
    rw [State.finish_response, State.finish_entire, State.entire_configured, State.finish_active, State.active_configured]

/-- Settles O27: enabling is one read-modify-write of `PER`. -/
theorem enablingSetsTheBit : Obligations.EnablingSetsTheBit := by
  refine ⟨fun _ => .of_lines (fun _ => rfl) fun _ => rfl, fun s ch c hs hc => ?_⟩
  refine ⟨_, exec_enable hs hc, answered_loadStore s _ _, untouched_loadStore s _ _, fun d => ?_⟩
  rw [State.finish_flag, State.rmwBit_enable, State.begin_flag]
  by_cases own : d = c <;> simp [own]

/-- Settles O30: the operand check comes first, and the one store fills both halves of the word. -/
theorem setPeriodEncodesBothHalves : Obligations.SetPeriodEncodesBothHalves := by
  refine ⟨fun _ _ => .of_lines (fun _ => rfl) fun _ => rfl, fun s ch c entire active hs hc =>
    ⟨fun legal => ?_, exec_setPeriod_illegal hs hc⟩⟩
  exact ⟨_, exec_setPeriod hs hc legal, answered_store s _ _, untouched_store s _ _, s.begin.entire_configured c entire active,
    s.begin.active_configured c entire active⟩

end

section
/-! PROOFS. The disable path of setEnabled (R82): its loop, run in front of any lines, ends or sleeps by the pulse counter and the enable bit, and under a quiet Peripheral (R55) it
sleeps for ever (R121). -/

namespace Sys2Proof.Machine

/-! ## The disable loop (R82) -/

theorem linesSetEnabled_false (c : Channel) : linesSetEnabled c false = disableLoop c ++ rmwLines .per (perEn c) false 0 := rfl

/-- Every bit of the pulse counter is a field, so its load fills the local with the whole word (R29, R82). -/
theorem Read.into_pulse (s : State) (c : Channel) (loc : Locals) :
    Read.into (.pulse c) (s.load (.ppcntr c)).1 loc = { loc with pulse := s.turn.stored (.ppcntr c) } := by
  have whole : (Reg.ppcntr c).defined = BitVec.allOnes 32 := by
    rw [Reg.defined, Reg.rw_ppcntr, Reg.ro_ppcntr, Reg.w1c_ppcntr]
    rfl
  rw [Read.into, State.load_fields, whole, BitVec.and_allOnes]

/-- The state after the two loads of the disable loop. -/
def State.disablePolled (s : State) (c : Channel) : State := ((s.load (.ppcntr c)).2.load .per).2

/-- The locals after the two loads of the disable loop. -/
def State.disableLocals (s : State) (c : Channel) (loc : Locals) : Locals :=
  { loc with pulse := s.turn.stored (.ppcntr c), enabled := s.flag .per (perEn c) }

section
variable (cmd : Instr) (rest : List Line) (loc : Locals)

theorem runLines_disableLoop (s : State) (c : Channel) :
    runLines cmd (disableLoop c ++ rest) loc s =
      if s.flag .per (perEn c) && s.turn.stored (.ppcntr c) != 0 then
        (s.disablePolled c).sleep cmd (disableLoop c ++ rest) (s.disableLocals c loc) Config.disablePoll
      else runLines cmd rest (s.disableLocals c loc) (s.disablePolled c) := by
  have locals : Read.into (.enabled c) ((s.load (.ppcntr c)).2.load .per).1 (Read.into (.pulse c) (s.load (.ppcntr c)).1 loc) =
      s.disableLocals c loc := by
    rw [Read.into_pulse, Read.into_enabled, State.load_flag_rw _ _ _ _ (perEn_rw c), State.disableLocals]
  have polled : runLines cmd (disableLoop c ++ rest) loc s =
      runLines cmd (.waitDisable c :: rest) (s.disableLocals c loc) (s.disablePolled c) := by
    rw [← locals]
    rfl
  exact polled.trans (runLines_waitDisable cmd c rest _ _)

variable {s : State} {c : Channel}

theorem runLines_disableLoop_ends (h : s.flag .per (perEn c) = false ∨ s.turn.stored (.ppcntr c) = 0) :
    runLines cmd (disableLoop c ++ rest) loc s = runLines cmd rest (s.disableLocals c loc) (s.disablePolled c) := by
  rw [runLines_disableLoop, if_neg]
  obtain disabled | stopped := h
  · simp [disabled]
  · simp [stopped]

theorem runLines_disableLoop_sleeps (enabled : s.flag .per (perEn c) = true) (counting : s.turn.stored (.ppcntr c) ≠ 0) :
    runLines cmd (disableLoop c ++ rest) loc s =
      (s.disablePolled c).sleep cmd (disableLoop c ++ rest) (s.disableLocals c loc) Config.disablePoll := by
  rw [runLines_disableLoop, if_pos]
  simpa [enabled] using counting

end

/-- The loop changes no enable bit. -/
theorem State.disablePolled_enable (s : State) (c d : Channel) :
    (s.disablePolled c).flag .per (perEn d) = s.flag .per (perEn d) := by
  rw [State.disablePolled, State.load_flag_rw _ _ _ _ (perEn_rw d), State.load_flag_rw _ _ _ _ (perEn_rw d)]

section
variable {s t : State}

theorem InProgress.disablePolled {accesses : List Access} (h : InProgress s t accesses) (c : Channel) :
    InProgress s (t.disablePolled c) (accesses ++ [.load (.ppcntr c)] ++ [.load .per]) :=
  (h.load _).load _

/-- As far as the window goes, the loop is two turns of the Peripheral. -/
theorem SameOutside.disablePolled {P : List Reg} {n : Nat} (h : SameOutside P t (s.turns n)) (c : Channel) :
    SameOutside P (t.disablePolled c) (s.turns (n + 2)) :=
  (h.load _).load _

/-- A command in progress that goes to sleep waits. -/
theorem InProgress.sleep {accesses : List Access} (h : InProgress s t accesses) (cmd : Instr) (line : List Line) (loc : Locals) (time : Nat) :
    Waiting s (t.sleep cmd line loc time) cmd line time accesses where
  seq := ⟨loc, rfl⟩
  response := h.response
  bus := by rw [State.sleep_bus, h.bus]
  inbox := h.inbox
  schedule := h.schedule
  draws := h.draws

end

/-! ## The command as an operation -/

section
variable {s : State} {ch : Word} {c : Channel} (hs : s.seq = .idle) (hc : ch.toInt = c.val)
include hs hc

theorem exec_disable : exec (.setEnabled ch false) s = .next (runLines (.setEnabled ch false) (linesSetEnabled c false) {} s.begin) :=
  exec_onChannel (lines := fun c => linesSetEnabled c false) rfl hs hc

theorem exec_disable_ends (h : s.flag .per (perEn c) = false ∨ s.turn.stored (.ppcntr c) = 0) :
    exec (.setEnabled ch false) s = .next (((s.begin.disablePolled c).rmwBit .per (perEn c) false 0).finish .ok []) := by
  rw [exec_disable hs hc, linesSetEnabled_false, runLines_disableLoop_ends _ _ _ (by simpa using h),
    ← List.append_nil (rmwLines _ _ _ _), runLines_rmw, runLines_nil]

theorem exec_disable_sleeps (enabled : s.flag .per (perEn c) = true) (counting : s.turn.stored (.ppcntr c) ≠ 0) :
    exec (.setEnabled ch false) s = .next ((s.begin.disablePolled c).sleep (.setEnabled ch false) (linesSetEnabled c false)
      (s.begin.disableLocals c {}) Config.disablePoll) := by
  rw [exec_disable hs hc, linesSetEnabled_false, runLines_disableLoop_sleeps]
  · exact enabled
  · simpa using counting

end

/-! ## Quiet turns (R55) -/

/-- The turn of a quiet Peripheral leaves the window as it is. -/
theorem State.quiet.turn_mem {s : State} (h : s.quiet) : s.turn.mem = s.mem := by
  unfold State.turn
  split
  · rfl
  · next events rest hsched =>
    rw [h events (by simp [hsched])]
    rfl

/-- A Peripheral that is quiet stays so as its schedule moves on. -/
theorem State.quiet.of_tail {s t : State} (h : s.quiet) (hsched : t.schedule = s.schedule.tail) : t.quiet :=
  fun events hmem => h events (List.mem_of_mem_tail (hsched ▸ hmem))

/-- The channel is enabled and its pulse counter is not 0, and the Peripheral will never stop it (R121). -/
structure State.RunsForever (s : State) (c : Channel) : Prop where
  quiet : s.quiet
  enabled : s.flag .per (perEn c) = true
  counting : s.stored (.ppcntr c) ≠ 0

section
variable {s t : State} {c : Channel}

theorem State.RunsForever.of_turn (h : s.RunsForever c) (hm : t.mem = s.turn.mem) (hsched : t.schedule = s.schedule.tail) :
    t.RunsForever c := by
  have same : t.mem = s.mem := hm.trans h.quiet.turn_mem
  refine ⟨h.quiet.of_tail hsched, ?_, ?_⟩
  · rw [State.flag_of_mem same]
    exact h.enabled
  · rw [State.stored_of_mem t s _ same]
    exact h.counting

theorem State.RunsForever.turn (h : s.RunsForever c) : s.turn.RunsForever c := h.of_turn rfl s.turn_schedule

theorem State.RunsForever.load (h : s.RunsForever c) (r : Reg) : (s.load r).2.RunsForever c :=
  h.of_turn (s.load_mem r) (s.load_schedule r)

theorem State.RunsForever.disablePolled (h : s.RunsForever c) : (s.disablePolled c).RunsForever c := (h.load _).load _

end

/-! ## Waiting for a channel that never stops (R121) -/

/-- The disable of channel `c` sleeps at the head of its loop, unanswered, and the channel will never stop. -/
structure State.DisableHangs (s : State) (cmd : Instr) (c : Channel) : Prop where
  asleep : ∃ loc t, s.seq = .sleeping cmd (linesSetEnabled c false) loc t
  unanswered : s.response = none
  runs : s.RunsForever c

theorem State.RunsForever.disableHangs {s : State} {c : Channel} (h : s.RunsForever c) (unanswered : s.response = none) (cmd : Instr)
    (loc : Locals) : (runLines cmd (linesSetEnabled c false) loc s).DisableHangs cmd c := by
  obtain ⟨quiet, enabled, counting⟩ := h.disablePolled
  rw [linesSetEnabled_false, runLines_disableLoop_sleeps _ _ _ h.enabled h.turn.counting]
  refine ⟨⟨_, _, rfl⟩, ?_, ⟨quiet, enabled, counting⟩⟩
  rw [State.sleep_response, State.disablePolled, State.load_response, State.load_response, unanswered]

/-- A step ends the sleep, polls once, and sleeps again. -/
theorem State.DisableHangs.step {s : State} {cmd : Instr} {c : Channel} (h : s.DisableHangs cmd c) :
    ∃ t, step s = .next t ∧ t.DisableHangs cmd c := by
  obtain ⟨loc, time, asleep⟩ := h.asleep
  exact ⟨_, step_sleeping asleep, h.runs.turn.disableHangs (s.turn_response.trans h.unanswered) cmd loc⟩

/-- Where every step goes on and keeps a property, every run goes on and keeps it. -/
theorem run_keeps {M : Host.Core} {P : M.State → Prop} (hstep : ∀ s, P s → ∃ t, M.step s = .next t ∧ P t) (n : Nat) {s : M.State}
    (h : P s) : ∃ u, M.run n s = .next u ∧ P u := by
  induction n generalizing s with
  | zero => exact ⟨s, rfl, h⟩
  | succ n ih =>
    obtain ⟨t, next, ht⟩ := hstep s h
    simpa only [Host.Core.run, next] using ih ht

end Sys2Proof.Machine

open Sys2Proof Sys2Proof.Machine

/-- Settles O28: the loop's two loads decide alone, and the bit is cleared by one more read-modify-write of `PER`. -/
theorem disablingWaitsForThePulseCounter : Obligations.DisablingWaitsForThePulseCounter := by
  refine fun s ch c hs hc => ⟨fun h => ?_, fun enabled counting => ?_⟩
  · refine ⟨_, exec_disable_ends hs hc h, (((InProgress.begin s).disablePolled c).rmwBit .per (perEn c) false 0).finish _ _,
      (((SameOutside.begin [.per] s).disablePolled c).load .per).untouched_store (n := 3) .per (List.mem_singleton_self _) _, fun d => ?_⟩
    rw [State.finish_flag, State.rmwBit_enable, State.disablePolled_enable, State.begin_flag]
    by_cases own : d = c <;> simp [own]
  · exact ⟨_, exec_disable_sleeps hs hc enabled counting, ((SameOutside.begin [] s).disablePolled c).agree,
      ((InProgress.begin s).disablePolled c).sleep _ _ _ _⟩

/-- Settles O29: the accepted command hangs, and every step leaves it hanging. -/
theorem disableOfARunningChannelHangs : Obligations.DisableOfARunningChannelHangs := by
  intro s t ch c n hs hc quiet enabled counting hexec
  obtain rfl := Host.Outcome.next.inj ((exec_disable hs hc).symm.trans hexec)
  have runs : s.begin.RunsForever c := ⟨quiet, enabled, counting⟩
  obtain ⟨u, run, hangs⟩ := run_keeps (M := core) (fun _ => State.DisableHangs.step) n (runs.disableHangs rfl (.setEnabled ch false) {})
  exact ⟨u, run, hangs.unanswered, hangs.runs.enabled⟩

end

section
/-! PROOFS. The capture unit's reads (R89 to R93), and what a command's changes leave of the Peripheral's latches and of the window while the Peripheral is quiet (R55, R57, R58). -/

namespace Sys2Proof.Machine

/-! ## What the capture loads fill (R89 to R93) -/

theorem cisr_w1c {k : Nat} (h : k < 16) : (Reg.mask .w1c .cisr).getLsbD k = true := by
  rw [Reg.w1c_cisr, lowHalf_getLsbD, decide_eq_true h]

theorem cisrRise_lt_half (c : Channel) : cisrRise c < 16 := by unfold cisrRise; omega
theorem cisrFall_lt_half (c : Channel) : cisrFall c < 16 := by unfold cisrFall; omega

/-- What a load hands out does not depend on the accesses made and answers given before. -/
theorem State.begin_load (s : State) (r : Reg) : (s.begin.load r).1 = (s.load r).1 := by
  simp [State.load, State.view]

/-- A load hands out a count register's 16 bits as the Peripheral's turn leaves them (R31, R32). -/
theorem State.load_lockCnt (s : State) {r : Reg} (hr : r.mask .ro = 0xFFFF#32) :
    (s.load r).1.fields.extractLsb' lockCnt 16 = (s.turn.stored r).extractLsb' lockCnt 16 := by
  ext k hk
  simp [lockCnt, Reg.defined, hr, lowHalf_getLsbD, hk]

section
variable (s : State) (c : Channel) (loc : Locals)

theorem Read.into_pending : Read.into (.pending c) (s.load .cisr).1 loc =
    { loc with rise := s.turn.flag .cisr (cisrRise c), fall := s.turn.flag .cisr (cisrFall c) } := by
  rw [Read.into, s.load_fields_w1c _ _ (cisr_w1c (cisrRise_lt_half c)), s.load_fields_w1c _ _ (cisr_w1c (cisrFall_lt_half c))]

theorem Read.into_riseFlag :
    Read.into (.riseFlag c) (s.load (.ccr c)).1 loc = { loc with rise := s.turn.flag (.ccr c) ccrRlf } := by
  rw [Read.into, s.load_fields_w1c _ _ (lockFlag_w1c c _ (.inl rfl))]

theorem Read.into_fallFlag :
    Read.into (.fallFlag c) (s.load (.ccr c)).1 loc = { loc with fall := s.turn.flag (.ccr c) ccrFlf } := by
  rw [Read.into, s.load_fields_w1c _ _ (lockFlag_w1c c _ (.inr rfl))]

theorem Read.into_riseCount : Read.into (.riseCount c) (s.load (.crlr c)).1 loc = { loc with off := s.turn.riseCount c } := by
  rw [Read.into, s.load_lockCnt (Reg.ro_crlr c)]
  rfl

theorem Read.into_fallCount : Read.into (.fallCount c) (s.load (.cflr c)).1 loc = { loc with on := s.turn.fallCount c } := by
  rw [Read.into, s.load_lockCnt (Reg.ro_cflr c)]
  rfl

end

/-- A reading command of one load answers with what that load fills, and leaves the window to the Peripheral's one turn. -/
theorem exec_oneLoad {s : State} {ch : Word} {c : Channel} (hs : s.seq = .idle) (hc : ch.toInt = c.val) {i : Instr}
    {x : Channel → Read} {result : Result} {loc : Locals}
    (hl : i.lines = some (withChannel ch fun c => withDst true [.read (x c), .ret result]))
    (hx : (x c).into (s.load (x c).reg).1 {} = loc) :
    ∃ t, exec i s = .next t ∧ Untouched s t 1 [] ∧ Answered s t .ok (result.values loc) [.load (x c).reg] := by
  refine ⟨_, ?_, untouched_load s (x c).reg .ok _, answered_load s (x c).reg .ok _⟩
  rw [exec_onChannel hl hs hc, withDst_true, runLines_read, runLines_ret, State.begin_load, hx]

/-! ## Read-modify-writes, seen from another register -/

theorem State.rmwBit_flag_rw_ne (s : State) {r q : Reg} (i : Nat) (b : Bool) (m : Word) {k : Nat} (hq : q ≠ r)
    (hk : (q.mask .rw).getLsbD k = true) : (s.rmwBit r i b m).flag q k = s.flag q k :=
  s.store_load_flag_rw r q _ k hk fun h => absurd h hq

/-! ## Latches that a change spares (R57, R58) -/

/-- The change leaves the bits that enable channel `d`'s latches. -/
structure Change.SparesLatches (e : Change) (d : Channel) : Prop where
  enable : (e.bits .cer).getLsbD (cerEn d) = false
  riseArm : (e.bits (.ccr d)).getLsbD ccrRiseArm = false
  fallArm : (e.bits (.ccr d)).getLsbD ccrFallArm = false

theorem Change.SparesLatches.armed {e : Change} {d : Channel} (h : e.SparesLatches d) (s : State) :
    (e.apply s).riseArmed d = s.riseArmed d ∧ (e.apply s).fallArmed d = s.fallArmed d := by
  obtain ⟨-, rise_rw, -⟩ := armBit_spec d ccrRiseArm (.inl rfl)
  obtain ⟨-, fall_rw, -⟩ := armBit_spec d ccrFallArm (.inr rfl)
  simp only [State.riseArmed, State.fallArmed, e.apply_flag_rw s _ _ (cerEn_rw d) h.enable, e.apply_flag_rw s _ _ rise_rw h.riseArm,
    e.apply_flag_rw s _ _ fall_rw h.fallArm, and_self]

theorem sparesLatches_write {r : Reg} (v : Word) {d : Channel} (hcer : r ≠ .cer) (hccr : r ≠ .ccr d) :
    (Change.write r v).SparesLatches d := by
  constructor <;> simp [Change.bits, onReg_getLsbD, hcer.symm, hccr.symm]

theorem sparesLatches_rmw {r : Reg} {i : Nat} (b : Bool) {m : Word} {d : Channel}
    (hcer : r = .cer → (bit i ||| m).getLsbD (cerEn d) = false)
    (hccr : r = .ccr d → (bit i ||| m).getLsbD ccrRiseArm = false ∧ (bit i ||| m).getLsbD ccrFallArm = false) :
    (Change.rmw r i b m).SparesLatches d := by
  have outside : ∀ {q : Reg} {k : Nat}, (r = q → (bit i ||| m).getLsbD k = false) → (onReg q r (bit i ||| m)).getLsbD k = false := by
    intro q k h
    rw [onReg_getLsbD, Bool.and_eq_false_imp, decide_eq_true_eq]
    exact fun hq => h hq.symm
  exact ⟨outside hcer, outside fun h => (hccr h).1, outside fun h => (hccr h).2⟩

/-- Everything that channel `d`'s latches write lies in `P`. -/
def LatchesInside (P : List Reg) (d : Channel) : Prop := .crlr d ∈ P ∧ .cflr d ∈ P ∧ .ccr d ∈ P ∧ .cisr ∈ P

section
variable {P : List Reg} {s t : State} (h : SameOutside P s t) {r : Reg} (hr : r ∈ P)
include h hr

theorem SameOutside.write {v : Word} (hl : ∀ d, (Change.write r v).SparesLatches d) : SameOutside P (s.store r v) t.turn :=
  h.store_of_armed r hr v fun d => (hl d).armed s

/-- Outside `P` a read-modify-write inside `P` is two turns, if the latches that it may enable or disable write inside `P`. -/
theorem SameOutside.rmwBit {i : Nat} {b : Bool} {m : Word}
    (hl : ∀ d, (Change.rmw r i b m).SparesLatches d ∨ LatchesInside P d) : SameOutside P (s.rmwBit r i b m) t.turn.turn := by
  have latches : LatchesAlike P (s.rmwBit r i b m) t.turn.turn := by
    intro d
    obtain spared | inside := hl d
    · obtain ⟨rise, fall⟩ : (s.rmwBit r i b m).riseArmed d = s.riseArmed d ∧ (s.rmwBit r i b m).fallArmed d = s.fallArmed d := spared.armed s
      simpa [rise, fall] using h.latches d
    · exact .inr inside
  exact (h.load r).store r hr _ latches

end

/-! ## Accesses under a quiet Peripheral (R55) -/

section
variable {s : State} (h : s.quiet)
include h

theorem State.quiet.turn_flag (r : Reg) (k : Nat) : s.turn.flag r k = s.flag r k := State.flag_of_mem h.turn_mem r k

theorem State.quiet.turn : s.turn.quiet := h.of_tail s.turn_schedule

theorem State.quiet.turns (n : Nat) : (s.turns n).mem = s.mem ∧ (s.turns n).quiet := by
  induction n with
  | zero => exact ⟨rfl, h⟩
  | succ n ih =>
    obtain ⟨same, quiet⟩ := ih
    exact ⟨quiet.turn_mem.trans same, quiet.turn⟩

theorem State.quiet.turns_flag (n : Nat) (r : Reg) (k : Nat) : (s.turns n).flag r k = s.flag r k :=
  State.flag_of_mem (h.turns n).1 r k

theorem State.quiet.load (r : Reg) : (s.load r).2.quiet := h.of_tail (s.load_schedule r)

theorem State.quiet.load_flag (r q : Reg) (k : Nat) : (s.load r).2.flag q k = s.flag q k :=
  (s.load_flag r q k).trans (h.turn_flag q k)

theorem State.quiet.store (r : Reg) (v : Word) : (s.store r v).quiet := h.of_tail (s.store_schedule r v)

theorem State.quiet.store_flag_ne {r q : Reg} (hq : q ≠ r) (v : Word) (k : Nat) : (s.store r v).flag q k = s.flag q k := by
  rw [State.flag, State.store_stored_ne _ _ _ _ hq]
  exact h.turn_flag q k

theorem State.quiet.rmwBit (r : Reg) (i : Nat) (b : Bool) (m : Word) : (s.rmwBit r i b m).quiet := (h.load r).store r _

theorem State.quiet.rmwBit_flag_ne {r q : Reg} (hq : q ≠ r) (i : Nat) (b : Bool) (m : Word) (k : Nat) :
    (s.rmwBit r i b m).flag q k = s.flag q k :=
  ((h.load r).store_flag_ne hq _ k).trans (h.load_flag r q k)

theorem State.quiet.rmwBit_readByte {r : Reg} {a : Nat} (ha : a < r.offset ∨ r.offset + 4 ≤ a) (i : Nat) (b : Bool) (m : Word) :
    (s.rmwBit r i b m).mem.readByte a = s.mem.readByte a := by
  rw [State.rmwBit_readByte _ _ _ _ _ _ ha, (h.turns 2).1]

end

/-! ## The `RW` fields that a command keeps (R17) -/

/-- A command keeps the `RW` fields of the registers in which its rule writes none. -/
theorem exec_keepsRw {i : Instr} {s t : State} (h : exec i s = .next t) {written : List Reg}
    (hw : ∀ r, r ∉ written → i.mayWrite r = 0) : KeepsRw s t written := by
  intro r hr
  ext k hk
  simp only [← BitVec.getLsbD_eq_getElem, BitVec.getLsbD_and]
  by_cases rw_k : (r.mask .rw).getLsbD k = true
  · have kept := commandsChangeOnlyTheirOwnBits s t i h r k rw_k (by rw [hw r hr]; exact BitVec.getLsbD_zero)
    rw [← State.flag, ← State.flag, kept]
  · simp [rw_k]

end Sys2Proof.Machine

open Sys2Proof Sys2Proof.Machine

/-- Settles O34: each command is one load, of flags or of a count register, which the Peripheral alone changes. -/
theorem captureReadsReturnWhatTheLoadFinds : Obligations.CaptureReadsReturnWhatTheLoadFinds := by
  refine ⟨.of_lines (fun _ _ => rfl) fun _ _ => rfl, .of_lines (fun _ _ => rfl) fun _ _ => rfl,
    .of_lines (fun _ _ => rfl) fun _ _ => rfl, .of_lines (fun _ _ => rfl) fun _ _ => rfl,
    .of_lines (fun _ _ => rfl) fun _ _ => rfl, fun s ch c hs hc => ⟨?_, ?_, ?_, ?_, ?_⟩⟩
  · exact exec_oneLoad hs hc (i := .readCaptureInterruptStatus ch true) (x := .pending) rfl (Read.into_pending s c {})
  · exact exec_oneLoad hs hc (i := .readRiseLockCount ch true) (x := .riseCount) rfl (Read.into_riseCount s c {})
  · exact exec_oneLoad hs hc (i := .readFallLockCount ch true) (x := .fallCount) rfl (Read.into_fallCount s c {})
  · exact exec_oneLoad hs hc (i := .readRiseLockFlag ch true) (x := .riseFlag) rfl (Read.into_riseFlag s c {})
  · exact exec_oneLoad hs hc (i := .readFallLockFlag ch true) (x := .fallFlag) rfl (Read.into_fallFlag s c {})

end

section
/-! PROOFS. Arming the capture edges and their interrupts (R86, R87): read-modify-writes in a row, of which only the enable and arm bits change what the Peripheral may latch. -/

namespace Sys2Proof.Machine

/-! ## The bits of `CER`, `CIER` and `CCR` (R20, R25, R30) -/

theorem cierRise_rw (c : Channel) : (Reg.mask .rw .cier).getLsbD (cierRise c) = true := by revert c; decide
theorem cierFall_rw (c : Channel) : (Reg.mask .rw .cier).getLsbD (cierFall c) = true := by revert c; decide

theorem cerEn_inj (d c : Channel) : cerEn d = cerEn c ↔ d = c := Fin.val_inj
theorem cierRise_inj (d c : Channel) : cierRise d = cierRise c ↔ d = c := by rw [cierRise, cierRise, Fin.ext_iff]; omega
theorem cierFall_inj (d c : Channel) : cierFall d = cierFall c ↔ d = c := by rw [cierFall, cierFall, Fin.ext_iff]; omega
theorem cierRise_ne_fall (d c : Channel) : cierRise d ≠ cierFall c := by rw [cierRise, cierFall]; omega

theorem sparesLatches_cer {c d : Channel} (b : Bool) (h : d ≠ c) : (Change.rmw .cer (cerEn c) b 0).SparesLatches d :=
  sparesLatches_rmw b (fun _ => by simp [bit_getLsbD _ _ (BitVec.lt_of_getLsbD (cerEn_rw c)), cerEn_inj, h]) nofun

theorem sparesLatches_ccr {c d : Channel} (i : Nat) (b : Bool) (m : Word) (h : d ≠ c) : (Change.rmw (.ccr c) i b m).SparesLatches d :=
  sparesLatches_rmw b nofun fun same => absurd (Reg.ccr.inj same).symm h

/-! ## setCaptureEnable as an operation (R86) -/

/-- The three read-modify-writes of setCaptureEnable: the enable bit, the rising arm bit, the falling one. -/
def State.armEdges (s : State) (c : Channel) (rising falling : Bool) : State :=
  ((s.rmwBit .cer (cerEn c) (rising || falling) 0).rmwBit (.ccr c) ccrRiseArm rising ccrW1c).rmwBit (.ccr c) ccrFallArm falling ccrW1c

theorem runLines_setCaptureEnable (cmd : Instr) (rest : List Line) (loc : Locals) (s : State) (c : Channel) (rising falling : Bool) :
    ∃ w, runLines cmd (linesSetCaptureEnable c rising falling ++ rest) loc s =
      runLines cmd rest { loc with w := w } (s.armEdges c rising falling) :=
  ⟨_, rfl⟩

section
variable (s : State) (c : Channel) (rising falling : Bool)

theorem State.armEdges_enable (d : Channel) :
    (s.armEdges c rising falling).flag .cer (cerEn d) = if d = c then rising || falling else s.flag .cer (cerEn d) := by
  have ne : Reg.cer ≠ .ccr c := nofun
  rw [State.armEdges, State.rmwBit_flag_rw_ne _ _ _ _ ne (cerEn_rw d), State.rmwBit_flag_rw_ne _ _ _ _ ne (cerEn_rw d),
    State.rmwBit_flag_rw _ _ _ _ _ _ (BitVec.lt_of_getLsbD (cerEn_rw c)) (cerEn_rw d)]
  simp [cerEn_inj]

theorem State.armEdges_fallArm : (s.armEdges c rising falling).flag (.ccr c) ccrFallArm = falling := by
  obtain ⟨inWord, fall_rw, -⟩ := armBit_spec c ccrFallArm (.inr rfl)
  rw [State.armEdges, State.rmwBit_flag_rw _ _ _ _ _ _ inWord fall_rw, if_pos rfl]

theorem State.armEdges_riseArm : (s.armEdges c rising falling).flag (.ccr c) ccrRiseArm = rising := by
  obtain ⟨inWord, rise_rw, unmasked, -⟩ := armBit_spec c ccrRiseArm (.inl rfl)
  rw [State.armEdges, State.rmwBit_flag_rw _ _ _ _ _ _ (by decide) rise_rw, State.rmwBit_flag_rw _ _ _ _ _ _ inWord rise_rw,
    if_pos rfl, if_neg (by decide), unmasked, Bool.not_false, Bool.and_true]

theorem InProgress.armEdges {s t : State} {accesses : List Access} (h : InProgress s t accesses) :
    InProgress s (t.armEdges c rising falling)
      (accesses ++ [.load .cer] ++ [.store .cer] ++ [.load (.ccr c)] ++ [.store (.ccr c)] ++ [.load (.ccr c)] ++ [.store (.ccr c)]) :=
  ((h.rmwBit _ _ _ _).rmwBit _ _ _ _).rmwBit _ _ _ _

/-- The arming is six turns outside its own two registers and what the channel's own latches write. -/
theorem SameOutside.armEdges {P : List Reg} {s t : State} (h : SameOutside P s t) (hcer : .cer ∈ P) (hP : LatchesInside P c) :
    SameOutside P (s.armEdges c rising falling) (t.turns 6) := by
  obtain ⟨-, -, hccr, -⟩ := id hP
  have others : ∀ {e : Change}, (∀ d, d ≠ c → e.SparesLatches d) → ∀ d, e.SparesLatches d ∨ LatchesInside P d := by
    intro e spared d
    by_cases own : d = c
    · exact .inr (own ▸ hP)
    · exact .inl (spared d own)
  exact ((h.rmwBit hcer (others fun _ => sparesLatches_cer _)).rmwBit hccr (others fun _ => sparesLatches_ccr _ _ _)).rmwBit hccr
    (others fun _ => sparesLatches_ccr _ _ _)

end

section
variable {s : State} (h : s.quiet) (c : Channel) (rising falling : Bool)
include h

theorem State.quiet.armEdges_agree : AgreeUpTo [.cer, .ccr c] (s.armEdges c rising falling) s := by
  intro a ha
  have outCer := ha .cer (by simp)
  have outCcr := ha (.ccr c) (by simp)
  rw [State.armEdges, ((h.rmwBit _ _ _ _).rmwBit _ _ _ _).rmwBit_readByte outCcr, (h.rmwBit _ _ _ _).rmwBit_readByte outCcr,
    h.rmwBit_readByte outCer]

/-- The arm bits are set with the lock flags masked out, so nothing clears them (R46). -/
theorem State.quiet.armEdges_lockFlag {k : Nat} (hk : k = ccrRlf ∨ k = ccrFlf) :
    (s.armEdges c rising falling).flag (.ccr c) k = s.flag (.ccr c) k := by
  obtain ⟨-, -, -, riseMask⟩ := armBit_spec c ccrRiseArm (.inl rfl)
  obtain ⟨-, -, -, fallMask⟩ := armBit_spec c ccrFallArm (.inr rfl)
  have flag_k := lockFlag_w1c c k hk
  have ne : Reg.ccr c ≠ .cer := nofun
  rw [State.armEdges, State.rmwBit_flag_w1c_masked _ _ _ _ _ _ fallMask flag_k, ((h.rmwBit _ _ _ _).rmwBit _ _ _ _).turns_flag,
    State.rmwBit_flag_w1c_masked _ _ _ _ _ _ riseMask flag_k, (h.rmwBit _ _ _ _).turns_flag, h.rmwBit_flag_ne ne]

end

/-! ## The commands as operations -/

section
variable {s : State} {ch : Word} {c : Channel} (hs : s.seq = .idle) (hc : ch.toInt = c.val) (rising falling : Bool)
include hs hc

theorem exec_setCaptureEnable :
    exec (.setCaptureEnable ch rising falling) s = .next ((s.begin.armEdges c rising falling).finish .ok []) := by
  obtain ⟨w, run⟩ := runLines_setCaptureEnable (.setCaptureEnable ch rising falling) [] {} s.begin c rising falling
  rw [exec_onChannel rfl hs hc, ← List.append_nil (linesSetCaptureEnable _ _ _), run, runLines_nil]

theorem exec_setCaptureInterruptEnable :
    exec (.setCaptureInterruptEnable ch rising falling) s =
      .next (((s.begin.rmwBit .cier (cierRise c) rising 0).rmwBit .cier (cierFall c) falling 0).finish .ok []) := by
  rw [exec_onChannel rfl hs hc, linesSetCaptureInterruptEnable, runLines_rmw, ← List.append_nil (rmwLines _ _ _ _), runLines_rmw,
    runLines_nil]

end

/-- Outside `CER` and the channel's own `CCR` setCaptureEnable may write no `RW` bit. -/
theorem mayWrite_setCaptureEnable {ch : Word} {c : Channel} (hc : ch.toInt = c.val) (rising falling : Bool) {r : Reg}
    (hr : r ∉ [.cer, .ccr c]) : (Instr.setCaptureEnable ch rising falling).mayWrite r = 0 := by
  simp only [List.mem_cons, List.not_mem_nil, or_false, not_or] at hr
  obtain ⟨hcer, hccr⟩ := hr
  rw [mayWrite_of_channel rfl ((channel?_eq_some ch c).2 hc), Instr.writesOn, onReg, onReg, if_neg hcer, if_neg hccr]
  rfl

/-- The two read-modify-writes of `CIER` leave every interrupt enable bit but the one that each sets. -/
theorem State.rmwBit_cier (s : State) {i j k : Nat} (b b' : Bool) (hi : i < 32) (hj : j < 32) (hk : (Reg.mask .rw .cier).getLsbD k = true) :
    ((s.rmwBit .cier i b 0).rmwBit .cier j b' 0).flag .cier k = if k = j then b' else if k = i then b else s.flag .cier k := by
  rw [State.rmwBit_flag_rw _ _ _ _ _ _ hj hk, State.rmwBit_flag_rw _ _ _ _ _ _ hi hk]
  simp

end Sys2Proof.Machine

open Sys2Proof Sys2Proof.Machine

/-- Settles O31: the command is three read-modify-writes, and only its own channel's latches change with them. -/
theorem setCaptureEnableArmsTheEdges : Obligations.SetCaptureEnableArmsTheEdges := by
  refine ⟨fun _ _ => .of_lines (fun _ => rfl) fun _ => rfl, fun s ch c rising falling hs hc => ?_⟩
  have run := exec_setCaptureEnable hs hc rising falling
  refine ⟨_, run, ((InProgress.begin s).armEdges c rising falling).finish _ _, s.begin.armEdges_enable c rising falling,
    s.begin.armEdges_riseArm c rising falling, s.begin.armEdges_fallArm c rising falling,
    exec_keepsRw run fun _ => mayWrite_setCaptureEnable hc rising falling, ?_, onlyClearingCommandsClearFlags _ _ _ run rfl,
    fun quiet => ⟨?_, ?_, ?_⟩⟩
  · exact ((SameOutside.begin _ s).armEdges c rising falling (by simp) (by simp [LatchesInside])).agree
  · exact State.quiet.armEdges_agree (s := s.begin) quiet c rising falling
  · exact State.quiet.armEdges_lockFlag (s := s.begin) quiet c rising falling (.inl rfl)
  · exact State.quiet.armEdges_lockFlag (s := s.begin) quiet c rising falling (.inr rfl)

/-- Settles O32: both read-modify-writes are of `CIER`, whose sixteen bits are `RW` and enable no latch. -/
theorem setCaptureInterruptEnableChangesCier : Obligations.SetCaptureInterruptEnableChangesCier := by
  refine ⟨fun _ _ => .of_lines (fun _ => rfl) fun _ => rfl, fun s ch c rising falling hs hc => ?_⟩
  have rise_lt := BitVec.lt_of_getLsbD (cierRise_rw c)
  have fall_lt := BitVec.lt_of_getLsbD (cierFall_rw c)
  have spared : ∀ (i : Nat) (b : Bool) (d : Channel), (Change.rmw .cier i b 0).SparesLatches d := fun _ b _ => sparesLatches_rmw b nofun nofun
  have outside := ((SameOutside.begin [.cier] s).rmwBit (List.mem_singleton_self _) fun d => .inl (spared (cierRise c) rising d)).rmwBit
    (List.mem_singleton_self _) fun d => .inl (spared (cierFall c) falling d)
  refine ⟨_, exec_setCaptureInterruptEnable hs hc rising falling, (((InProgress.begin s).rmwBit _ _ _ _).rmwBit _ _ _ _).finish _ _,
    outside.agree, fun d => ⟨?_, ?_⟩⟩
  · rw [State.finish_flag, State.rmwBit_cier _ _ _ rise_lt fall_lt (cierRise_rw d), if_neg (cierRise_ne_fall d c), State.begin_flag]
    simp only [cierRise_inj]
  · rw [State.finish_flag, State.rmwBit_cier _ _ _ rise_lt fall_lt (cierFall_rw d), if_neg (cierRise_ne_fall c d).symm, State.begin_flag]
    simp only [cierFall_inj]

end

section
/-! PROOFS. Clearing the capture flags (R88): the clear of one edge as an operation, which flags it clears and which it keeps, and the clear of the requested edges. -/

namespace Sys2Proof.Machine

/-! ## The clear of one edge -/

/-- The two edges that a capture channel latches (R57, R58). -/
inductive Edge where
  | rise | fall

/-- The edge's pending bit in `CISR` (R21). -/
def Edge.pending (e : Edge) (c : Channel) : Nat :=
  match e with
  | .rise => cisrRise c
  | .fall => cisrFall c

/-- The edge's lock flag in `CCR` (R30). -/
def Edge.lock : Edge → Nat
  | .rise => ccrRlf
  | .fall => ccrFlf

/-- The flag is one of the two that the edge's latch on channel `c` sets: its pending bit or its lock flag. -/
def Edge.sets (e : Edge) (c : Channel) (r : Reg) (k : Nat) : Bool := decide (r = .cisr ∧ k = e.pending c ∨ r = .ccr c ∧ k = e.lock)

theorem Edge.pending_lt (e : Edge) (c : Channel) : e.pending c < 32 := by
  cases e
  · exact cisrRise_lt c
  · exact cisrFall_lt c

@[simp] theorem Edge.sets_ccr (e : Edge) (c : Channel) (k : Nat) : e.sets c (.ccr c) k = decide (k = e.lock) := by simp [Edge.sets]
@[simp] theorem Edge.sets_cisr (e : Edge) (c : Channel) (k : Nat) : e.sets c .cisr k = decide (k = e.pending c) := by simp [Edge.sets]

theorem Edge.and_sets_cisr {b : Bool} {e : Edge} {c : Channel} {k : Nat} :
    (b && e.sets c .cisr k) = false ↔ ¬(b = true ∧ k = e.pending c) := by
  simp

theorem Edge.lock_spec (e : Edge) :
    e.lock < 32 ∧ (bit e.lock ||| ccrW1c).getLsbD ccrRiseArm = false ∧ (bit e.lock ||| ccrW1c).getLsbD ccrFallArm = false := by
  cases e <;> decide

/-- Every lock flag is masked, so the word written to `CCR` has a 1 at the edge's own flag alone (R46, D22). -/
theorem Edge.lock_word (e : Edge) {c : Channel} (w : Word) {k : Nat} (hk : ((Reg.ccr c).mask .w1c).getLsbD k = true) :
    (setBit w e.lock true ccrW1c).getLsbD k = decide (k = e.lock) := by
  obtain ⟨inWord, -⟩ := e.lock_spec
  have masked : ccrW1c.getLsbD k = true := by rwa [Reg.w1c_ccr] at hk
  rw [setBit_getLsbD _ _ _ _ _ inWord, masked]
  by_cases own : k = e.lock <;> simp [own]

/-- The clear of one edge on a channel: its pending bit, then its lock flag (R88). -/
def State.clearEdge (s : State) (c : Channel) (e : Edge) : State :=
  (s.store .cisr (bit (e.pending c))).rmwBit (.ccr c) e.lock true ccrW1c

/-- The clear of one edge keeps every flag that the edge's latch does not set, whatever the Peripheral does. -/
theorem State.clearEdge_keeps (s : State) (c : Channel) (e : Edge) {r : Reg} {k : Nat} (hk : (r.mask .w1c).getLsbD k = true)
    (other : e.sets c r k = false) (h : s.flag r k = true) : (s.clearEdge c e).flag r k = true := by
  have stored : (s.store .cisr (bit (e.pending c))).flag r k = true := by
    refine s.store_w1c .cisr r _ k hk h fun hr => ?_
    subst hr
    rwa [bit_getLsbD _ _ (e.pending_lt c), ← e.sets_cisr c]
  refine State.store_w1c _ (.ccr c) r _ k hk (State.load_w1c _ _ r k hk stored) fun hr => ?_
  subst hr
  rwa [e.lock_word _ hk, ← e.sets_ccr c]

/-- Under a quiet Peripheral the clear of one edge clears the two flags that the edge's latch sets, and no other. -/
theorem State.quiet.clearEdge_flag {s : State} (h : s.quiet) (c : Channel) (e : Edge) {r : Reg} {k : Nat}
    (hk : (r.mask .w1c).getLsbD k = true) : (s.clearEdge c e).flag r k = (!e.sets c r k && s.flag r k) := by
  have hstore := h.store .cisr (bit (e.pending c))
  rw [State.clearEdge]
  by_cases ccr : r = .ccr c
  · subst ccr
    have ne : Reg.ccr c ≠ .cisr := nofun
    rw [State.rmwBit, State.store_flag_w1c _ _ _ _ hk, e.lock_word _ hk, (hstore.load _).turn_flag, hstore.load_flag, h.store_flag_ne ne,
      e.sets_ccr, Bool.and_comm]
  rw [hstore.rmwBit_flag_ne ccr]
  by_cases cisr : r = .cisr
  · subst cisr
    rw [State.store_flag_w1c _ _ _ _ hk, h.turn_flag, bit_getLsbD _ _ (e.pending_lt c), e.sets_cisr, Bool.and_comm]
  · rw [h.store_flag_ne cisr, Edge.sets, decide_eq_false (by simp [ccr, cisr]), Bool.not_false, Bool.true_and]

theorem State.quiet.clearEdge {s : State} (h : s.quiet) (c : Channel) (e : Edge) : (s.clearEdge c e).quiet :=
  (h.store _ _).rmwBit _ _ _ _

theorem InProgress.clearEdge {s t : State} {accesses : List Access} (h : InProgress s t accesses) (c : Channel) (e : Edge) :
    InProgress s (t.clearEdge c e) (accesses ++ [.store .cisr] ++ [.load (.ccr c)] ++ [.store (.ccr c)]) :=
  (h.store _ _).rmwBit _ _ _ _

/-- The clear of one edge is three turns outside its two registers: it arms and disarms nothing. -/
theorem SameOutside.clearEdge {P : List Reg} {s t : State} (h : SameOutside P s t) (c : Channel) (e : Edge) (hcisr : .cisr ∈ P)
    (hccr : .ccr c ∈ P) : SameOutside P (s.clearEdge c e) (t.turns 3) := by
  obtain ⟨-, riseArm, fallArm⟩ := e.lock_spec
  exact (h.write hcisr fun _ => sparesLatches_write _ nofun nofun).rmwBit hccr fun _ =>
    .inl (sparesLatches_rmw _ nofun fun _ => ⟨riseArm, fallArm⟩)

/-! ## The clear of an edge if it is requested -/

/-- The clear of one edge if it is requested. -/
def State.clearEdgeIf (s : State) (b : Bool) (c : Channel) (e : Edge) : State := if b then s.clearEdge c e else s

section
variable {s t : State} (b : Bool) (c : Channel) (e : Edge)

theorem State.clearEdgeIf_keeps {r : Reg} {k : Nat} (hk : (r.mask .w1c).getLsbD k = true)
    (other : (b && e.sets c r k) = false) (h : s.flag r k = true) : (s.clearEdgeIf b c e).flag r k = true := by
  cases b
  · exact h
  · exact s.clearEdge_keeps c e hk other h

theorem State.quiet.clearEdgeIf_flag (h : s.quiet) {r : Reg} {k : Nat} (hk : (r.mask .w1c).getLsbD k = true) :
    (s.clearEdgeIf b c e).flag r k = (!(b && e.sets c r k) && s.flag r k) := by
  cases b
  · rfl
  · exact h.clearEdge_flag c e hk

theorem State.quiet.clearEdgeIf (h : s.quiet) : (s.clearEdgeIf b c e).quiet := by
  cases b
  · exact h
  · exact h.clearEdge c e

theorem InProgress.clearEdgeIf {accesses : List Access} (h : InProgress s t accesses) :
    InProgress s (t.clearEdgeIf b c e) (accesses ++ if b then [.store .cisr, .load (.ccr c), .store (.ccr c)] else []) := by
  cases b
  · rwa [if_neg Bool.false_ne_true, List.append_nil]
  · simpa [State.clearEdgeIf] using h.clearEdge c e

theorem SameOutside.clearEdgeIf {P : List Reg} {n : Nat} (h : SameOutside P t (s.turns n)) (hcisr : .cisr ∈ P) (hccr : .ccr c ∈ P) :
    SameOutside P (t.clearEdgeIf b c e) (s.turns (n + if b then 3 else 0)) := by
  cases b
  · exact h
  · exact h.clearEdge c e hcisr hccr

end

/-! ## The clear of the requested edges (R88) -/

/-- The clear of the requested edges, rising first. -/
def State.clearEdges (s : State) (c : Channel) (rising falling : Bool) : State :=
  (s.clearEdgeIf rising c .rise).clearEdgeIf falling c .fall

theorem runLines_clearCaptureInterrupt (cmd : Instr) (rest : List Line) (loc : Locals) (s : State) (c : Channel) (rising falling : Bool) :
    ∃ w, runLines cmd (linesClearCaptureInterrupt c rising falling ++ rest) loc s =
      runLines cmd rest { loc with w := w } (s.clearEdges c rising falling) := by
  cases rising <;> cases falling <;> exact ⟨_, rfl⟩

section
variable {s : State} (c : Channel) (rising falling : Bool)

theorem State.clearEdges_keeps {r : Reg} {k : Nat} (hk : (r.mask .w1c).getLsbD k = true)
    (notRise : (rising && Edge.rise.sets c r k) = false) (notFall : (falling && Edge.fall.sets c r k) = false) (h : s.flag r k = true) :
    (s.clearEdges c rising falling).flag r k = true :=
  State.clearEdgeIf_keeps falling c .fall hk notFall (State.clearEdgeIf_keeps rising c .rise hk notRise h)

theorem State.quiet.clearEdges_flag (h : s.quiet) {r : Reg} {k : Nat} (hk : (r.mask .w1c).getLsbD k = true) :
    (s.clearEdges c rising falling).flag r k =
      (!(falling && Edge.fall.sets c r k) && (!(rising && Edge.rise.sets c r k) && s.flag r k)) := by
  rw [State.clearEdges, (h.clearEdgeIf rising c .rise).clearEdgeIf_flag falling c .fall hk, h.clearEdgeIf_flag rising c .rise hk]

end

/-! ## The bits of the two edges are four different flags -/

theorem cisrRise_inj (d c : Channel) : cisrRise d = cisrRise c ↔ d = c := cierRise_inj d c
theorem cisrFall_inj (d c : Channel) : cisrFall d = cisrFall c ↔ d = c := cierFall_inj d c
theorem cisrRise_ne_fall (d c : Channel) : cisrRise d ≠ cisrFall c := cierRise_ne_fall d c

section
variable {s : State} (h : s.quiet) (c : Channel) (rising falling : Bool)
include h

theorem State.quiet.clearEdges_risePending (d : Channel) :
    (s.clearEdges c rising falling).flag .cisr (cisrRise d) = (!(rising && decide (d = c)) && s.flag .cisr (cisrRise d)) := by
  rw [h.clearEdges_flag c rising falling (cisr_w1c (cisrRise_lt_half d))]
  simp [Edge.pending, cisrRise_inj, cisrRise_ne_fall]

theorem State.quiet.clearEdges_fallPending (d : Channel) :
    (s.clearEdges c rising falling).flag .cisr (cisrFall d) = (!(falling && decide (d = c)) && s.flag .cisr (cisrFall d)) := by
  rw [h.clearEdges_flag c rising falling (cisr_w1c (cisrFall_lt_half d))]
  simp [Edge.pending, cisrFall_inj, (cisrRise_ne_fall c d).symm]

theorem State.quiet.clearEdges_riseLock :
    (s.clearEdges c rising falling).flag (.ccr c) ccrRlf = (!rising && s.flag (.ccr c) ccrRlf) := by
  rw [h.clearEdges_flag c rising falling (lockFlag_w1c c _ (.inl rfl))]
  simp [Edge.lock, ccrRlf, ccrFlf]

theorem State.quiet.clearEdges_fallLock :
    (s.clearEdges c rising falling).flag (.ccr c) ccrFlf = (!falling && s.flag (.ccr c) ccrFlf) := by
  rw [h.clearEdges_flag c rising falling (lockFlag_w1c c _ (.inr rfl))]
  simp [Edge.lock, ccrRlf, ccrFlf]

end

/-! ## The command as an operation -/

theorem exec_clearCaptureInterrupt {s : State} {ch : Word} {c : Channel} (hs : s.seq = .idle) (hc : ch.toInt = c.val) (rising falling : Bool) :
    exec (.clearCaptureInterrupt ch rising falling) s = .next ((s.begin.clearEdges c rising falling).finish .ok []) := by
  obtain ⟨w, run⟩ := runLines_clearCaptureInterrupt (.clearCaptureInterrupt ch rising falling) [] {} s.begin c rising falling
  rw [exec_onChannel rfl hs hc, ← List.append_nil (linesClearCaptureInterrupt _ _ _), run, runLines_nil]

end Sys2Proof.Machine

open Sys2Proof Sys2Proof.Machine

/-- Settles O33: the command clears the requested edges one after the other, and each clear stores a 1 to the two flags of its edge alone. -/
theorem clearCaptureInterruptClearsOnlyWhatIsRequested : Obligations.ClearCaptureInterruptClearsOnlyWhatIsRequested := by
  refine ⟨fun _ _ => .of_lines (fun _ => rfl) fun _ => rfl, fun s ch c rising falling hs hc => ?_⟩
  have run := exec_clearCaptureInterrupt hs hc rising falling
  have outside := ((SameOutside.begin [.cisr, .ccr c] s).clearEdgeIf rising c .rise (by simp) (by simp)).clearEdgeIf falling c .fall
    (by simp) (by simp)
  refine ⟨_, run, (((InProgress.begin s).clearEdgeIf rising c .rise).clearEdgeIf falling c .fall).finish _ _,
    exec_keepsRw run fun r _ => mayWrite_of_channel rfl ((channel?_eq_some ch c).2 hc) r, ?_, ?_, ?_, ?_, fun quiet => ?_⟩
  · rw [Nat.zero_add] at outside
    exact outside.agree
  · intro k hk notRise notFall
    exact s.begin.clearEdges_keeps c rising falling (cisr_w1c hk) (Edge.and_sets_cisr.2 notRise) (Edge.and_sets_cisr.2 notFall)
  · rintro rfl
    exact s.begin.clearEdges_keeps c false falling (lockFlag_w1c c _ (.inl rfl)) rfl (by simp [Edge.lock, ccrRlf, ccrFlf])
  · rintro rfl
    exact s.begin.clearEdges_keeps c rising false (lockFlag_w1c c _ (.inr rfl)) (by simp [Edge.lock, ccrRlf, ccrFlf]) rfl
  · have begun : s.begin.quiet := quiet
    exact ⟨fun d => ⟨begun.clearEdges_risePending c rising falling d, begun.clearEdges_fallPending c rising falling d⟩,
      begun.clearEdges_riseLock c rising falling, begun.clearEdges_fallLock c rising falling⟩

end

section
/-! PROOFS. The path of captureBlocking that ends (R94, R99): its loop goes on once both lock flags are seen set, and the clear of both edges rearms the channel. -/

namespace Sys2Proof.Machine

/-! ## The capture loop (R99) -/

/-- The state after the two loads of the capture loop. -/
def State.capturePolled (s : State) (c : Channel) : State := ((s.load (.ccr c)).2.load (.ccr c)).2

/-- The locals after the two loads of the capture loop. -/
def State.captureLocals (s : State) (c : Channel) (loc : Locals) : Locals :=
  { loc with fall := s.turn.flag (.ccr c) ccrFlf, rise := (s.turns 2).flag (.ccr c) ccrRlf }

section
variable (cmd : Instr) (rest : List Line) (loc : Locals) (s : State) (c : Channel)

theorem runLines_captureLoop :
    runLines cmd (captureLoop c ++ rest) loc s =
      if s.turn.flag (.ccr c) ccrFlf && (s.turns 2).flag (.ccr c) ccrRlf then
        runLines cmd rest (s.captureLocals c loc) (s.capturePolled c)
      else (s.capturePolled c).sleep cmd (captureLoop c ++ rest) (s.captureLocals c loc) Config.capturePoll := by
  have locals : Read.into (.riseFlag c) ((s.load (.ccr c)).2.load (.ccr c)).1 (Read.into (.fallFlag c) (s.load (.ccr c)).1 loc) =
      s.captureLocals c loc := by
    rw [Read.into_fallFlag, Read.into_riseFlag, State.load_turn_flag]
    rfl
  have polled : runLines cmd (captureLoop c ++ rest) loc s =
      runLines cmd (.waitCapture c :: rest) (s.captureLocals c loc) (s.capturePolled c) := by
    rw [← locals]
    rfl
  exact polled.trans (runLines_waitCapture cmd c rest _ _)

/-- The two counts are read one after the other, the fall count first (R99). -/
theorem runLines_captureCounts :
    runLines cmd (.read (.fallCount c) :: .read (.riseCount c) :: rest) loc s =
      runLines cmd rest { loc with on := (s.turns 1).fallCount c, off := (s.turns 2).riseCount c } ((s.load (.cflr c)).2.load (.crlr c)).2 := by
  have locals : Read.into (.riseCount c) ((s.load (.cflr c)).2.load (.crlr c)).1 (Read.into (.fallCount c) (s.load (.cflr c)).1 loc) =
      { loc with on := (s.turns 1).fallCount c, off := (s.turns 2).riseCount c } := by
    rw [Read.into_fallCount, Read.into_riseCount, State.riseCount, State.load_turn_stored]
    rfl
  rw [← locals]
  rfl

end

/-! ## The path that ends, as an operation -/

/-- Turns after a load are those after the turn before it. -/
theorem State.load_turns (s : State) (r : Reg) (n : Nat) : (s.load r).2.turns n = (s.turns (n + 1)).countLoad.note (.load r) := by
  induction n with
  | zero => rfl
  | succ n ih => rw [State.turns_succ, ih, State.turn_note, State.turn_countLoad, State.turns_succ s (n + 1)]

theorem State.capturePolled_turns_stored (s : State) (c : Channel) (n : Nat) (r : Reg) :
    ((s.capturePolled c).turns n).stored r = (s.turns (n + 2)).stored r := by
  rw [State.capturePolled, State.load_turns, State.note_stored, State.countLoad_stored, State.load_turns]
  rfl

/-- The state after the four loads of a captureBlocking that ends: the loop's two, then the two counts. -/
def State.captured (s : State) (c : Channel) : State := (((s.capturePolled c).load (.cflr c)).2.load (.crlr c)).2

theorem exec_captureBlocking_ends {s : State} {ch : Word} {c : Channel} (hs : s.seq = .idle) (hc : ch.toInt = c.val)
    (fall : s.turn.flag (.ccr c) ccrFlf = true) (rise : (s.turns 2).flag (.ccr c) ccrRlf = true) :
    exec (.captureBlocking ch true) s = .next (((s.begin.captured c).clearEdges c true true).finish .ok
      [.cyc16 ((s.turns 3).fallCount c), .cyc16 ((s.turns 4).riseCount c)]) := by
  have seen : (s.begin.turn.flag (.ccr c) ccrFlf && (s.begin.turns 2).flag (.ccr c) ccrRlf) = true := by
    rw [State.turn_begin, State.turns_begin, State.begin_flag, State.begin_flag, fall, rise]
    rfl
  have fallCount : ((s.begin.capturePolled c).turns 1).fallCount c = (s.turns 3).fallCount c := by
    rw [State.fallCount, State.capturePolled_turns_stored, State.turns_begin]
    rfl
  have riseCount : ((s.begin.capturePolled c).turns 2).riseCount c = (s.turns 4).riseCount c := by
    rw [State.riseCount, State.capturePolled_turns_stored, State.turns_begin]
    rfl
  obtain ⟨w, cleared⟩ := runLines_clearCaptureInterrupt (.captureBlocking ch true) [.ret .counts]
    { s.begin.captureLocals c {} with on := (s.turns 3).fallCount c, off := (s.turns 4).riseCount c } (s.begin.captured c) c true true
  rw [exec_onChannel rfl hs hc, withDst_true, linesCaptureBlocking, List.append_assoc, List.append_assoc, runLines_captureLoop, if_pos seen,
    List.cons_append, List.singleton_append, runLines_captureCounts, fallCount, riseCount]
  exact congrArg _ (cleared.trans (runLines_ret ..))

theorem State.quiet.captured {s : State} (h : s.quiet) (c : Channel) : (s.captured c).quiet :=
  (((h.load _).load _).load _).load _

/-- The command writes no `RW` bit. -/
theorem mayWrite_captureBlocking {ch : Word} {c : Channel} (hc : ch.toInt = c.val) (r : Reg) :
    (Instr.captureBlocking ch true).mayWrite r = 0 :=
  mayWrite_of_channel rfl ((channel?_eq_some ch c).2 hc) r

end Sys2Proof.Machine

open Sys2Proof Sys2Proof.Machine

/-- Settles O43: the loop sees both lock flags set, the clear of both edges clears them, and no `RW` bit changes, so the channel is still enabled and armed. -/
theorem captureBlockingRearms : Obligations.CaptureBlockingRearms := by
  intro s t ch c hs hc quiet enabled armed both hexec
  have kept : ∀ (r : Reg) (k : Nat), (r.mask .rw).getLsbD k = true → t.flag r k = s.flag r k := fun r k hk =>
    commandsChangeOnlyTheirOwnBits s t _ hexec r k hk (by rw [mayWrite_captureBlocking hc]; exact BitVec.getLsbD_zero)
  obtain ⟨riseSet, fallSet⟩ : s.flag (.ccr c) ccrRlf = true ∧ s.flag (.ccr c) ccrFlf = true := by
    simpa [CaptureState.holds] using both
  have ends := exec_captureBlocking_ends hs hc ((quiet.turn_flag _ _).trans fallSet) ((quiet.turns_flag 2 _ _).trans riseSet)
  have loaded : (s.begin.captured c).quiet := State.quiet.captured (s := s.begin) quiet c
  obtain ⟨riseClear, fallClear⟩ : t.flag (.ccr c) ccrRlf = false ∧ t.flag (.ccr c) ccrFlf = false := by
    obtain rfl := Host.Outcome.next.inj (ends.symm.trans hexec)
    exact ⟨loaded.clearEdges_riseLock c true true, loaded.clearEdges_fallLock c true true⟩
  obtain ⟨-, riseArm_rw, -⟩ := armBit_spec c ccrRiseArm (.inl rfl)
  obtain ⟨-, fallArm_rw, -⟩ := armBit_spec c ccrFallArm (.inr rfl)
  have stillEnabled : t.captureMode c = true := (kept .cer _ (cerEn_rw c)).trans enabled
  simp [CaptureState.holds, stillEnabled, kept _ _ riseArm_rw, kept _ _ fallArm_rw, armed, riseClear, fallClear]

end

section
/-! PROOFS. The commands that compute from the clock configuration (R96, R100 to R103): the period in exact numbers, its bounds, and the loads that a command makes before it computes. -/

namespace Sys2Proof.Machine

/-! ## The period in nanoseconds (R100) -/

/-- For the two sources the quotient is in lowest terms, as R100 gives it. -/
theorem periodNs_crystal (d p : Nat) : periodNs 0 d p = 125 * (1 + p) * 2 ^ d / 3 := by
  have common : 1000000000 * (1 + p) * 2 ^ d = 8000000 * (125 * (1 + p) * 2 ^ d) := by ring
  rw [periodNs, common]
  exact Nat.mul_div_mul_left (m := 8000000) _ 3 (by decide)

theorem periodNs_bus (d p : Nat) : periodNs 1 d p = 10 * (1 + p) * 2 ^ d := by
  have common : 1000000000 * (1 + p) * 2 ^ d = 100000000 * (10 * (1 + p) * 2 ^ d) := by ring
  rw [periodNs, common]
  exact Nat.mul_div_cancel_left _ (by decide)

/-- The cycles of the source in one counted cycle are at least one, and at most those of the largest prescaler and divider (R22, R26). -/
theorem scale_bounds {d p : Nat} (hd : d ≤ 8) (hp : p < 256) : 1 ≤ (1 + p) * 2 ^ d ∧ (1 + p) * 2 ^ d ≤ 65536 :=
  ⟨Nat.mul_pos (by omega) (Nat.two_pow_pos d),
    Nat.mul_le_mul (show 1 + p ≤ 256 by omega) (Nat.pow_le_pow_right (by decide) hd : 2 ^ d ≤ 2 ^ 8)⟩

theorem periodNs_bounds {source d p : Nat} (hs : source ≤ 1) (hd : d ≤ 8) (hp : p < 256) :
    10 ≤ periodNs source d p ∧ periodNs source d p ≤ 2730666 := by
  obtain ⟨least, most⟩ := scale_bounds hd hp
  obtain rfl | rfl := Nat.le_one_iff_eq_zero_or_eq_one.1 hs
  · rw [periodNs_crystal, Nat.mul_assoc]
    omega
  · rw [periodNs_bus, Nat.mul_assoc]
    omega

/-- What the exact results of R101 to R103 are computed from: the period of a channel's live configuration. -/
def State.periodNs (s : State) (c : Channel) : Nat :=
  Machine.periodNs (s.source c.pair).toNat (s.divider c.pair).toNat (s.prescaler c).toNat

theorem State.periodNs_bounds (s : State) (c : Channel) (hd : (s.divider c.pair).toNat ≤ 8) :
    10 ≤ s.periodNs c ∧ s.periodNs c ≤ 2730666 :=
  Machine.periodNs_bounds (Bool.toNat_le _) hd (s.prescaler c).isLt

/-! ## The 64-bit results hold the exact numbers (R101, R103) -/

/-- A count of 16 bits times a period is far below 2^64. -/
theorem countNs_toNat (count : Half) {period : Nat} (h : period ≤ 2730666) : (countNs count period).toNat = count.toNat * period := by
  have below : count.toNat * period ≤ 65535 * 2730666 := Nat.mul_le_mul (Nat.le_of_lt_succ count.isLt) h
  rw [countNs, BitVec.toNat_ofNat]
  exact Nat.mod_eq_of_lt (Nat.lt_of_le_of_lt below (by decide))

theorem frequencyHz_toNat (period : Nat) (entire : Half) :
    (frequencyHz period entire).toNat = 1000000000 / (period * (entire.toNat + 1)) := by
  rw [frequencyHz, BitVec.toNat_ofNat]
  exact Nat.mod_eq_of_lt (Nat.lt_of_le_of_lt (Nat.div_le_self _ _) (by decide))

/-- No period is below 10 ns, so no frequency is above 100 MHz. -/
theorem frequency_le {period : Nat} (h : 10 ≤ period) (entire : Nat) : 1000000000 / (period * (entire + 1)) ≤ 100000000 := by
  have divisor : 10 ≤ period * (entire + 1) := h.trans (Nat.le_mul_of_pos_right period (Nat.succ_pos entire))
  exact (Nat.div_le_div_left divisor (by decide)).trans (by decide)

/-! ## The lines of the reading composites, run in front of any others -/

/-! A load changes no field that the Core alone writes. -/

@[simp] theorem State.load_prescaler (s : State) (r : Reg) (c : Channel) : (s.load r).2.prescaler c = s.prescaler c := by
  simp [State.prescaler]
@[simp] theorem State.load_entire (s : State) (r : Reg) (c : Channel) : (s.load r).2.entire c = s.entire c := by
  simp [State.entire]
@[simp] theorem State.load_active (s : State) (r : Reg) (c : Channel) : (s.load r).2.active c = s.active c := by
  simp [State.active]

/-- The state after the two loads of the live clock configuration. -/
def State.clockLoaded (s : State) (c : Channel) : State := ((s.load (.pccr c.pair)).2.load (.pcr c)).2

/-- The locals after the two loads of the live clock configuration. -/
def State.clockLocals (s : State) (c : Channel) (loc : Locals) : Locals :=
  { loc with source := s.source c.pair, divider := s.divider c.pair, presc := s.prescaler c }

theorem runLines_liveClock (cmd : Instr) (rest : List Line) (loc : Locals) (s : State) (c : Channel) :
    runLines cmd (linesLiveClock c ++ rest) loc s =
      if (s.divider c.pair).toNat > 8 then (s.load (.pccr c.pair)).2.finish .invalidArgument []
      else runLines cmd rest (s.clockLocals c loc) (s.clockLoaded c) := by
  rw [linesLiveClock, List.append_assoc, runLines_readClockConfig, runLines_readPrescaler, State.load_prescaler]
  rfl

/-! ## The commands that read the live clock first, as operations -/

section
variable {s : State} {ch : Word} {c : Channel} {i : Instr} {rest : Channel → List Line} (hs : s.seq = .idle) (hc : ch.toInt = c.val)
  (hl : i.lines = some (withChannel ch fun c => withDst true (linesLiveClock c ++ rest c)))
include hs hc hl

theorem exec_liveClock (hd : (s.divider c.pair).toNat ≤ 8) :
    exec i s = .next (runLines i (rest c) (s.clockLocals c {}) (s.begin.clockLoaded c)) := by
  rw [exec_onChannel hl hs hc, withDst_true, runLines_liveClock, State.begin_divider, if_neg (Nat.not_lt.2 hd)]
  rfl

/-- A divider index above 8 ends the command after the load that found it (R78). -/
theorem exec_liveClock_illegal (hd : (s.divider c.pair).toNat > 8) :
    exec i s = .next ((s.begin.load (.pccr c.pair)).2.finish .invalidArgument []) := by
  rw [exec_onChannel hl hs hc, withDst_true, runLines_liveClock, State.begin_divider, if_pos hd]

end

theorem InProgress.clockLoaded (s : State) (c : Channel) : InProgress s (s.begin.clockLoaded c) [.load (.pccr c.pair), .load (.pcr c)] :=
  ((InProgress.begin s).load _).load _

theorem SameOutside.clockLoaded (s : State) (c : Channel) : SameOutside [] (s.begin.clockLoaded c) (s.turns 2) :=
  ((SameOutside.begin [] s).load _).load _

section
variable {s : State} {ch : Word} {c : Channel} (hs : s.seq = .idle) (hc : ch.toInt = c.val) (hd : (s.divider c.pair).toNat ≤ 8)
include hs hc hd

theorem exec_readPwmConfig :
    exec (.readPwmConfig ch true) s = .next ((((s.begin.clockLoaded c).load (.ppr c)).2.load .per).2.finish .ok
      [.src (bitSlot (s.source c.pair)), .div ((s.divider c.pair).setWidth 32), .presc (s.prescaler c), .cyc16 (s.entire c),
        .cyc16 (s.active c), .bool (s.flag .per (perEn c))]) := by
  rw [exec_liveClock (rest := fun c => linesGetPeriod c ++ (linesIsEnabled c ++ [.ret .pwmConfig])) hs hc rfl hd, runLines_getPeriod,
    runLines_isEnabled, runLines_ret]
  simp [State.clockLoaded, State.clockLocals, Result.values, State.flag]

theorem exec_rawToNanoseconds (on off : Half) :
    exec (.rawToNanoseconds ch on off true) s = .next ((s.begin.clockLoaded c).finish .ok
      [.u64 (countNs on (s.periodNs c)), .u64 (countNs off (s.periodNs c))]) :=
  exec_liveClock (rest := fun _ => [.ret (.nanoseconds on off)]) hs hc rfl hd

theorem exec_maxCaptureDurationNs :
    exec (.maxCaptureDurationNs ch true) s = .next ((s.begin.clockLoaded c).finish .ok [.u64 (countNs 65535#16 (s.periodNs c))]) :=
  exec_liveClock (rest := fun _ => [.ret .maxDuration]) hs hc rfl hd

theorem exec_outputFrequencyHz :
    exec (.outputFrequencyHz ch true) s = .next (((s.begin.clockLoaded c).load (.ppr c)).2.finish .ok
      [.u64 (frequencyHz (s.periodNs c) (s.entire c))]) := by
  rw [exec_liveClock (rest := fun c => linesGetPeriod c ++ [.ret .frequency]) hs hc rfl hd, runLines_getPeriod, runLines_ret,
    State.clockLoaded, State.load_entire, State.load_entire, State.begin_entire]
  rfl

end

/-! ## effectiveClockPeriodNs as an operation (R100) -/

section
variable {s : State} {source divider : Word} {p : Byte} (hs : s.seq = .idle)
include hs

theorem exec_effectiveClockPeriodNs (hsource : source.toNat ≤ 1) (hd : divider.toNat ≤ 8) :
    exec (.effectiveClockPeriodNs source divider p true) s =
      .next (s.begin.finish .ok [.u64 (BitVec.ofNat 64 (periodNs source.toNat divider.toNat p.toNat))]) := by
  have legal : (!sourceValid source || !dividerValid divider) = false := by simp [sourceValid, dividerValid, hsource, hd]
  rw [exec_idle hs rfl, withDst_true, linesEffectiveClockPeriodNs, legal, if_neg Bool.false_ne_true, runLines_ret]
  rfl

theorem exec_effectiveClockPeriodNs_illegal (h : source.toNat > 1 ∨ divider.toNat > 8) :
    exec (.effectiveClockPeriodNs source divider p true) s = .next (s.begin.finish .invalidArgument []) := by
  have illegal : (!sourceValid source || !dividerValid divider) = true := by simpa [sourceValid, dividerValid] using h
  rw [exec_idle hs rfl, withDst_true, linesEffectiveClockPeriodNs, if_pos illegal, runLines_raise]

end

end Sys2Proof.Machine

open Sys2Proof Sys2Proof.Machine

/-- Settles O38: the four loads fill six locals with `RW` fields, which no turn between the loads changes. -/
theorem readPwmConfigReturnsTheSixFields : Obligations.ReadPwmConfigReturnsTheSixFields := by
  refine ⟨.of_lines (fun _ _ => rfl) fun _ _ => rfl, fun s ch c hs hc => ⟨fun hd => ?_, fun hd => ?_⟩⟩
  · exact ⟨_, exec_readPwmConfig hs hc hd, (((SameOutside.clockLoaded s c).load (.ppr c)).load .per).agree,
      (((InProgress.clockLoaded s c).load _).load _).finish _ _⟩
  · exact ⟨_, exec_liveClock_illegal (rest := fun c => linesGetPeriod c ++ (linesIsEnabled c ++ [.ret .pwmConfig])) hs hc rfl hd,
      untouched_load s _ _ _, answered_load s _ _ _⟩

/-- Settles O44: the period is an exact quotient, small enough for 64 bits. -/
theorem effectivePeriodIsTheExactFloor : Obligations.EffectivePeriodIsTheExactFloor := by
  refine fun s source divider p hs => ⟨rfl, exec_idle (lines := [.raise .nullOutput]) hs rfl, fun hsource hd => ?_, exec_effectiveClockPeriodNs_illegal hs⟩
  obtain ⟨least, most⟩ := periodNs_bounds hsource hd p.isLt
  have exact64 : (BitVec.ofNat 64 (periodNs source.toNat divider.toNat p.toNat)).toNat = periodNs source.toNat divider.toNat p.toNat := by
    rw [BitVec.toNat_ofNat]
    exact Nat.mod_eq_of_lt (Nat.lt_of_le_of_lt most (by decide))
  refine ⟨_, exec_effectiveClockPeriodNs hs hsource hd, ?_⟩
  rw [exact64]
  refine ⟨rfl, ?_, least, most⟩
  obtain crystal | bus := Nat.le_one_iff_eq_zero_or_eq_one.1 hsource
  · rw [crystal, periodNs_crystal, if_pos rfl]
  · rw [bus, periodNs_bus, if_neg Nat.one_ne_zero]

/-- Settles O45: both commands are the two loads of the live clock, and no product of a 16-bit count and a legal period reaches 2^64. -/
theorem rawCountsAreScaledExactly : Obligations.RawCountsAreScaledExactly := by
  refine ⟨fun _ _ => .of_lines (fun _ _ => rfl) fun _ _ => rfl, .of_lines (fun _ _ => rfl) fun _ _ => rfl,
    fun s ch c on off hs hc => ⟨fun hd => ?_, fun hd i hi => ?_⟩⟩
  · have loads := InProgress.clockLoaded s c
    have outside := (SameOutside.clockLoaded s c).agree
    obtain ⟨-, most⟩ := s.periodNs_bounds c hd
    refine ⟨⟨_, _, _, exec_rawToNanoseconds hs hc hd on off, outside, loads.finish _ _, countNs_toNat on most, countNs_toNat off most⟩,
      _, _, exec_maxCaptureDurationNs hs hc hd, outside, loads.finish _ _, countNs_toNat _ most, ?_⟩
    rw [countNs_toNat _ most]
    exact Nat.mul_le_mul_left 65535 most
  · have illegal : exec i s = .next ((s.begin.load (.pccr c.pair)).2.finish .invalidArgument []) := by
      simp only [List.mem_cons, List.not_mem_nil, or_false] at hi
      obtain rfl | rfl := hi
      · exact exec_liveClock_illegal (rest := fun _ => [.ret (.nanoseconds on off)]) hs hc rfl hd
      · exact exec_liveClock_illegal (rest := fun _ => [.ret .maxDuration]) hs hc rfl hd
    exact ⟨_, illegal, answered_load s _ _ _, untouched_load s _ _ _⟩

/-- Settles O46: the command is three loads, and no legal period is below 10 ns. -/
theorem outputFrequencyIsTheExactFloor : Obligations.OutputFrequencyIsTheExactFloor := by
  refine ⟨.of_lines (fun _ _ => rfl) fun _ _ => rfl, fun s ch c hs hc => ⟨fun hd => ?_, fun hd => ?_⟩⟩
  · obtain ⟨least, -⟩ := s.periodNs_bounds c hd
    refine ⟨_, _, exec_outputFrequencyHz hs hc hd, ((SameOutside.clockLoaded s c).load (.ppr c)).agree,
      ((InProgress.clockLoaded s c).load _).finish _ _, frequencyHz_toNat _ _, ?_⟩
    rw [frequencyHz_toNat]
    exact frequency_le least _
  · exact ⟨_, exec_liveClock_illegal (rest := fun c => linesGetPeriod c ++ [.ret .frequency]) hs hc rfl hd, answered_load s _ _ _,
      untouched_load s _ _ _⟩

end

section
/-! PROOFS. Changes of the window in a row, as the composites make them (R8, R70, R95, R98): their accesses, their frame, and that the `RW` fields of a register depend
on the changes of that register alone. -/

namespace Sys2Proof.Machine

/-! ## Changes one after the other -/

/-- The changes made one after the other. -/
def State.after (s : State) (es : List Change) : State := es.foldl (fun u e => e.apply u) s

@[simp] theorem State.after_nil (s : State) : s.after [] = s := rfl
@[simp] theorem State.after_cons (s : State) (e : Change) (es : List Change) : s.after (e :: es) = (e.apply s).after es := rfl

theorem State.after_append (s : State) (es fs : List Change) : s.after (es ++ fs) = (s.after es).after fs := List.foldl_append

/-- What every change keeps, the changes keep. -/
theorem State.after_induct (P : State → Prop) {es : List Change} (hes : ∀ e ∈ es, ∀ u, P u → P (e.apply u)) (s : State) (h : P s) :
    P (s.after es) :=
  List.foldlRecOn es _ h fun u hu e he => hes e he u hu

/-- The register that a change writes. -/
def Change.reg : Change → Reg
  | .write r _ | .rmw r _ _ _ => r
  | .prescaler c _ => .pcr c
  | .duty c _ => .ppr c

/-- The accesses of a change (R44 to R46, R79, R97). -/
def Change.accesses : Change → List Access
  | .write r _ => [.store r]
  | .rmw r _ _ _ => [.load r, .store r]
  | .prescaler c _ => [.load (.pcr c), .store (.pcr c)]
  | .duty c _ => [.load (.ppr c), .store (.ppr c)]

/-- A change is one store, or a load and a store, of its register (R45, R46). -/
theorem Change.apply_form (e : Change) (s : State) :
    (e.accesses = [.store e.reg] ∧ ∃ v, e.apply s = s.store e.reg v) ∨
    (e.accesses = [.load e.reg, .store e.reg] ∧ ∃ v, e.apply s = (s.load e.reg).2.store e.reg v) := by
  cases e with
  | write r v => exact .inl ⟨rfl, v, rfl⟩
  | rmw | prescaler | duty => exact .inr ⟨rfl, _, rfl⟩

/-! ## What the changes of a command leave of its beginning (R36, R62) -/

theorem InProgress.change {s t : State} {accesses : List Access} (h : InProgress s t accesses) (e : Change) :
    InProgress s (e.apply t) (accesses ++ e.accesses) := by
  obtain ⟨he, v, ht⟩ | ⟨he, v, ht⟩ := e.apply_form t
  · rw [he, ht]
    exact h.store _ v
  · rw [he, ht]
    simpa using (h.load e.reg).store e.reg v

theorem InProgress.after {s t : State} {accesses : List Access} (h : InProgress s t accesses) (es : List Change) :
    InProgress s (t.after es) (accesses ++ es.flatMap Change.accesses) := by
  induction es generalizing t accesses with
  | nil => simpa using h
  | cons e es ih => simpa using ih (h.change e)

/-! ## The frame of changes that enable no latch -/

theorem State.turns_add (s : State) (m n : Nat) : s.turns (m + n) = (s.turns m).turns n := by
  induction n with
  | zero => rfl
  | succ n ih => rw [← Nat.add_assoc, State.turns_succ, State.turns_succ, ih]

theorem Change.bits_of_reg_ne {e : Change} {q : Reg} (h : e.reg ≠ q) : e.bits q = 0 := by
  cases e <;> exact if_neg (Ne.symm h)

/-- The change is of a register inside `P` that the Peripheral neither changes nor looks at. -/
structure Change.Configures (P : List Reg) (e : Change) : Prop where
  inside : e.reg ∈ P
  coreOnly : e.reg.coreOnly = true
  notCer : e.reg ≠ .cer

theorem Change.configures_iff {P : List Reg} {e : Change} : e.Configures P ↔ e.reg ∈ P ∧ e.reg.coreOnly = true ∧ e.reg ≠ .cer :=
  ⟨fun ⟨inside, coreOnly, notCer⟩ => ⟨inside, coreOnly, notCer⟩, fun ⟨inside, coreOnly, notCer⟩ => ⟨inside, coreOnly, notCer⟩⟩

/-- Such a change enables and disables no latch. -/
theorem Change.Configures.sparesLatches {P : List Reg} {e : Change} (h : e.Configures P) (d : Channel) : e.SparesLatches d := by
  have notCcr : e.reg ≠ .ccr d := fun he => by
    have core := h.coreOnly
    rw [he] at core
    cases core
  constructor <;> simp [Change.bits_of_reg_ne h.notCer, Change.bits_of_reg_ne notCcr]

section
variable {P : List Reg} {s t : State} (h : SameOutside P s t)
include h

/-- Outside `P` such a change is as many turns as it has accesses. -/
theorem SameOutside.change {e : Change} (he : e.Configures P) : SameOutside P (e.apply s) (t.turns (accessCount e.accesses)) := by
  have latches : LatchesAlike P (e.apply s) t := fun d => by
    obtain ⟨rise, fall⟩ := (he.sparesLatches d).armed s
    rw [rise, fall]
    exact h.latches d
  obtain ⟨ha, v, hs⟩ | ⟨ha, v, hs⟩ := e.apply_form s
  all_goals rw [hs] at latches
  · rw [ha, hs]
    exact h.store _ he.inside v fun d => by simpa using latches d
  · rw [ha, hs]
    exact (h.load _).store _ he.inside v fun d => by simpa using latches d

theorem SameOutside.after {es : List Change} (hes : ∀ e ∈ es, e.Configures P) :
    SameOutside P (s.after es) (t.turns (accessCount (es.flatMap Change.accesses))) := by
  induction es generalizing s t with
  | nil => exact h
  | cons e es ih =>
    rw [List.flatMap_cons, accessCount_append, State.turns_add]
    exact ih (h.change (hes e List.mem_cons_self)) fun f hf => hes f (List.mem_cons_of_mem e hf)

end

/-! ## The `RW` fields after changes in a row (R17) -/

/-- The `RW` bits of register `q` are the same in both windows. -/
def AgreeRw (q : Reg) (s t : State) : Prop := ∀ k, (q.mask .rw).getLsbD k = true → s.flag q k = t.flag q k

theorem AgreeRw.load_fields {q : Reg} {s t : State} (h : AgreeRw q s t) {k : Nat} (hk : (q.mask .rw).getLsbD k = true) :
    (s.load q).1.fields.getLsbD k = (t.load q).1.fields.getLsbD k := by
  rw [s.load_fields_rw q k hk, t.load_fields_rw q k hk, h k hk]

/-- The `RW` bits that a change gives its register depend on those that it finds there. -/
theorem AgreeRw.change {q : Reg} {s t : State} (h : AgreeRw q s t) {e : Change} (he : e.reg = q) : AgreeRw q (e.apply s) (e.apply t) := by
  intro k hk
  subst he
  have stored : ∀ v w : Word, v.getLsbD k = w.getLsbD k → ∀ u u' : State, (u.store e.reg v).flag e.reg k = (u'.store e.reg w).flag e.reg k := by
    intro v w hvw u u'
    rw [State.store_flag_rw _ _ _ _ _ hk, State.store_flag_rw _ _ _ _ _ hk, if_pos rfl, if_pos rfl, hvw]
  have loaded := h.load_fields hk
  cases e with
  | write r v => exact stored v v rfl s t
  | rmw r i b m =>
    refine stored _ _ ?_ _ _
    rw [Change.reg] at loaded
    simp only [setBit, BitVec.getLsbD_or, BitVec.getLsbD_and, loaded]
  | prescaler c p =>
    refine stored _ _ ?_ _ _
    rw [Change.reg] at loaded
    simp only [prescalerWord, BitVec.getLsbD_or, BitVec.getLsbD_and, loaded]
  | duty c percent =>
    refine stored _ _ ?_ _ _
    have whole : (s.load (.ppr c)).1.fields = (t.load (.ppr c)).1.fields := by
      ext j hj
      exact h.load_fields (by rw [Change.reg, Reg.rw_ppr, ones_getLsbD, decide_eq_true hj])
    rw [whole]

/-- A change of another register leaves every `RW` bit. -/
theorem AgreeRw.change_other {q : Reg} {s t : State} (h : AgreeRw q s t) {e : Change} (he : e.reg ≠ q) : AgreeRw q (e.apply s) t := by
  intro k hk
  rw [e.apply_flag_rw s q k hk (by rw [Change.bits_of_reg_ne he]; exact BitVec.getLsbD_zero)]
  exact h k hk

theorem AgreeRw.after {q : Reg} {s t : State} (h : AgreeRw q s t) (es : List Change) :
    AgreeRw q (s.after es) (t.after (es.filter fun e => e.reg = q)) := by
  induction es generalizing s t with
  | nil => exact h
  | cons e es ih =>
    by_cases he : e.reg = q
    · rw [List.filter_cons_of_pos (by simpa using he)]
      exact ih (h.change he)
    · rw [List.filter_cons_of_neg (by simpa using he)]
      exact ih (h.change_other he)

/-! ## The fields of the configuration registers, each by the changes of its own register (R22 to R27) -/

section
variable {es fs : List Change} {q : Reg} (h : (es.filter fun e => e.reg = q) = fs) (s : State)
include h

theorem State.after_flag_rw {k : Nat} (hk : (q.mask .rw).getLsbD k = true) : (s.after es).flag q k = (s.after fs).flag q k := by
  have agree : AgreeRw q s s := fun _ _ => rfl
  rw [agree.after es k hk, h]

theorem Reg.RwField.after {lo w : Nat} (field : q.RwField lo w) :
    ((s.after es).stored q).extractLsb' lo w = ((s.after fs).stored q).extractLsb' lo w := by
  ext k hk
  rw [BitVec.getElem_extractLsb', BitVec.getElem_extractLsb']
  exact s.after_flag_rw h (field k hk)

end

/-- A change of other bits keeps a field of `RW` bits. -/
theorem Reg.RwField.change_other {q : Reg} {lo w : Nat} (field : q.RwField lo w) (e : Change) (s : State)
    (apart : ∀ k, k < w → (e.bits q).getLsbD (lo + k) = false) :
    ((e.apply s).stored q).extractLsb' lo w = (s.stored q).extractLsb' lo w := by
  ext k hk
  rw [BitVec.getElem_extractLsb', BitVec.getElem_extractLsb']
  exact e.apply_flag_rw s q (lo + k) (field k hk) (apart k hk)

/-- Sets the channel's gate bit (R75). -/
def Change.gate (c : Channel) (b : Bool) : Change := .rmw .pcgr (pcgrGate c) b 0
/-- Stores the clock word of the channel's pair (R77). -/
def Change.clock (c : Channel) (source divider : Word) : Change := .write (.pccr c.pair) (clockWord source divider)
/-- Stores the channel's period word (R83). -/
def Change.period (c : Channel) (entire active : Half) : Change := .write (.ppr c) (periodWord entire active)
/-- Sets the channel's active-state bit (R85). -/
def Change.polarity (c : Channel) (b : Bool) : Change := .rmw (.pcr c) pcrActSta b 0
/-- Sets the channel's PWM enable bit (R82). -/
def Change.enable (c : Channel) (b : Bool) : Change := .rmw .per (perEn c) b 0

@[simp] theorem Change.write_reg (r : Reg) (v : Word) : (Change.write r v).reg = r := rfl
@[simp] theorem Change.rmw_reg (r : Reg) (i : Nat) (b : Bool) (m : Word) : (Change.rmw r i b m).reg = r := rfl
@[simp] theorem Change.gate_reg (c : Channel) (b : Bool) : (Change.gate c b).reg = .pcgr := rfl
@[simp] theorem Change.clock_reg (c : Channel) (source divider : Word) : (Change.clock c source divider).reg = .pccr c.pair := rfl
@[simp] theorem Change.period_reg (c : Channel) (entire active : Half) : (Change.period c entire active).reg = .ppr c := rfl
@[simp] theorem Change.prescaler_reg (c : Channel) (p : Byte) : (Change.prescaler c p).reg = .pcr c := rfl
@[simp] theorem Change.polarity_reg (c : Channel) (b : Bool) : (Change.polarity c b).reg = .pcr c := rfl
@[simp] theorem Change.enable_reg (c : Channel) (b : Bool) : (Change.enable c b).reg = .per := rfl

section
variable {es : List Change} (s : State) (c : Channel)

theorem State.after_gate (b : Bool) (h : (es.filter fun e => e.reg = .pcgr) = [.gate c b]) (d : Channel) :
    (s.after es).flag .pcgr (pcgrGate d) = (if d = c then b else s.flag .pcgr (pcgrGate d)) ∧
    (s.after es).flag .pcgr (pcgrByp d) = s.flag .pcgr (pcgrByp d) := by
  have inWord := BitVec.lt_of_getLsbD (pcgrGate_rw c)
  rw [s.after_flag_rw h (pcgrGate_rw d), s.after_flag_rw h (pcgrByp_rw d)]
  constructor
  · exact (s.rmwBit_flag_rw _ _ _ _ _ inWord (pcgrGate_rw d)).trans (by simp [pcgrGate_inj])
  · exact (s.rmwBit_flag_rw _ _ _ _ _ inWord (pcgrByp_rw d)).trans (by simp [(pcgrGate_ne_byp c d).symm])

theorem State.after_enable (b : Bool) (h : (es.filter fun e => e.reg = .per) = [.enable c b]) (d : Channel) :
    (s.after es).flag .per (perEn d) = if d = c then b else s.flag .per (perEn d) := by
  rw [s.after_flag_rw h (perEn_rw d)]
  exact s.rmwBit_enable c d b

theorem State.after_clock {source divider : Word} (hs : source.toNat ≤ 1) (hd : divider.toNat ≤ 8)
    (h : (es.filter fun e => e.reg = .pccr c.pair) = [.clock c source divider]) :
    (s.after es).source c.pair = decide (source.toNat = 1) ∧ ((s.after es).divider c.pair).toNat = divider.toNat := by
  constructor
  · exact (s.after_flag_rw h (source_rw c.pair)).trans (s.source_configured c.pair hs hd)
  · rw [← divider_toNat hd]
    exact congrArg BitVec.toNat (((rwField_divider c.pair).after h s).trans (s.divider_configured c.pair))

theorem State.after_period (entire active : Half) (h : (es.filter fun e => e.reg = .ppr c) = [.period c entire active]) :
    (s.after es).entire c = entire ∧ (s.after es).active c = active :=
  ⟨((rwField_entire c).after h s).trans (s.entire_configured c entire active),
    ((rwField_active c).after h s).trans (s.active_configured c entire active)⟩

theorem State.after_prescaler (p : Byte) (h : (es.filter fun e => e.reg = .pcr c) = [.prescaler c p]) :
    (s.after es).prescaler c = p ∧ (s.after es).flag (.pcr c) pcrActSta = s.flag (.pcr c) pcrActSta :=
  ⟨((rwField_prescaler c).after h s).trans (State.prescaler_prescalerWord _ c _ p),
    (s.after_flag_rw h (actSta_rw c)).trans (s.actSta_prescalerWord c p)⟩

theorem State.polarity_actSta (b : Bool) : ((Change.polarity c b).apply s).flag (.pcr c) pcrActSta = b :=
  (s.rmwBit_flag_rw _ _ _ _ _ (by decide) (actSta_rw c)).trans (if_pos rfl)

/-- The active-state bit lies outside the prescaler byte. -/
theorem State.polarity_prescaler (b : Bool) : ((Change.polarity c b).apply s).prescaler c = s.prescaler c := by
  refine (rwField_prescaler c).change_other (Change.polarity c b) s fun k hk => ?_
  rw [Change.polarity, Change.bits_rmw, onReg, if_pos rfl, bit_getLsbD _ _ (by decide), pcrPrescal, pcrActSta]
  exact decide_eq_false (by omega)

/-- In either order the two changes of the control word keep each other's field. -/
theorem State.after_control (p : Byte) (b : Bool) (h : (es.filter fun e => e.reg = .pcr c) = [.prescaler c p, .polarity c b] ∨
      (es.filter fun e => e.reg = .pcr c) = [.polarity c b, .prescaler c p]) :
    (s.after es).prescaler c = p ∧ (s.after es).flag (.pcr c) pcrActSta = b := by
  obtain h | h := h
  · exact ⟨((rwField_prescaler c).after h s).trans ((State.polarity_prescaler _ c b).trans (State.prescaler_prescalerWord _ c _ p)),
      (s.after_flag_rw h (actSta_rw c)).trans (State.polarity_actSta _ c b)⟩
  · exact ⟨((rwField_prescaler c).after h s).trans (State.prescaler_prescalerWord _ c _ p),
      (s.after_flag_rw h (actSta_rw c)).trans ((State.actSta_prescalerWord _ c p).trans (s.polarity_actSta c b))⟩

end

/-! ## Lines that make changes (R8, R70) -/

/-- The lines make these changes and then go on to the lines after them. -/
def Performs (lines : List Line) (es : List Change) : Prop :=
  ∀ cmd rest loc s, ∃ w, runLines cmd (lines ++ rest) loc s = runLines cmd rest { loc with w := w } (s.after es)

/-- The lines make these changes and then raise InvalidArgument, whatever lines stand after them (R110). -/
def Fails (lines : List Line) (es : List Change) : Prop :=
  ∀ cmd rest loc s, runLines cmd (lines ++ rest) loc s = (s.after es).finish .invalidArgument []

section
variable {xs ys : List Line} {es fs : List Change}

theorem Performs.append (hx : Performs xs es) (hy : Performs ys fs) : Performs (xs ++ ys) (es ++ fs) := by
  intro cmd rest loc s
  obtain ⟨w, first⟩ := hx cmd (ys ++ rest) loc s
  obtain ⟨w', second⟩ := hy cmd rest { loc with w := w } (s.after es)
  exact ⟨w', by rw [List.append_assoc, first, second, State.after_append]⟩

theorem Performs.append_fails (hx : Performs xs es) (hy : Fails ys fs) : Fails (xs ++ ys) (es ++ fs) := by
  intro cmd rest loc s
  obtain ⟨w, first⟩ := hx cmd (ys ++ rest) loc s
  rw [List.append_assoc, first, hy, State.after_append]

theorem Fails.append (hx : Fails xs es) (ys : List Line) : Fails (xs ++ ys) es := fun cmd rest loc s => by
  rw [List.append_assoc]
  exact hx cmd _ loc s

theorem Performs.ends (h : Performs xs es) (cmd : Instr) (loc : Locals) (s : State) :
    runLines cmd xs loc s = (s.after es).finish .ok [] := by
  obtain ⟨w, run⟩ := h cmd [] loc s
  rwa [List.append_nil] at run

theorem Fails.ends (h : Fails xs es) (cmd : Instr) (loc : Locals) (s : State) :
    runLines cmd xs loc s = (s.after es).finish .invalidArgument [] := by
  have run := h cmd [] loc s
  rwa [List.append_nil] at run

end

theorem performs_rmw (r : Reg) (i : Nat) (b : Bool) (m : Word) : Performs (rmwLines r i b m) [.rmw r i b m] :=
  fun _ _ _ _ => ⟨_, rfl⟩

theorem performs_setPrescaler (c : Channel) (p : Byte) : Performs (linesSetPrescaler c p) [.prescaler c p] :=
  fun _ _ _ _ => ⟨_, rfl⟩

theorem performs_configureClock (c : Channel) {source divider : Word} (hs : source.toNat ≤ 1) (hd : divider.toNat ≤ 8) :
    Performs (linesConfigureClock c source divider) [.clock c source divider] :=
  fun cmd rest loc s => ⟨loc.w, runLines_configureClock cmd rest loc s c hs hd⟩

theorem performs_setPeriod (c : Channel) {entire active : Half} (h : active.toNat ≤ entire.toNat) :
    Performs (linesSetPeriod c entire active) [.period c entire active] :=
  fun cmd rest loc s => ⟨loc.w, runLines_setPeriod cmd rest loc s c h⟩

theorem fails_configureClock (c : Channel) {source divider : Word} (h : source.toNat > 1 ∨ divider.toNat > 8) :
    Fails (linesConfigureClock c source divider) [] :=
  fun cmd rest loc s => runLines_configureClock_illegal cmd rest loc s c h

theorem fails_setPeriod (c : Channel) {entire active : Half} (h : active.toNat > entire.toNat) : Fails (linesSetPeriod c entire active) [] :=
  fun cmd rest loc s => runLines_setPeriod_illegal cmd rest loc s c h

end Sys2Proof.Machine

end

section
/-! PROOFS. applyPwmConfig (R95, R109, R110, R132): on each path a row of changes of five configuration registers, cut short where an operand check fails, and after the disable loop
on the disabling path. -/

namespace Sys2Proof.Machine

/-! ## The lines of the two paths, and the changes that they make -/

/-- The lines of the disabling path after the disable loop: the same groups in the reverse order (D30). -/
def linesPwmDisabled (c : Channel) (source divider : Word) (p : Byte) (entire active : Half) (polarity : Bool) : List Line :=
  rmwLines .per (perEn c) false 0 ++ linesSetPolarity c polarity ++ linesSetPrescaler c p ++ linesSetPeriod c entire active
    ++ linesConfigureClock c source divider ++ linesSetClockGate c false

theorem linesApplyPwmConfig_false (c : Channel) (source divider : Word) (p : Byte) (entire active : Half) (polarity : Bool) :
    linesApplyPwmConfig c source divider p entire active polarity false =
      disableLoop c ++ linesPwmDisabled c source divider p entire active polarity := rfl

/-- The six changes with legal operands: in the order of R95 when enabling, in the reverse order when disabling. -/
def pwmChanges (c : Channel) (source divider : Word) (p : Byte) (entire active : Half) (polarity : Bool) : Bool → List Change
  | true => [.gate c true, .clock c source divider, .period c entire active, .prescaler c p, .polarity c polarity, .enable c true]
  | false => [.enable c false, .polarity c polarity, .prescaler c p, .period c entire active, .clock c source divider, .gate c false]

theorem performs_gate (c : Channel) (b : Bool) : Performs (linesSetClockGate c b) [.gate c b] := performs_rmw _ _ _ _
theorem performs_polarity (c : Channel) (b : Bool) : Performs (linesSetPolarity c b) [.polarity c b] := performs_rmw _ _ _ _
theorem performs_enable (c : Channel) (b : Bool) : Performs (rmwLines .per (perEn c) b 0) [.enable c b] := performs_rmw _ _ _ _

section
variable (c : Channel) {source divider : Word} (p : Byte) {entire active : Half} (polarity : Bool)

theorem performs_pwmEnable (hsource : source.toNat ≤ 1) (hd : divider.toNat ≤ 8) (hp : active.toNat ≤ entire.toNat) :
    Performs (linesApplyPwmConfig c source divider p entire active polarity true) (pwmChanges c source divider p entire active polarity true) :=
  (((((performs_gate c true).append (performs_configureClock c hsource hd)).append (performs_setPeriod c hp)).append
    (performs_setPrescaler c p)).append (performs_polarity c polarity)).append (performs_enable c true)

theorem fails_pwmEnable_clock (h : source.toNat > 1 ∨ divider.toNat > 8) :
    Fails (linesApplyPwmConfig c source divider p entire active polarity true) [.gate c true] :=
  (((((performs_gate c true).append_fails (fails_configureClock c h)).append _).append _).append _).append _

theorem fails_pwmEnable_period (hsource : source.toNat ≤ 1) (hd : divider.toNat ≤ 8) (h : active.toNat > entire.toNat) :
    Fails (linesApplyPwmConfig c source divider p entire active polarity true) [.gate c true, .clock c source divider] :=
  (((((performs_gate c true).append (performs_configureClock c hsource hd)).append_fails (fails_setPeriod c h)).append _).append _).append _

/-- On the disabling path the first three groups check no operand. -/
theorem performs_pwmDisable_unchecked :
    Performs (rmwLines .per (perEn c) false 0 ++ linesSetPolarity c polarity ++ linesSetPrescaler c p)
      [.enable c false, .polarity c polarity, .prescaler c p] :=
  ((performs_enable c false).append (performs_polarity c polarity)).append (performs_setPrescaler c p)

theorem performs_pwmDisable (hsource : source.toNat ≤ 1) (hd : divider.toNat ≤ 8) (hp : active.toNat ≤ entire.toNat) :
    Performs (linesPwmDisabled c source divider p entire active polarity) (pwmChanges c source divider p entire active polarity false) :=
  (((performs_pwmDisable_unchecked c p polarity).append (performs_setPeriod c hp)).append (performs_configureClock c hsource hd)).append
    (performs_gate c false)

theorem fails_pwmDisable_period (h : active.toNat > entire.toNat) :
    Fails (linesPwmDisabled c source divider p entire active polarity) [.enable c false, .polarity c polarity, .prescaler c p] :=
  (((performs_pwmDisable_unchecked c p polarity).append_fails (fails_setPeriod c h)).append _).append _

theorem fails_pwmDisable_clock (hp : active.toNat ≤ entire.toNat) (h : source.toNat > 1 ∨ divider.toNat > 8) :
    Fails (linesPwmDisabled c source divider p entire active polarity)
      [.enable c false, .polarity c polarity, .prescaler c p, .period c entire active] :=
  (((performs_pwmDisable_unchecked c p polarity).append (performs_setPeriod c hp)).append_fails (fails_configureClock c h)).append _

end

/-! ## What the six changes leave -/

theorem configures_pwmChanges (c : Channel) (source divider : Word) (p : Byte) (entire active : Half) (polarity enabled : Bool) {P : List Reg}
    (hP : ∀ r ∈ [Reg.pcgr, .pccr c.pair, .ppr c, .pcr c, .per], r ∈ P) :
    ∀ e ∈ pwmChanges c source divider p entire active polarity enabled, e.Configures P := by
  simp only [List.forall_mem_cons] at hP
  obtain ⟨pcgr, pccr, ppr, pcr, per, -⟩ := hP
  cases enabled <;> simp [pwmChanges, Change.configures_iff, Reg.coreOnly, pcgr, pccr, ppr, pcr, per]

/-- Only the prescaler and the polarity share a register, so each field is as its one change sets it. -/
theorem State.after_pwmChanges (s : State) (c : Channel) {source divider : Word} (p : Byte) (entire active : Half) (polarity enabled : Bool)
    (hsource : source.toNat ≤ 1) (hd : divider.toNat ≤ 8) {t : State}
    (ht : t = s.after (pwmChanges c source divider p entire active polarity enabled)) :
    (∀ d : Channel, t.flag .pcgr (pcgrGate d) = (if d = c then enabled else s.flag .pcgr (pcgrGate d)) ∧
      t.flag .pcgr (pcgrByp d) = s.flag .pcgr (pcgrByp d) ∧
      t.flag .per (perEn d) = if d = c then enabled else s.flag .per (perEn d)) ∧
    t.source c.pair = decide (source.toNat = 1) ∧ (t.divider c.pair).toNat = divider.toNat ∧
    t.entire c = entire ∧ t.active c = active ∧ t.prescaler c = p ∧ t.flag (.pcr c) pcrActSta = polarity := by
  subst ht
  obtain ⟨sourceSet, dividerSet⟩ := s.after_clock c hsource hd (es := pwmChanges c source divider p entire active polarity enabled)
    (by cases enabled <;> simp [pwmChanges])
  obtain ⟨entireSet, activeSet⟩ := s.after_period c entire active (es := pwmChanges c source divider p entire active polarity enabled)
    (by cases enabled <;> simp [pwmChanges])
  obtain ⟨prescalerSet, polaritySet⟩ := s.after_control c p polarity (es := pwmChanges c source divider p entire active polarity enabled)
    (by cases enabled <;> simp [pwmChanges])
  refine ⟨fun d => ?_, sourceSet, dividerSet, entireSet, activeSet, prescalerSet, polaritySet⟩
  obtain ⟨gateSet, bypassKept⟩ := s.after_gate c enabled (es := pwmChanges c source divider p entire active polarity enabled)
    (by cases enabled <;> simp [pwmChanges]) d
  exact ⟨gateSet, bypassKept, s.after_enable c enabled (by cases enabled <;> simp [pwmChanges]) d⟩

/-! ## The command as an operation -/

section
variable {s : State} {ch source divider : Word} {c : Channel} {p : Byte} {entire active : Half} {polarity : Bool} (hs : s.seq = .idle)
  (hc : ch.toInt = c.val)
include hs hc

theorem exec_applyPwmConfig (enabled : Bool) :
    exec (.applyPwmConfig ch source divider p entire active polarity enabled) s =
      .next (runLines (.applyPwmConfig ch source divider p entire active polarity enabled)
        (linesApplyPwmConfig c source divider p entire active polarity enabled) {} s.begin) :=
  exec_onChannel (lines := fun c => linesApplyPwmConfig c source divider p entire active polarity enabled) rfl hs hc

theorem exec_pwmEnable_performs {es : List Change} (h : Performs (linesApplyPwmConfig c source divider p entire active polarity true) es) :
    exec (.applyPwmConfig ch source divider p entire active polarity true) s = .next ((s.begin.after es).finish .ok []) := by
  rw [exec_applyPwmConfig hs hc, h.ends]

theorem exec_pwmEnable_fails {es : List Change} (h : Fails (linesApplyPwmConfig c source divider p entire active polarity true) es) :
    exec (.applyPwmConfig ch source divider p entire active polarity true) s =
      .next ((s.begin.after es).finish .invalidArgument []) := by
  rw [exec_applyPwmConfig hs hc, h.ends]

section
variable (noWait : s.flag .per (perEn c) = false ∨ s.turn.stored (.ppcntr c) = 0)
include noWait

/-- When the disable need not wait, the lines after the loop come after its two loads. -/
theorem exec_pwmDisable :
    exec (.applyPwmConfig ch source divider p entire active polarity false) s =
      .next (runLines (.applyPwmConfig ch source divider p entire active polarity false)
        (linesPwmDisabled c source divider p entire active polarity) (s.begin.disableLocals c {}) (s.begin.disablePolled c)) := by
  rw [exec_applyPwmConfig hs hc, linesApplyPwmConfig_false, runLines_disableLoop_ends _ _ _ (by simpa using noWait)]

theorem exec_pwmDisable_performs {es : List Change} (h : Performs (linesPwmDisabled c source divider p entire active polarity) es) :
    exec (.applyPwmConfig ch source divider p entire active polarity false) s =
      .next (((s.begin.disablePolled c).after es).finish .ok []) := by
  rw [exec_pwmDisable hs hc noWait, h.ends]

theorem exec_pwmDisable_fails {es : List Change} (h : Fails (linesPwmDisabled c source divider p entire active polarity) es) :
    exec (.applyPwmConfig ch source divider p entire active polarity false) s =
      .next (((s.begin.disablePolled c).after es).finish .invalidArgument []) := by
  rw [exec_pwmDisable hs hc noWait, h.ends]

end

theorem exec_pwmDisable_sleeps (enabled : s.flag .per (perEn c) = true) (counting : s.turn.stored (.ppcntr c) ≠ 0) :
    exec (.applyPwmConfig ch source divider p entire active polarity false) s =
      .next ((s.begin.disablePolled c).sleep (.applyPwmConfig ch source divider p entire active polarity false)
        (linesApplyPwmConfig c source divider p entire active polarity false) (s.begin.disableLocals c {}) Config.disablePoll) := by
  rw [exec_applyPwmConfig hs hc, linesApplyPwmConfig_false, runLines_disableLoop_sleeps]
  · exact enabled
  · simpa using counting

end

/-- The loop changes no `RW` bit. -/
theorem State.disablePolled_flag_rw (s : State) (c : Channel) {q : Reg} {k : Nat} (hk : (q.mask .rw).getLsbD k = true) :
    (s.disablePolled c).flag q k = s.flag q k := by
  rw [State.disablePolled, State.load_flag_rw _ _ _ _ hk, State.load_flag_rw _ _ _ _ hk]

end Sys2Proof.Machine

open Sys2Proof Sys2Proof.Machine

/-- Settles O35: the six groups of lines make six changes, in the order of R95. -/
theorem applyPwmConfigEnablesInOrder : Obligations.ApplyPwmConfigEnablesInOrder := by
  intro s ch source divider c p entire active polarity hs hc hsource hd hp
  obtain ⟨bits, fields⟩ := s.begin.after_pwmChanges c p entire active polarity true hsource hd rfl
  have outside := (SameOutside.begin _ s).after
    (configures_pwmChanges c source divider p entire active polarity true (P := [.pcgr, .pccr c.pair, .ppr c, .pcr c, .per]) (by simp))
  refine ⟨_, exec_pwmEnable_performs hs hc (performs_pwmEnable c p polarity hsource hd hp), ((InProgress.begin s).after _).finish _ _,
    outside.agree, fun d => ?_, fields⟩
  obtain ⟨gate, bypass, enable⟩ := bits d
  exact ⟨gate.trans (Bool.if_true_left _ _), bypass, enable.trans (Bool.if_true_left _ _)⟩

/-- Settles O36: the loop's two loads decide alone; then the six changes are made in the reverse order. -/
theorem applyPwmConfigDisablesInReverseOrder : Obligations.ApplyPwmConfigDisablesInReverseOrder := by
  intro s ch source divider c p entire active polarity hs hc
  refine ⟨fun hsource hd hp noWait => ?_, fun enabled counting => ?_⟩
  · obtain ⟨bits, fields⟩ := (s.begin.disablePolled c).after_pwmChanges c p entire active polarity false hsource hd rfl
    have outside := ((SameOutside.begin _ s).disablePolled c).after
      (configures_pwmChanges c source divider p entire active polarity false (P := [.per, .pcr c, .ppr c, .pccr c.pair, .pcgr]) (by simp))
    refine ⟨_, exec_pwmDisable_performs hs hc noWait (performs_pwmDisable c p polarity hsource hd hp),
      (((InProgress.begin s).disablePolled c).after _).finish _ _, outside.agree, fun d => ?_, fields⟩
    obtain ⟨gate, bypass, enable⟩ := bits d
    rw [State.disablePolled_flag_rw _ _ (pcgrGate_rw d)] at gate
    rw [State.disablePolled_flag_rw _ _ (pcgrByp_rw d)] at bypass
    rw [State.disablePolled_enable] at enable
    exact ⟨gate.trans (Bool.if_false_left _ _), bypass, enable.trans (Bool.if_false_left _ _)⟩
  · exact ⟨_, exec_pwmDisable_sleeps hs hc enabled counting, ((SameOutside.begin [] s).disablePolled c).agree,
      ((InProgress.begin s).disablePolled c).sleep _ _ _ _⟩

/-- Settles O37: the failing check ends the command after the changes of the groups before it, and no other is made. -/
theorem failedApplyPwmConfigLeavesAMixedState : Obligations.FailedApplyPwmConfigLeavesAMixedState := by
  intro s ch source divider c p entire active polarity hs hc
  have gateSet : ∀ {es : List Change}, (es.filter fun e => e.reg = .pcgr) = [.gate c true] → ∀ d : Channel,
      (s.begin.after es).flag .pcgr (pcgrGate d) = (decide (d = c) || s.flag .pcgr (pcgrGate d)) ∧
      (s.begin.after es).flag .pcgr (pcgrByp d) = s.flag .pcgr (pcgrByp d) := by
    intro es only d
    obtain ⟨gate, bypass⟩ := s.begin.after_gate c true only d
    exact ⟨gate.trans (Bool.if_true_left _ _), bypass⟩
  have enableCleared : ∀ {es : List Change}, (es.filter fun e => e.reg = .per) = [.enable c false] → ∀ d : Channel,
      ((s.begin.disablePolled c).after es).flag .per (perEn d) = (!decide (d = c) && s.flag .per (perEn d)) := by
    intro es only d
    rw [State.after_enable _ c false only, State.disablePolled_enable]
    exact Bool.if_false_left _ _
  refine ⟨fun illegal => ?_, fun hsource hd illegal => ?_, fun noWait illegal => ?_, fun noWait hp illegal => ?_⟩
  · have outside := (SameOutside.begin [.pcgr] s).after (es := [.gate c true]) (by simp [Change.configures_iff, Reg.coreOnly])
    exact ⟨_, exec_pwmEnable_fails hs hc (fails_pwmEnable_clock c p polarity illegal), ((InProgress.begin s).after _).finish _ _,
      outside.agree, gateSet (by simp)⟩
  · have outside := (SameOutside.begin [.pcgr, .pccr c.pair] s).after (es := [.gate c true, .clock c source divider])
      (by simp [Change.configures_iff, Reg.coreOnly])
    exact ⟨_, exec_pwmEnable_fails hs hc (fails_pwmEnable_period c p polarity hsource hd illegal), ((InProgress.begin s).after _).finish _ _,
      outside.agree, gateSet (by simp),
      s.begin.after_clock c hsource hd (es := [.gate c true, .clock c source divider]) (by simp)⟩
  · have outside := ((SameOutside.begin [.per, .pcr c] s).disablePolled c).after
      (es := [.enable c false, .polarity c polarity, .prescaler c p]) (by simp [Change.configures_iff, Reg.coreOnly])
    exact ⟨_, exec_pwmDisable_fails hs hc noWait (fails_pwmDisable_period c p polarity illegal),
      (((InProgress.begin s).disablePolled c).after _).finish _ _, outside.agree, enableCleared (by simp),
      State.after_control _ c p polarity (es := [.enable c false, .polarity c polarity, .prescaler c p]) (.inr (by simp))⟩
  · have outside := ((SameOutside.begin [.per, .pcr c, .ppr c] s).disablePolled c).after
      (es := [.enable c false, .polarity c polarity, .prescaler c p, .period c entire active])
      (by simp [Change.configures_iff, Reg.coreOnly])
    obtain ⟨prescalerSet, polaritySet⟩ := (s.begin.disablePolled c).after_control c p polarity
      (es := [.enable c false, .polarity c polarity, .prescaler c p, .period c entire active]) (.inr (by simp))
    exact ⟨_, exec_pwmDisable_fails hs hc noWait (fails_pwmDisable_clock c p polarity hp illegal),
      (((InProgress.begin s).disablePolled c).after _).finish _ _, outside.agree, enableCleared (by simp), prescalerSet, polaritySet,
      (s.begin.disablePolled c).after_period c entire active
        (es := [.enable c false, .polarity c polarity, .prescaler c p, .period c entire active]) (by simp)⟩

end

section
/-! PROOFS. setDutyPercent (R97): the percent check, then one load and one store of the period word, which keeps its entire half. -/

namespace Sys2Proof.Machine

/-! ## The period word after the change (R27, R97) -/

section
variable (s : State) (c : Channel) (percent : Nat)

theorem State.duty_entire : ((Change.duty c percent).apply s).entire c = s.entire c :=
  ((rwField_entire c).store (s.load (.ppr c)).2 _).trans ((periodWord_entire _ _).trans ((rwField_entire c).load s))

theorem State.duty_active : ((Change.duty c percent).apply s).active c = dutyActive (s.entire c) percent := by
  refine ((rwField_active c).store (s.load (.ppr c)).2 _).trans ((periodWord_active _ _).trans ?_)
  rw [(rwField_entire c).load]
  rfl

end

/-- A percentage of a 16-bit count fits 16 bits. -/
theorem dutyActive_toNat (entire : Half) {percent : Nat} (h : percent ≤ 100) :
    (dutyActive entire percent).toNat = entire.toNat * percent / 100 := by
  have part : entire.toNat * percent / 100 ≤ entire.toNat := Nat.div_le_of_le_mul (by rw [Nat.mul_comm 100]; exact Nat.mul_le_mul_left _ h)
  rw [dutyActive, BitVec.toNat_ofNat]
  exact Nat.mod_eq_of_lt (Nat.lt_of_le_of_lt part entire.isLt)

/-! ## The command as an operation -/

section
variable {s : State} {ch percent : Word} {c : Channel} (hs : s.seq = .idle) (hc : ch.toInt = c.val)
include hs hc

theorem exec_setDutyPercent {p : Nat} (h : percent.toInt = p) (hp : p ≤ 100) :
    exec (.setDutyPercent ch percent) s = .next (((Change.duty c p).apply s.begin).finish .ok []) := by
  have legal : percentValid percent = true := by simp [percentValid, h, hp]
  rw [exec_onChannel rfl hs hc, linesSetDutyPercent, legal, if_neg (by decide), h]
  rfl

theorem exec_setDutyPercent_illegal (h : percent.toInt < 0 ∨ percent.toInt > 100) :
    exec (.setDutyPercent ch percent) s = .next (s.begin.finish .invalidArgument []) := by
  have illegal : percentValid percent = false := by simpa [percentValid, ← Bool.not_eq_true, imp_iff_not_or] using h
  rw [exec_onChannel rfl hs hc, linesSetDutyPercent, illegal, if_pos (by decide), runLines_raise]

end

end Sys2Proof.Machine

open Sys2Proof Sys2Proof.Machine

/-- Settles O39: the store's word has the entire half as loaded, and the active half computed from it. -/
theorem setDutyPercentScalesTheEntireCycles : Obligations.SetDutyPercentScalesTheEntireCycles := by
  refine ⟨fun _ => .of_lines (fun _ => rfl) fun _ => rfl, fun s ch percent c hs hc =>
    ⟨fun p h hp => ?_, exec_setDutyPercent_illegal hs hc⟩⟩
  refine ⟨_, exec_setDutyPercent hs hc h hp, answered_loadStore s _ _, untouched_loadStore s _ _, s.begin.duty_entire c p, ?_⟩
  rw [State.finish_active, State.duty_active, dutyActive_toNat _ hp, State.begin_entire]

end

section
/-! PROOFS. applyCaptureConfig and captureBlocking (R98, R99): the Busy check, the row of changes that configures, arms and clears, and the waiting path that stores nothing; under a quiet
Peripheral (R55) a row of changes leaves every other register as it was. -/

namespace Sys2Proof.Machine

/-! ## Changes in a row under a quiet Peripheral (R55) -/

section
variable {s : State} (h : s.quiet)
include h

theorem State.quiet.load_mem (r : Reg) : (s.load r).2.mem = s.mem := (s.load_mem r).trans h.turn_mem

theorem State.quiet.change (e : Change) : (e.apply s).quiet := by
  obtain ⟨-, v, he⟩ | ⟨-, v, he⟩ := e.apply_form s
  · rw [he]
    exact h.store _ v
  · rw [he]
    exact (h.load _).store _ v

/-- A change leaves every byte outside its register. -/
theorem State.quiet.change_agree {P : List Reg} {e : Change} (he : e.reg ∈ P) : AgreeUpTo P (e.apply s) s := by
  intro a ha
  obtain ⟨-, v, hs⟩ | ⟨-, v, hs⟩ := e.apply_form s
  · rw [hs, State.store_readByte _ _ _ _ (ha _ he), h.turn_mem]
  · rw [hs, State.store_readByte _ _ _ _ (ha _ he), (h.load _).turn_mem, h.load_mem]

theorem State.quiet.after (es : List Change) : (s.after es).quiet :=
  State.after_induct State.quiet (fun e _ _ hu => hu.change e) s h

theorem State.quiet.after_agree {P : List Reg} {es : List Change} (hes : ∀ e ∈ es, e.reg ∈ P) : AgreeUpTo P (s.after es) s := by
  induction es generalizing s with
  | nil => exact fun _ _ => rfl
  | cons e es ih =>
    intro a ha
    exact (ih (h.change e) (fun f hf => hes f (List.mem_cons_of_mem e hf)) a ha).trans (h.change_agree (hes e List.mem_cons_self) a ha)

end

/-! ## The clear of an edge touches no `RW` bit (R88) -/

theorem State.clearEdge_flag_rw (s : State) (c : Channel) (e : Edge) {q : Reg} {k : Nat} (hk : (q.mask .rw).getLsbD k = true) :
    (s.clearEdge c e).flag q k = s.flag q k := by
  have stored : (s.store .cisr (bit (e.pending c))).flag q k = s.flag q k := by
    rw [State.store_flag_rw _ _ _ _ _ hk, if_neg]
    rintro rfl
    rw [Reg.rw_cisr, BitVec.getLsbD_zero] at hk
    cases hk
  rw [← stored]
  refine Change.apply_flag_rw (.rmw (.ccr c) e.lock true ccrW1c) _ q k hk ?_
  rw [Change.bits, onReg_getLsbD, Bool.and_eq_false_imp, decide_eq_true_eq]
  rintro rfl
  rw [Reg.rw_ccr] at hk
  exact getLsbD_of_apart (by cases e <;> decide) hk

theorem State.clearEdges_flag_rw (s : State) (c : Channel) (rising falling : Bool) {q : Reg} {k : Nat} (hk : (q.mask .rw).getLsbD k = true) :
    (s.clearEdges c rising falling).flag q k = s.flag q k := by
  cases rising <;> cases falling <;> simp [State.clearEdges, State.clearEdgeIf, State.clearEdge_flag_rw, hk]

/-! ## The changes that configure, arm and clear (R98) -/

/-- The three changes of the clock tree: gate only if both edges are requested (R131), clock, prescaler. -/
def captureClockChanges (c : Channel) (source divider : Word) (p : Byte) (rising falling : Bool) : List Change :=
  [.gate c (rising && falling), .clock c source divider, .prescaler c p]

/-- The three changes of setCaptureEnable (R86). -/
def armChanges (c : Channel) (rising falling : Bool) : List Change :=
  [.rmw .cer (cerEn c) (rising || falling) 0, .rmw (.ccr c) ccrRiseArm rising ccrW1c, .rmw (.ccr c) ccrFallArm falling ccrW1c]

/-- The four changes of a clearCaptureInterrupt of both edges (R88). -/
def clearChanges (c : Channel) : List Change :=
  [.write .cisr (bit (cisrRise c)), .rmw (.ccr c) ccrRlf true ccrW1c, .write .cisr (bit (cisrFall c)), .rmw (.ccr c) ccrFlf true ccrW1c]

/-- The ten changes of applyCaptureConfig with legal operands. -/
def captureChanges (c : Channel) (source divider : Word) (p : Byte) (rising falling : Bool) : List Change :=
  captureClockChanges c source divider p rising falling ++ armChanges c rising falling ++ clearChanges c

theorem State.after_armChanges (s : State) (c : Channel) (rising falling : Bool) :
    s.after (armChanges c rising falling) = s.armEdges c rising falling := rfl

theorem State.after_clearChanges (s : State) (c : Channel) : s.after (clearChanges c) = s.clearEdges c true true := rfl

theorem performs_setCaptureEnable (c : Channel) (rising falling : Bool) :
    Performs (linesSetCaptureEnable c rising falling) (armChanges c rising falling) :=
  fun cmd rest loc s => runLines_setCaptureEnable cmd rest loc s c rising falling

theorem performs_clearCaptureInterrupt (c : Channel) : Performs (linesClearCaptureInterrupt c true true) (clearChanges c) :=
  fun cmd rest loc s => runLines_clearCaptureInterrupt cmd rest loc s c true true

/-- The lines of applyCaptureConfig after the Busy check. -/
def linesCaptureConfigured (c : Channel) (source divider : Word) (p : Byte) (rising falling : Bool) : List Line :=
  linesSetClockGate c (rising && falling) ++ linesConfigureClock c source divider ++ linesSetPrescaler c p
    ++ linesSetCaptureEnable c rising falling ++ linesClearCaptureInterrupt c true true

theorem linesApplyCaptureConfig_eq (c : Channel) (source divider : Word) (p : Byte) (rising falling : Bool) :
    linesApplyCaptureConfig c source divider p rising falling =
      linesIsEnabled c ++ .raiseIfEnabled :: linesCaptureConfigured c source divider p rising falling := rfl

theorem performs_captureConfigured (c : Channel) {source divider : Word} (p : Byte) (rising falling : Bool) (hsource : source.toNat ≤ 1)
    (hd : divider.toNat ≤ 8) :
    Performs (linesCaptureConfigured c source divider p rising falling) (captureChanges c source divider p rising falling) :=
  ((((performs_gate c _).append (performs_configureClock c hsource hd)).append (performs_setPrescaler c p)).append
    (performs_setCaptureEnable c rising falling)).append (performs_clearCaptureInterrupt c)

theorem fails_captureConfigured (c : Channel) {source divider : Word} (p : Byte) (rising falling : Bool)
    (h : source.toNat > 1 ∨ divider.toNat > 8) :
    Fails (linesCaptureConfigured c source divider p rising falling) [.gate c (rising && falling)] :=
  ((((performs_gate c _).append_fails (fails_configureClock c h)).append _).append _).append _

/-! ## applyCaptureConfig as an operation -/

section
variable {s : State} {ch source divider : Word} {c : Channel} {p : Byte} {rising falling : Bool} (hs : s.seq = .idle) (hc : ch.toInt = c.val)
include hs hc

/-- The one load of `PER` comes first, and a channel whose PWM mode is on ends the command there (D32). -/
theorem exec_applyCaptureConfig :
    exec (.applyCaptureConfig ch source divider p rising falling) s =
      .next (if s.flag .per (perEn c) then (s.begin.load .per).2.finish .busy []
        else runLines (.applyCaptureConfig ch source divider p rising falling) (linesCaptureConfigured c source divider p rising falling)
          { enabled := s.flag .per (perEn c) } (s.begin.load .per).2) := by
  rw [exec_onChannel rfl hs hc, linesApplyCaptureConfig_eq, runLines_isEnabled, runLines_raiseIfEnabled, State.begin_flag]

theorem exec_applyCaptureConfig_busy (on : s.flag .per (perEn c) = true) :
    exec (.applyCaptureConfig ch source divider p rising falling) s = .next ((s.begin.load .per).2.finish .busy []) := by
  rw [exec_applyCaptureConfig hs hc, if_pos on]

theorem exec_applyCaptureConfig_performs (off : s.flag .per (perEn c) = false) {es : List Change}
    (h : Performs (linesCaptureConfigured c source divider p rising falling) es) :
    exec (.applyCaptureConfig ch source divider p rising falling) s = .next (((s.begin.load .per).2.after es).finish .ok []) := by
  rw [exec_applyCaptureConfig hs hc, off, if_neg Bool.false_ne_true, h.ends]

theorem exec_applyCaptureConfig_fails (off : s.flag .per (perEn c) = false) {es : List Change}
    (h : Fails (linesCaptureConfigured c source divider p rising falling) es) :
    exec (.applyCaptureConfig ch source divider p rising falling) s =
      .next (((s.begin.load .per).2.after es).finish .invalidArgument []) := by
  rw [exec_applyCaptureConfig hs hc, off, if_neg Bool.false_ne_true, h.ends]

end

/-! ## What applyCaptureConfig leaves (R98) -/

section
variable (s : State) (c : Channel) (source divider : Word) (p : Byte) (rising falling : Bool)

/-- The three groups of changes, each as its own operation. -/
theorem State.after_captureChanges : s.after (captureChanges c source divider p rising falling) =
    ((s.after (captureClockChanges c source divider p rising falling)).armEdges c rising falling).clearEdges c true true := by
  rw [captureChanges, State.after_append, State.after_append, State.after_armChanges, State.after_clearChanges]

theorem State.captureChanges_gate (d : Channel) :
    (s.after (captureChanges c source divider p rising falling)).flag .pcgr (pcgrGate d) =
      (if d = c then rising && falling else s.flag .pcgr (pcgrGate d)) ∧
    (s.after (captureChanges c source divider p rising falling)).flag .pcgr (pcgrByp d) = s.flag .pcgr (pcgrByp d) :=
  s.after_gate c _ (by simp [captureChanges, captureClockChanges, armChanges, clearChanges]) d

theorem State.captureChanges_clock (hsource : source.toNat ≤ 1) (hd : divider.toNat ≤ 8) :
    (s.after (captureChanges c source divider p rising falling)).source c.pair = decide (source.toNat = 1) ∧
    ((s.after (captureChanges c source divider p rising falling)).divider c.pair).toNat = divider.toNat :=
  s.after_clock c hsource hd (by simp [captureChanges, captureClockChanges, armChanges, clearChanges])

theorem State.captureChanges_prescaler :
    (s.after (captureChanges c source divider p rising falling)).prescaler c = p ∧
    (s.after (captureChanges c source divider p rising falling)).flag (.pcr c) pcrActSta = s.flag (.pcr c) pcrActSta :=
  s.after_prescaler c p (by simp [captureChanges, captureClockChanges, armChanges, clearChanges])

theorem State.captureChanges_enable (d : Channel) :
    (s.after (captureChanges c source divider p rising falling)).flag .cer (cerEn d) =
      if d = c then rising || falling else s.flag .cer (cerEn d) := by
  have none : ((captureClockChanges c source divider p rising falling).filter fun e => e.reg = .cer) = [] := by
    simp [captureClockChanges]
  rw [State.after_captureChanges, State.clearEdges_flag_rw _ _ _ _ (cerEn_rw d), State.armEdges_enable, s.after_flag_rw none (cerEn_rw d)]
  rfl

theorem State.captureChanges_arms :
    (s.after (captureChanges c source divider p rising falling)).flag (.ccr c) ccrRiseArm = rising ∧
    (s.after (captureChanges c source divider p rising falling)).flag (.ccr c) ccrFallArm = falling := by
  obtain ⟨-, rise_rw, -⟩ := armBit_spec c ccrRiseArm (.inl rfl)
  obtain ⟨-, fall_rw, -⟩ := armBit_spec c ccrFallArm (.inr rfl)
  rw [State.after_captureChanges, State.clearEdges_flag_rw _ _ _ _ rise_rw, State.clearEdges_flag_rw _ _ _ _ fall_rw]
  exact ⟨State.armEdges_riseArm _ c rising falling, State.armEdges_fallArm _ c rising falling⟩

/-- The changes before the clear write a 1 to no flag: the arm bits' by the mask `CCR_W1C`. -/
theorem captureChanges_keepFlags :
    ∀ e ∈ captureClockChanges c source divider p rising falling ++ armChanges c rising falling, e.KeepsFlags := by
  obtain ⟨-, -, -, riseMasked⟩ := armBit_spec c ccrRiseArm (.inl rfl)
  obtain ⟨-, -, -, fallMasked⟩ := armBit_spec c ccrFallArm (.inr rfl)
  simp only [captureClockChanges, armChanges, List.cons_append, List.nil_append, List.forall_mem_cons]
  refine ⟨?_, ?_, trivial, ?_, riseMasked, fallMasked, nofun⟩ <;> simp [Change.KeepsFlags, Change.gate, Change.clock]

theorem State.captureChanges_keeps {k : Nat} (hk : k < 16) (notRise : k ≠ cisrRise c) (notFall : k ≠ cisrFall c)
    (h : s.flag .cisr k = true) : (s.after (captureChanges c source divider p rising falling)).flag .cisr k = true := by
  have armed := State.after_induct (fun u => u.flag .cisr k = true)
    (fun e he u => (captureChanges_keepFlags c source divider p rising falling e he).apply u .cisr k (cisr_w1c hk)) s h
  rw [captureChanges, State.after_append]
  exact State.clearEdges_keeps c true true (cisr_w1c hk) (Edge.and_sets_cisr.2 fun h => notRise h.2) (Edge.and_sets_cisr.2 fun h => notFall h.2)
    armed

theorem SameOutside.captureChanges {P : List Reg} {s t : State} (h : SameOutside P s t) (hpcgr : .pcgr ∈ P) (hpccr : .pccr c.pair ∈ P)
    (hpcr : .pcr c ∈ P) (hcer : .cer ∈ P) (hP : LatchesInside P c) :
    SameOutside P (s.after (captureChanges c source divider p rising falling)) (t.turns 17) := by
  obtain ⟨-, -, hccr, hcisr⟩ := id hP
  have clocked := h.after (es := captureClockChanges c source divider p rising falling)
    (by simp [captureClockChanges, Change.configures_iff, Reg.coreOnly, hpcgr, hpccr, hpcr])
  exact ((clocked.armEdges c rising falling hcer hP).clearEdge c .rise hcisr hccr).clearEdge c .fall hcisr hccr

section
variable {s} (h : s.quiet)
include h

theorem State.quiet.captureChanges_lockFlags :
    (s.after (captureChanges c source divider p rising falling)).flag (.ccr c) ccrRlf = false ∧
    (s.after (captureChanges c source divider p rising falling)).flag (.ccr c) ccrFlf = false := by
  have armed := h.after (captureClockChanges c source divider p rising falling ++ armChanges c rising falling)
  rw [captureChanges, State.after_append]
  exact ⟨armed.clearEdges_riseLock c true true, armed.clearEdges_fallLock c true true⟩

theorem State.quiet.captureChanges_pending (d : Channel) :
    (s.after (captureChanges c source divider p rising falling)).flag .cisr (cisrRise d) =
      (!decide (d = c) && s.flag .cisr (cisrRise d)) ∧
    (s.after (captureChanges c source divider p rising falling)).flag .cisr (cisrFall d) =
      (!decide (d = c) && s.flag .cisr (cisrFall d)) := by
  have armed := h.after (captureClockChanges c source divider p rising falling ++ armChanges c rising falling)
  have kept : ∀ k, (s.after (captureClockChanges c source divider p rising falling ++ armChanges c rising falling)).flag .cisr k =
      s.flag .cisr k := fun k => congrArg (fun w => w.getLsbD k)
    ((h.after_agree (P := [.pcgr, .pccr c.pair, .pcr c, .cer, .ccr c]) (by simp [captureClockChanges, armChanges])).stored .cisr (by simp))
  rw [captureChanges, State.after_append, ← kept, ← kept]
  exact ⟨armed.clearEdges_risePending c true true d, armed.clearEdges_fallPending c true true d⟩

theorem State.quiet.captureChanges_agree :
    AgreeUpTo [.pcgr, .pccr c.pair, .pcr c, .cer, .ccr c, .cisr] (s.after (captureChanges c source divider p rising falling)) s :=
  h.after_agree (by simp [captureChanges, captureClockChanges, armChanges, clearChanges])

end

end

/-- The command writes `RW` bits in five registers only. -/
theorem mayWrite_applyCaptureConfig {ch source divider : Word} {c : Channel} {p : Byte} {rising falling : Bool} (hc : ch.toInt = c.val) {r : Reg}
    (hr : r ∉ [.pcgr, .pccr c.pair, .pcr c, .cer, .ccr c]) : (Instr.applyCaptureConfig ch source divider p rising falling).mayWrite r = 0 := by
  simp only [List.mem_cons, List.not_mem_nil, or_false, not_or] at hr
  obtain ⟨pcgr, pccr, pcr, cer, ccr⟩ := hr
  rw [mayWrite_of_channel rfl ((channel?_eq_some ch c).2 hc)]
  simp [Instr.writesOn, onReg, pcgr, pccr, pcr, cer, ccr]

end Sys2Proof.Machine

open Sys2Proof Sys2Proof.Machine

/-- Settles O41: the Busy check comes before every store, and the operand check of the clock after the gate's. -/
theorem applyCaptureConfigBusyWritesNothing : Obligations.ApplyCaptureConfigBusyWritesNothing := by
  intro s ch source divider c p rising falling hs hc
  refine ⟨fun on => ?_, fun off illegal => ?_⟩
  · exact ⟨_, exec_applyCaptureConfig_busy hs hc on, answered_load s _ _ _, untouched_load s _ _ _⟩
  · have outside := ((SameOutside.begin [.pcgr] s).load .per).after (es := [.gate c (rising && falling)])
      (by simp [Change.configures_iff, Reg.coreOnly])
    obtain ⟨gate, -⟩ := (s.begin.load .per).2.after_gate c (rising && falling) (es := [.gate c (rising && falling)]) (by simp) c
    exact ⟨_, exec_applyCaptureConfig_fails hs hc off (fails_captureConfigured c p rising falling illegal),
      (((InProgress.begin s).load .per).after _).finish _ _, outside.agree, gate.trans (if_pos rfl)⟩

/-- Settles O40: the changes configure, arm and clear in this order; only arming lets the Peripheral latch, and only the clear touches a flag. -/
theorem applyCaptureConfigArmsAndClears : Obligations.ApplyCaptureConfigArmsAndClears := by
  intro s ch source divider c p rising falling hs hc hsource hd off
  have run := exec_applyCaptureConfig_performs hs hc off (performs_captureConfigured c p rising falling hsource hd)
  have outside := ((SameOutside.begin [.pcgr, .pccr c.pair, .pcr c, .cer, .ccr c, .cisr, .crlr c, .cflr c] s).load .per).captureChanges c
    source divider p rising falling (by simp) (by simp) (by simp) (by simp) (by simp [LatchesInside])
  have loaded : ∀ {q : Reg} {k : Nat}, (q.mask .rw).getLsbD k = true → (s.begin.load .per).2.flag q k = s.flag q k :=
    fun hk => s.begin.load_flag_rw .per _ _ hk
  obtain ⟨prescalerSet, polarityKept⟩ := (s.begin.load .per).2.captureChanges_prescaler c source divider p rising falling
  obtain ⟨sourceSet, dividerSet⟩ := (s.begin.load .per).2.captureChanges_clock c source divider p rising falling hsource hd
  obtain ⟨riseArm, fallArm⟩ := (s.begin.load .per).2.captureChanges_arms c source divider p rising falling
  refine ⟨_, run, (((InProgress.begin s).load .per).after _).finish _ _, exec_keepsRw run fun _ => mayWrite_applyCaptureConfig hc,
    outside.agree, fun k hk notRise notFall set => ?_, fun d => ?_, sourceSet, dividerSet, prescalerSet, polarityKept.trans (loaded (actSta_rw c)),
    riseArm, fallArm, fun quiet => ?_⟩
  · exact State.captureChanges_keeps _ c source divider p rising falling hk notRise notFall (s.begin.load_w1c .per .cisr k (cisr_w1c hk) set)
  · obtain ⟨gate, bypass⟩ := (s.begin.load .per).2.captureChanges_gate c source divider p rising falling d
    have enable := (s.begin.load .per).2.captureChanges_enable c source divider p rising falling d
    rw [loaded (pcgrGate_rw d)] at gate
    rw [loaded (cerEn_rw d)] at enable
    exact ⟨gate, bypass.trans (loaded (pcgrByp_rw d)), enable⟩
  · have begun : s.begin.quiet := quiet
    have loadedQuiet := begun.load .per
    obtain ⟨riseLock, fallLock⟩ := loadedQuiet.captureChanges_lockFlags c source divider p rising falling
    refine ⟨riseLock, fallLock, fun d => ?_, fun a ha => ?_⟩
    · have pending := loadedQuiet.captureChanges_pending c source divider p rising falling d
      rwa [begun.load_flag, begun.load_flag] at pending
    · refine (loadedQuiet.captureChanges_agree c source divider p rising falling a ha).trans ?_
      rw [begun.load_mem]
      rfl

end

section
/-! PROOFS. captureBlocking (R99): four loads, then the clear of both edges, or two loads and a sleep at the head of its loop. -/

namespace Sys2Proof.Machine

theorem linesCaptureBlocking_eq (c : Channel) : linesCaptureBlocking c =
    captureLoop c ++ (.read (.fallCount c) :: .read (.riseCount c) :: (linesClearCaptureInterrupt c true true ++ [.ret .counts])) := rfl

/-- While one of the two flags is not seen set, the command sleeps after the loop's two loads. -/
theorem exec_captureBlocking_sleeps {s : State} {ch : Word} {c : Channel} (hs : s.seq = .idle) (hc : ch.toInt = c.val)
    (unseen : s.turn.flag (.ccr c) ccrFlf = false ∨ (s.turns 2).flag (.ccr c) ccrRlf = false) :
    exec (.captureBlocking ch true) s = .next ((s.begin.capturePolled c).sleep (.captureBlocking ch true) (linesCaptureBlocking c)
      (s.begin.captureLocals c {}) Config.capturePoll) := by
  have notBoth : ¬(s.begin.turn.flag (.ccr c) ccrFlf && (s.begin.turns 2).flag (.ccr c) ccrRlf) = true := by
    rw [State.turn_begin, State.turns_begin, State.begin_flag, State.begin_flag]
    obtain fall | rise := unseen
    · rw [fall, Bool.false_and]
      exact Bool.false_ne_true
    · rw [rise, Bool.and_false]
      exact Bool.false_ne_true
  rw [exec_onChannel rfl hs hc, withDst_true, linesCaptureBlocking_eq, runLines_captureLoop, if_neg notBoth]

section
variable {s t : State}

theorem InProgress.capturePolled {accesses : List Access} (h : InProgress s t accesses) (c : Channel) :
    InProgress s (t.capturePolled c) (accesses ++ [.load (.ccr c)] ++ [.load (.ccr c)]) :=
  (h.load _).load _

/-- As far as the window goes, the loop is two turns of the Peripheral. -/
theorem SameOutside.capturePolled {P : List Reg} (h : SameOutside P s t) (c : Channel) : SameOutside P (s.capturePolled c) (t.turns 2) :=
  (h.load _).load _

/-- The four loads clear no flag. -/
theorem State.captured_keeps (s : State) (c : Channel) {r : Reg} {k : Nat} (hk : (r.mask .w1c).getLsbD k = true) (h : s.flag r k = true) :
    (s.captured c).flag r k = true :=
  State.load_w1c _ _ r k hk (State.load_w1c _ _ r k hk (State.load_w1c _ _ r k hk (State.load_w1c _ _ r k hk h)))

theorem State.quiet.captured_flag (h : s.quiet) (c : Channel) (r : Reg) (k : Nat) : (s.captured c).flag r k = s.flag r k := by
  rw [State.captured, State.capturePolled, (((h.load _).load _).load _).load_flag, ((h.load _).load _).load_flag, (h.load _).load_flag,
    h.load_flag]

end

end Sys2Proof.Machine

open Sys2Proof Sys2Proof.Machine

/-- Settles O42: the loop's two loads decide alone; then come the two counts, and after them the clear of both edges. -/
theorem captureBlockingReadsBothCounts : Obligations.CaptureBlockingReadsBothCounts := by
  intro s ch c hs hc
  refine ⟨fun fall rise => ?_, fun unseen => ?_⟩
  · have run := exec_captureBlocking_ends hs hc fall rise
    have loads := (((InProgress.begin s).capturePolled c).load (.cflr c)).load (.crlr c)
    have outside := (((((SameOutside.begin [.cisr, .ccr c] s).capturePolled c).load (.cflr c)).load (.crlr c)).clearEdge c .rise
      (by simp) (by simp)).clearEdge c .fall (by simp) (by simp)
    refine ⟨_, run, ((loads.clearEdge c .rise).clearEdge c .fall).finish _ _,
      exec_keepsRw run fun r _ => mayWrite_captureBlocking hc r, outside.agree, fun k hk notRise notFall set => ?_, fun quiet => ?_⟩
    · exact State.clearEdges_keeps c true true (cisr_w1c hk) (Edge.and_sets_cisr.2 fun h => notRise h.2)
        (Edge.and_sets_cisr.2 fun h => notFall h.2) (s.begin.captured_keeps c (cisr_w1c hk) set)
    · have begun : s.begin.quiet := quiet
      have loaded := begun.captured c
      refine ⟨loaded.clearEdges_riseLock c true true, loaded.clearEdges_fallLock c true true, fun d => ⟨?_, ?_⟩⟩
      · exact (loaded.clearEdges_risePending c true true d).trans (by rw [begun.captured_flag]; rfl)
      · exact (loaded.clearEdges_fallPending c true true d).trans (by rw [begun.captured_flag]; rfl)
  · exact ⟨_, exec_captureBlocking_sleeps hs hc unseen, ((SameOutside.begin [] s).capturePolled c).agree,
      ((InProgress.begin s).capturePolled c).sleep _ _ _ _⟩

end

section
/-! PROOFS. The channel check stands before every other line of a command that has `ch`, and no command without `ch` can raise its error (R107). -/

namespace Sys2Proof.Machine

/-- The lines of a command with `ch` are what it does with a channel, behind the channel check. -/
theorem lines_withChannel {i : Instr} {ch : Word} (h : i.chOperand = some ch) :
    ∃ lines, i.lines = some (withChannel ch lines) := by
  cases i with
  | load32 | store32 | readModifyWriteBit | effectiveClockPeriodNs => cases h
  | _ => cases h; exact ⟨_, rfl⟩

/-- A command raises no error that is not in its table (R109). -/
theorem exec_code {i : Instr} {s t : State} {a : Response} (h : exec i s = .next t) (ha : t.response = some a) :
    a.code = .ok ∨ a.code ∈ i.mayRaise :=
  (exec_answerFits h a ha).imp And.left And.left

end Sys2Proof.Machine

open Sys2Proof Sys2Proof.Machine

/-- Settles O47: the channel check is the first line of every command with `ch`, and InvalidChannel is in the table of no other command. -/
theorem invalidChannelIsCheckedFirst : Obligations.InvalidChannelIsCheckedFirst := by
  intro s i
  refine ⟨fun ch hs hch outside => ?_, fun hch t a h ha hcode => ?_⟩
  · obtain ⟨lines, hl⟩ := lines_withChannel hch
    exact exec_invalidChannel hl hs outside
  · have notListed : .invalidChannel ∉ i.mayRaise := by
      rw [invalidChannel_mem_mayRaise, hch]
      exact Bool.false_ne_true
    obtain ok | listed := exec_code h ha
    · rw [hcode] at ok
      cases ok
    · rw [hcode] at listed
      exact notListed listed

end

section
/-! PROOFS. Core step by Core step (R52): in every state along lines that make changes in order, the `RW` bits are those that the changes made so far leave. Along the two
paths of applyPwmConfig this gives the two hazards that R127 and R128 exclude. -/

namespace Sys2Proof.Machine

/-! ## Windows with the same `RW` bits -/

theorem AgreeRw.refl (q : Reg) (s : State) : AgreeRw q s s := fun _ _ => rfl

theorem AgreeRw.trans {q : Reg} {s t u : State} (h : AgreeRw q s t) (h' : AgreeRw q t u) : AgreeRw q s u :=
  fun k hk => (h k hk).trans (h' k hk)

theorem AgreeRw.of_mem {s t : State} (h : s.mem = t.mem) (q : Reg) : AgreeRw q s t := fun k _ => State.flag_of_mem h q k

/-- The Peripheral changes no `RW` bit (R37, R55). -/
theorem AgreeRw.turn (s : State) (q : Reg) : AgreeRw q s.turn s := s.turn_flag_rw q

theorem AgreeRw.load (s : State) (r : Reg) (line : Seq) (q : Reg) : AgreeRw q ((s.load r).2.putSeq line) s := s.load_flag_rw r q

/-- Changes made on windows with the same `RW` bits leave windows with the same `RW` bits. -/
theorem AgreeRw.after_both {q : Reg} {s t : State} (h : AgreeRw q s t) (es : List Change) : AgreeRw q (s.after es) (t.after es) :=
  fun k hk => (h.after es k hk).trans ((AgreeRw.refl q t).after es k hk).symm

theorem Reg.RwField.agree {q : Reg} {lo w : Nat} (field : q.RwField lo w) {s t : State} (h : AgreeRw q s t) :
    (s.stored q).extractLsb' lo w = (t.stored q).extractLsb' lo w := by
  ext k hk
  rw [BitVec.getElem_extractLsb', BitVec.getElem_extractLsb']
  exact h (lo + k) (field k hk)

/-! ## Core steps without a change -/

/-- Without a command the Core does nothing (R36). -/
theorem coreSteps_idle {s : State} (h : s.seq = .idle) (n : Nat) : coreSteps n s = s := by
  induction n with
  | zero => rfl
  | succ n ih => rwa [coreSteps, show coreStep s = s by simp only [coreStep, h]]

theorem coreStep_read {s : State} {cmd : Instr} {x : Read} {rest : List Line} {loc : Locals} (h : s.seq = .run cmd (.read x :: rest) loc) :
    coreStep s = (s.load x.reg).2.putSeq (.run cmd rest (x.into (s.load x.reg).1 loc)) :=
  coreStep_run_go h rfl

/-- A load line, and after it a line that stores, are the load and the store. -/
theorem coreStep_load_store {s : State} {cmd : Instr} {x : Read} {l : Line} {rest : List Line} {loc loc' : Locals} {r : Reg} {v : Word}
    (h : s.seq = .run cmd (.read x :: l :: rest) loc)
    (hl : ∀ u, l.perform (x.into (s.load x.reg).1 loc) u = .go loc' (u.store r v)) :
    coreStep (coreStep s) = ((s.load x.reg).2.store r v).putSeq (.run cmd rest loc') := by
  rw [coreStep_read h, coreStep_run_go (State.putSeq_seq _ _) (hl _), State.store_putSeq]
  rfl

/-- The test of the disable loop goes on, or sleeps and wakes at the head of the loop after the Peripheral's turn (R54, R82). -/
theorem coreStep_waitDisable {s : State} {cmd : Instr} {c : Channel} {rest : List Line} {loc : Locals}
    (h : s.seq = .run cmd (.waitDisable c :: rest) loc) :
    coreStep s = s.putSeq (.run cmd rest loc) ∨
    (coreStep s).mem = s.mem ∧
      ∃ t : State, coreStep (coreStep s) = t.putSeq (.run cmd (disableLoop c ++ rest) loc) ∧ t.mem = s.turn.mem := by
  by_cases wait : (loc.enabled && loc.pulse != 0) = true
  · rw [coreStep_run_sleep h (if_pos wait)]
    exact .inr ⟨State.sleep_mem .., _, rfl, State.turn_mem_congr _ _ rfl rfl⟩
  · exact .inl (coreStep_run_go h (if_neg wait))

/-! ## Core steps of one change (R44, R45) -/

/-- The lines of a change: one store, or a load and a store. -/
def Change.lines : Change → List Line
  | .write r v => [.write r v]
  | .rmw r i b m => rmwLines r i b m
  | .prescaler c p => linesSetPrescaler c p
  | .duty c percent => [.read (.period c), .writeDuty c percent]

/-- A Core that begins a change has changed no `RW` bit yet, or has made the change and goes on to the lines after it. -/
theorem coreSteps_change {s : State} {cmd : Instr} {e : Change} {rest : List Line} {loc : Locals}
    (h : s.seq = .run cmd (e.lines ++ rest) loc) (n : Nat) :
    (∀ q, AgreeRw q (coreSteps n s) s) ∨
    ∃ m < n, ∃ loc', coreSteps n s = coreSteps m ((e.apply s).putSeq (.run cmd rest loc')) := by
  cases e with
  | write r v =>
    match n with
    | 0 => exact .inl fun q => .refl q s
    | m + 1 => exact .inr ⟨m, m.lt_succ_self, loc, congrArg (coreSteps m) (coreStep_run_go h rfl)⟩
  | rmw | prescaler | duty =>
    match n with
    | 0 => exact .inl fun q => .refl q s
    | 1 =>
      rw [coreSteps, coreSteps, coreStep_read h]
      exact .inl (.load s _ _)
    | m + 2 =>
      have made := coreStep_load_store h fun _ => rfl
      rw [coreSteps, coreSteps, made]
      exact .inr ⟨m, by omega, _, rfl⟩

/-! ## Core steps along changes in order -/

/-- The lines make changes from the front of the list, one after the other and each whole; they may stop early with an error, and sleep in the disable loop only. -/
inductive MakesInOrder : List Line → List Change → Prop
  | nil : MakesInOrder [] []
  | raise (e : Code) (rest : List Line) (es : List Change) : MakesInOrder (.raise e :: rest) es
  | read (x : Read) {rest : List Line} {es : List Change} : MakesInOrder rest es → MakesInOrder (.read x :: rest) es
  | waitDisable (c : Channel) {rest : List Line} {es : List Change} : MakesInOrder rest es → MakesInOrder (.waitDisable c :: rest) es
  | change (e : Change) {rest : List Line} {es : List Change} : MakesInOrder rest es → MakesInOrder (e.lines ++ rest) (e :: es)

theorem MakesInOrder.disableLoop {rest : List Line} {es : List Change} (h : MakesInOrder rest es) (c : Channel) :
    MakesInOrder (disableLoop c ++ rest) es :=
  .read _ (.read _ (.waitDisable c h))

/-- The `RW` bits of `u` are those that some of the changes, from the front, leave of those of `s`. -/
def MadeSome (es : List Change) (s u : State) : Prop := ∃ made, made <+: es ∧ ∀ q, AgreeRw q u (s.after made)

theorem MadeSome.none {es : List Change} {s u : State} (h : ∀ q, AgreeRw q u s) : MadeSome es s u := ⟨[], List.nil_prefix, h⟩

theorem MadeSome.of_agree {es : List Change} {s t u : State} (h : MadeSome es t u) (hst : ∀ q, AgreeRw q t s) : MadeSome es s u := by
  obtain ⟨made, front, agree⟩ := h
  exact ⟨made, front, fun q => (agree q).trans ((hst q).after_both made)⟩

theorem MadeSome.cons {e : Change} {es : List Change} {s u : State} (h : MadeSome es (e.apply s) u) : MadeSome (e :: es) s u := by
  obtain ⟨made, front, agree⟩ := h
  exact ⟨e :: made, List.cons_prefix_cons.2 ⟨rfl, front⟩, agree⟩

/-- After any number of Core steps along the lines, sleeps included, some of the changes are made, from the front. -/
theorem MakesInOrder.coreSteps {lines : List Line} {es : List Change} (hl : MakesInOrder lines es) {cmd : Instr} {loc : Locals} {s : State}
    (h : s.seq = .run cmd lines loc) (n : Nat) : MadeSome es s (coreSteps n s) := by
  induction n using Nat.strongRecOn generalizing lines es loc s with
  | ind n ih =>
    obtain _ | n := n
    · exact .none fun q => .refl q s
    cases hl with
    | nil =>
      rw [Machine.coreSteps, coreStep_run_nil h, coreSteps_idle rfl]
      exact .none (.of_mem rfl)
    | raise e rest =>
      rw [Machine.coreSteps, coreStep_run_done h rfl, coreSteps_idle rfl]
      exact .none (.of_mem rfl)
    | read x later =>
      rw [Machine.coreSteps, coreStep_read h]
      exact (ih n n.lt_succ_self later (State.putSeq_seq _ _)).of_agree (.load s x.reg _)
    | waitDisable c later =>
      obtain go | ⟨asleep, t, awake, turned⟩ := coreStep_waitDisable h
      · rw [Machine.coreSteps, go]
        exact (ih n n.lt_succ_self later (State.putSeq_seq _ _)).of_agree (.of_mem rfl)
      · obtain _ | n := n
        · exact .none (.of_mem asleep)
        · rw [Machine.coreSteps, Machine.coreSteps, awake]
          exact (ih n (by omega) (later.disableLoop c) (State.putSeq_seq _ _)).of_agree fun q => (AgreeRw.of_mem turned q).trans (.turn s q)
    | change e later =>
      obtain unchanged | ⟨m, fewer, loc', eq⟩ := coreSteps_change h (n + 1)
      · exact .none unchanged
      · rw [eq]
        exact .cons ((ih m fewer later (State.putSeq_seq _ _)).of_agree (.of_mem rfl))

/-! ## The groups of lines of applyPwmConfig (R95) -/

section
variable {rest : List Line} {es : List Change} (h : MakesInOrder rest es) (c : Channel)
include h

theorem MakesInOrder.configureClock (source divider : Word) :
    MakesInOrder (linesConfigureClock c source divider ++ rest) (.clock c source divider :: es) := by
  unfold linesConfigureClock
  split
  · exact .raise _ _ _
  · split
    · exact .raise _ _ _
    · exact .change (.clock c source divider) h

theorem MakesInOrder.setPeriod (entire active : Half) :
    MakesInOrder (linesSetPeriod c entire active ++ rest) (.period c entire active :: es) := by
  unfold linesSetPeriod
  split
  · exact .raise _ _ _
  · exact .change (.period c entire active) h

end

/-- With an operand that is out of range the clock's lines make no change, whatever lines stand after them (R77, R110). -/
theorem makesInOrder_illegalClock (c : Channel) {source divider : Word} (h : ¬(source.toNat ≤ 1 ∧ divider.toNat ≤ 8)) (rest : List Line) :
    MakesInOrder (linesConfigureClock c source divider ++ rest) [] := by
  unfold linesConfigureClock
  split
  · exact .raise _ _ _
  · split
    · exact .raise _ _ _
    · next hs hd => exact absurd ⟨by simpa [sourceValid] using hs, by simpa [dividerValid] using hd⟩ h

section
variable (c : Channel) (source divider : Word) (p : Byte) (entire active : Half) (polarity : Bool)

theorem makesInOrder_pwmEnable : MakesInOrder (linesApplyPwmConfig c source divider p entire active polarity true)
    (pwmChanges c source divider p entire active polarity true) := by
  rw [linesApplyPwmConfig, if_pos rfl]
  simp only [List.append_assoc]
  have enable : MakesInOrder (linesSetEnabled c true) [.enable c true] := .change (.enable c true) .nil
  have control := MakesInOrder.change (.prescaler c p) (.change (.polarity c polarity) enable)
  exact .change (.gate c true) ((control.setPeriod c entire active).configureClock c source divider)

theorem makesInOrder_pwmDisable : MakesInOrder (linesApplyPwmConfig c source divider p entire active polarity false)
    (pwmChanges c source divider p entire active polarity false) := by
  rw [linesApplyPwmConfig_false, linesPwmDisabled]
  simp only [List.append_assoc]
  have gate : MakesInOrder (linesSetClockGate c false) [.gate c false] := .change (.gate c false) .nil
  have checked := (gate.configureClock c source divider).setPeriod c entire active
  exact MakesInOrder.disableLoop (.change (.enable c false) (.change (.polarity c polarity) (.change (.prescaler c p) checked))) c

variable {source divider}

theorem makesInOrder_pwmEnable_illegalClock (h : ¬(source.toNat ≤ 1 ∧ divider.toNat ≤ 8)) :
    MakesInOrder (linesApplyPwmConfig c source divider p entire active polarity true) [.gate c true] := by
  rw [linesApplyPwmConfig, if_pos rfl]
  simp only [List.append_assoc]
  exact .change (.gate c true) (makesInOrder_illegalClock c h _)

end

/-! ## The enable bit among the changes (R127, R128) -/

theorem State.after_flag_other (s : State) {es : List Change} {q : Reg} (h : ∀ e ∈ es, e.reg ≠ q) {k : Nat}
    (hk : (q.mask .rw).getLsbD k = true) : (s.after es).flag q k = s.flag q k :=
  s.after_flag_rw (fs := []) (List.filter_eq_nil_iff.2 (by simpa using h)) hk

/-- Once the first change has cleared the enable bit, no other sets it. -/
theorem State.after_enable_first (s : State) (c : Channel) (b : Bool) {es : List Change} (h : ∀ e ∈ es, e.reg ≠ .per) :
    (s.after (.enable c b :: es)).flag .per (perEn c) = b :=
  (State.after_flag_other _ h (perEn_rw c)).trans ((s.rmwBit_enable c c b).trans (if_pos rfl))

section
variable {c : Channel} {source divider : Word} {p : Byte} {entire active : Half} {polarity : Bool} {made : List Change}

/-- When enabling, the enable bit is not touched until the last change is made. -/
theorem pwmEnable_front (front : made <+: pwmChanges c source divider p entire active polarity true) :
    made = pwmChanges c source divider p entire active polarity true ∨ ∀ e ∈ made, e.reg ≠ .per := by
  have others : ∀ e ∈ (pwmChanges c source divider p entire active polarity true).dropLast, e.reg ≠ .per := by simp [pwmChanges]
  have wholeOrEarly := (List.prefix_concat_iff (l₂ := (pwmChanges c source divider p entire active polarity true).dropLast)).1 front
  exact wholeOrEarly.imp_right fun early e he => others e (early.subset he)

/-- When disabling, the first change clears the enable bit, and no other touches it. -/
theorem pwmDisable_front (front : made <+: pwmChanges c source divider p entire active polarity false) :
    made = [] ∨ ∃ later, made = .enable c false :: later ∧ ∀ e ∈ later, e.reg ≠ .per := by
  have others : ∀ e ∈ (pwmChanges c source divider p entire active polarity false).tail, e.reg ≠ .per := by simp [pwmChanges]
  exact (List.prefix_cons_iff.1 front).imp_right fun ⟨later, eq, front⟩ => ⟨later, eq, fun e he => others e (front.subset he)⟩

/-- On a channel that was disabled, an enable bit that is seen set is the work of the last change: the clock was legal, and all six changes are made. -/
theorem pwmEnable_complete {s : State} {cmd : Instr} {loc : Locals}
    (h : s.seq = .run cmd (linesApplyPwmConfig c source divider p entire active polarity true) loc)
    (disabled : s.flag .per (perEn c) = false) {n : Nat} (enabled : (coreSteps n s).flag .per (perEn c) = true) :
    source.toNat ≤ 1 ∧ divider.toNat ≤ 8 ∧
      ∀ q, AgreeRw q (coreSteps n s) (s.after (pwmChanges c source divider p entire active polarity true)) := by
  have tooEarly : ∀ {made : List Change}, (∀ e ∈ made, e.reg ≠ .per) → ¬AgreeRw .per (coreSteps n s) (s.after made) := fun others agree =>
    ne_true_of_eq_false ((agree _ (perEn_rw c)).trans ((s.after_flag_other others (perEn_rw c)).trans disabled)) enabled
  by_cases legal : source.toNat ≤ 1 ∧ divider.toNat ≤ 8
  · obtain ⟨made, front, agree⟩ := (makesInOrder_pwmEnable c source divider p entire active polarity).coreSteps h n
    obtain rfl | others := pwmEnable_front front
    · exact ⟨legal.1, legal.2, agree⟩
    · exact absurd (agree .per) (tooEarly others)
  · obtain ⟨made, front, agree⟩ := (makesInOrder_pwmEnable_illegalClock c p entire active polarity legal).coreSteps h n
    have others : ∀ e ∈ [Change.gate c true], e.reg ≠ .per := by simp
    exact absurd (agree .per) (tooEarly fun e he => others e (front.subset he))

end

end Sys2Proof.Machine

open Sys2Proof Sys2Proof.Machine

/-- Settles O59: either no change is made yet, and the gate is as at the start, or the enable bit is cleared and stays so. -/
theorem disableNeverStopsTheClockOfAnEnabledChannel : Obligations.DisableNeverStopsTheClockOfAnEnabledChannel := by
  intro s ch source divider c p entire active polarity n gated enabled
  obtain ⟨made, front, agree⟩ := (makesInOrder_pwmDisable c source divider p entire active polarity).coreSteps
    (s := s.started (.applyPwmConfig ch source divider p entire active polarity false) _) rfl n
  obtain rfl | ⟨later, rfl, others⟩ := pwmDisable_front front
  · exact (agree .pcgr _ (pcgrGate_rw c)).trans gated
  · have disabled := (agree .per _ (perEn_rw c)).trans (State.after_enable_first _ c false others)
    exact absurd enabled (ne_true_of_eq_false disabled)

/-- Settles O60: the enable bit is seen set only after all six changes, which set every other field. -/
theorem enableBitIsSetLast : Obligations.EnableBitIsSetLast := by
  intro s u ch source divider c p entire active polarity n disabled hu enabled
  subst hu
  obtain ⟨hsource, hd, agree⟩ := pwmEnable_complete
    (s := s.started (.applyPwmConfig ch source divider p entire active polarity true) _) rfl disabled enabled
  obtain ⟨bits, sourceSet, dividerSet, entireSet, activeSet, prescalerSet, polaritySet⟩ :=
    State.after_pwmChanges _ c p entire active polarity true hsource hd rfl
  obtain ⟨gateSet, -, -⟩ := bits c
  exact ⟨(agree _ _ (pcgrGate_rw c)).trans (gateSet.trans (if_pos rfl)),
    (agree _ _ (source_rw c.pair)).trans sourceSet,
    (congrArg BitVec.toNat ((rwField_divider c.pair).agree (agree _))).trans dividerSet,
    ((rwField_entire c).agree (agree _)).trans entireSet,
    ((rwField_active c).agree (agree _)).trans activeSet,
    ((rwField_prescaler c).agree (agree _)).trans prescalerSet,
    (agree _ _ (actSta_rw c)).trans polaritySet⟩

end
